-- ==== Sys2Proof/Word.lean ====
section
/-!
DEFINITION. The word types of HUFF-CORE: the 32-bit register word, the 8-bit byte and the bit sequence of a stream port.
All values are unsigned (R9, R14).
-/

namespace Sys2Proof

/-- One host register or command word, `REG_W` = 32 bits (R7, R23). -/
abbrev Word := BitVec 32

/-- One byte of the data being compressed, `BYTE_W` = 8 bits (R7). -/
abbrev Byte := BitVec 8

/-- A bit sequence, first bit first (R10). -/
abbrev Bits := List Bool

end Sys2Proof
end

