-- ==== Sys2Proof/Config.lean ====
section
/-!
DEFINITION. The implementation parameters of R7, each under its name there, and the values that the spec leaves open
(R195 and 93_implementation_defined.md U1 and U12), which are constants without a body. The source's literals 256, 257, 9, 32
and 0xFACE8201, which R4 makes normative and calls unaudited, are `eofSym`, `nsym`, `symW`, `magicW` and `fieldMax`, and `magic`:
a corrected value changes one definition (I6). The parameters of R7 that are widths of stored values (REG_W, FREQ_W, NODE_IDX_W,
CODE_LEN_W, POS_W) are the widths of the types of State and Word.
-/

namespace Sys2Proof.Config

/-- `NSYM`: the number of symbols, 0..256 (R7). -/
def nsym : Nat := 257

/-- `EOF_SYM`: the end-of-stream symbol (R7). -/
def eofSym : Nat := 256

/-- `BYTE_W`: the width of an input byte (R7). -/
def byteW : Nat := 8

/-- `SYM_W`: the width of a header symbol field (R7). -/
def symW : Nat := 9

/-- `MAGIC`: the marker of the compressed format (R7, R36). -/
def magic : Word := 0xFACE8201#32

/-- `MAGIC_W`: the width of the marker (R7). -/
def magicW : Nat := 32

/-- `FIELD_MAX`: the largest field that one stream access moves (R7, R54, R55). -/
def fieldMax : Nat := 32

/-- `FREQ_W` bounds every count and every node weight: the greatest weight is 2^32 - 1 (R7, R94). -/
def weightMax : Nat := 2 ^ 32 - 1

/-- `COUNT_MAX`: the most bytes one COUNT accepts (R7, R83). -/
def countMax : Nat := 2 ^ 32 - 2

/-- `NODE_CAP`: the number of node memory entries (R7, R8). -/
def nodeCap : Nat := 513

/-- `MAX_CODE_LEN`: the most code bits stored for a symbol (R7, R8). -/
def maxCodeLen : Nat := 256

/-- The ports hold fewer than 2^`POS_W` bits (R7, R51, R52). -/
def portLimit : Nat := 2 ^ 64

/-- `PAD_BIT`: the value of a bit FLUSH_OUT pads with (R7, R57). -/
def padBit : Bool := false

/-- `ID_VALUE`: "HUF1" (R7, R24). -/
def idValue : Word := 0x48554631#32

/-- FREE VALUE: what a host read of a register other than STATUS returns while BUSY = 1 (R195, U1 "any value").
Its argument is `State.freeCount`, so that no two such reads are known to agree. -/
opaque busyRead : Nat → Word

/-- FREE VALUE: what IN_LEN and OUT_LEN read for a port of 2^64 bits or more, a length their 64 bits cannot hold (U12).
Its argument is the port's length. -/
opaque lengthBeyondLimit : Nat → BitVec 64

end Sys2Proof.Config
end

