-- ==== Sys2Proof/Syntax.lean ====
section
/-!
DEFINITION. The fifteen commands of R73 and the actions of the host of R180, which are the only things that move the block.
-/

namespace Sys2Proof

/-- A command: one constructor per row of opcode_table.json (R73). No command has an operand (R72). -/
inductive Instr where
  | nop
  | clear
  | count
  | build
  | genTable
  | writeMagic
  | serialize
  | encode
  | checkMagic
  | deserialize
  | decode
  | rewindIn
  | flushOut
  | compress
  | decompress
  deriving DecidableEq, Repr

/-- One atomic action of the host agent (R180, R77). An address is any natural number: the block uses its bits 15..2 (R58). -/
inductive HostAction where
  /-- `MemRead(a, 4)` -/
  | memRead (addr : Nat)
  /-- `MemWrite(a, 4, v)` -/
  | memWrite (addr : Nat) (value : Word)
  /-- `LOAD(bits)`: replace the contents of the IN port -/
  | load (bits : Bits)
  /-- `TAKE()`: take the contents of the OUT port -/
  | take
  /-- assert the reset input -/
  | reset
  deriving DecidableEq, Repr

/-- What the host got back from its last action: the word of a `MemRead`, the bits of a `TAKE`, or nothing. -/
inductive HostReply where
  | nothing
  | word (w : Word)
  | bits (b : Bits)
  deriving DecidableEq, Repr

end Sys2Proof
end

