-- ==== Sys2Proof/WellFormed.lean ====
section
/-!
DEFINITION. What R70 to R72 and R180 ask of a command, of a command word and of a host action before it is carried out.
-/

namespace Sys2Proof

/-- Every command is well formed: none has an operand or an immediate to check (R72). -/
def Instr.wellFormed : Instr → Bool
  | .nop | .clear | .count | .build | .genTable | .writeMagic | .serialize | .encode | .checkMagic
  | .deserialize | .decode | .rewindIn | .flushOut | .compress | .decompress => true

/-- The reserved field RSVD of a command word, bits [31:8], is 0 (R70). -/
def reservedFieldZero (w : Word) : Bool := w.toNat / 256 == 0

/-- A legal command word: RSVD = 0 and OP none of the reserved opcodes `0x0D`-`0x0F`, `0x12`-`0xFF` (R71, R74). -/
def legalWord (w : Word) : Bool :=
  reservedFieldZero w && (w.toNat % 256 ≤ 0x0C || w.toNat % 256 == 0x10 || w.toNat % 256 == 0x11)

/-- The host's duty of R180 and R51: a LOAD gives fewer than 2^64 bits. The other actions have no duty that depends on
their data. -/
def HostAction.wellFormed : HostAction → Bool
  | .load bits => bits.length < Config.portLimit
  | .memRead _ | .memWrite _ _ | .take | .reset => true

end Sys2Proof
end

