-- ==== Sys2Proof/Decode.lean ====
section
/-!
DEFINITION. The command word format CMD32 (R70): the opcode map of R73, the decoder, which is total on 32-bit words and says
why it rejects one, and the encoder.
-/

namespace Sys2Proof

/-- Why a word is no command (R71, R74). Both reasons are reported as ILLEGAL_COMMAND. -/
inductive DecodeError where
  /-- some bit of [31:8] is set -/
  | reservedBits
  /-- bits [7:0] are none of the fifteen opcodes -/
  | reservedOpcode
  deriving DecidableEq, Repr

/-- The opcode map (R73), in the order of that table. -/
def opcodeTable : List (BitVec 8 × Instr) :=
  [(0x00#8, .nop), (0x01#8, .clear), (0x02#8, .count), (0x03#8, .build), (0x04#8, .genTable),
   (0x05#8, .writeMagic), (0x06#8, .serialize), (0x07#8, .encode), (0x08#8, .checkMagic),
   (0x09#8, .deserialize), (0x0A#8, .decode), (0x0B#8, .rewindIn), (0x0C#8, .flushOut),
   (0x10#8, .compress), (0x11#8, .decompress)]

/-- The field OP of a command word, bits [7:0] (R70). -/
def fieldOp (w : Word) : BitVec 8 := w.extractLsb' 0 8

/-- The field RSVD of a command word, bits [31:8] (R70). -/
def fieldReserved (w : Word) : BitVec 24 := w.extractLsb' 8 24

/-- The command a word written to CMD stands for, or why it stands for none (R71). -/
def decode (w : Word) : Except DecodeError Instr :=
  if fieldReserved w ≠ 0#24 then .error .reservedBits
  else
    match opcodeTable.find? (fun row => row.1 == fieldOp w) with
    | some row => .ok row.2
    | none => .error .reservedOpcode

/-- The opcode of a command (R73). -/
def opcode : Instr → BitVec 8
  | .nop => 0x00#8
  | .clear => 0x01#8
  | .count => 0x02#8
  | .build => 0x03#8
  | .genTable => 0x04#8
  | .writeMagic => 0x05#8
  | .serialize => 0x06#8
  | .encode => 0x07#8
  | .checkMagic => 0x08#8
  | .deserialize => 0x09#8
  | .decode => 0x0A#8
  | .rewindIn => 0x0B#8
  | .flushOut => 0x0C#8
  | .compress => 0x10#8
  | .decompress => 0x11#8

/-- The command word of a command: RSVD = 0, then OP (R70, R73: "The full 32-bit word of each is `0x000000OP`"). -/
def encode (i : Instr) : Word := (0#24 ++ opcode i : BitVec (24 + 8))

/-- The host's numbering of a table row's bits: `nbits` bits `w`, the bits above them 0. A command is one 32-bit word
(R70, R76), so a longer one is none. -/
def decodeTableWord (nbits w : Nat) : Option Instr :=
  if nbits ≤ 32 then
    match decode (BitVec.ofNat 32 (w % 2 ^ nbits)) with
    | .ok i => some i
    | .error _ => none
  else none

end Sys2Proof
end

