-- ==== Sys2Proof/Machine/State.lean ====
section
/-!
DEFINITION. The architectural state of HUFF-CORE (R20), the host actions still to come, and the state after reset (R190, R192).
-/

namespace Sys2Proof.Machine

/-- An entry of the node memory (R41). -/
structure Node where
  isLeaf : Bool
  symbol : BitVec 9
  left   : BitVec 10
  right  : BitVec 10
  weight : Word
  deriving DecidableEq, Repr

/-- A node memory entry with every field 0. -/
def Node.zero : Node := ⟨false, 0#9, 0#10, 0#10, 0#32⟩

/-- An entry of the code table (R43). The code is the `len`-bit spelling of `val`. -/
structure Code where
  valid : Bool
  len   : BitVec 9
  val   : BitVec 256
  deriving DecidableEq, Repr

/-- The entry of a symbol without a code (R43). -/
def Code.none : Code := ⟨false, 0#9, 0#256⟩

/-- HUFF-CORE's state: the components of R20 and, last, the model's own three fields, which hold the second agent, the host.
ID, MAGIC and `FREQ[256]` are constants and IN_LEN, OUT_LEN and IRQ are computed, so none of them is a field (R20). -/
structure State where
  /-- STATUS.BUSY (R26) -/
  busy       : Bool
  /-- STATUS.DONE (R26) -/
  done       : Bool
  /-- STATUS.ERR (R26) -/
  err        : Bool
  /-- STATUS.TREE_VALID (R26, R48) -/
  treeValid  : Bool
  /-- STATUS.TABLE_VALID (R26, R49) -/
  tableValid : Bool
  /-- ERR_CODE.CODE (R27) -/
  errCode    : BitVec 8
  /-- ERR_CODE.DETAIL (R27) -/
  errDetail  : BitVec 8
  /-- ERR_CODE.STEP (R27) -/
  errStep    : BitVec 8
  /-- ERR_INFO (R28) -/
  errInfo    : Word
  /-- INT_EN.DONE_IE (R30) -/
  doneIE     : Bool
  /-- INT_EN.ERR_IE (R30) -/
  errIE      : Bool
  /-- IN_POS, the read cursor of the IN port (R31, R51) -/
  inPos      : BitVec 64
  /-- NODE_COUNT (R34) -/
  nodeCount  : BitVec 10
  /-- ROOT (R35) -/
  root       : BitVec 10
  /-- LAST_MAGIC (R37) -/
  lastMagic  : Word
  /-- COUNT_TOTAL (R38) -/
  countTotal : Word
  /-- `FREQ[0..255]` (R39) -/
  freq       : Vector Word 256
  /-- `NODE[0..512]` (R41) -/
  nodes      : Vector Node 513
  /-- `CODE[0..256]` (R43) -/
  codes      : Vector Code 257
  /-- the contents of the IN port, first bit first (R51) -/
  inBits     : Bits
  /-- the contents of the OUT port, first bit first (R52) -/
  outBits    : Bits
  /-- MODEL'S OWN: the host's coming actions, the next one first (R180) -/
  host       : List HostAction
  /-- MODEL'S OWN: what the host's last action returned to it (R180) -/
  reply      : HostReply
  /-- MODEL'S OWN: how many reads with an unspecified value there have been (R195) -/
  freeCount  : Nat
  deriving DecidableEq, Repr

/-- Reasons for which the block has no next state. None is an error of R163: those are next states. -/
inductive Fault where
  /-- SERIALIZE, GEN_TABLE, DECODE and BUILD: TREE_VALID = 1 and yet the node memory is no tree as R48 says it is, so that
  the recursion of the pseudocode does not end or leaves the table memories. DESERIALIZE names it too, for a descent deeper
  than the node memory. SAFE: no state of this kind is reached from reset, and the model only stops. -/
  | notATree
  /-- LOAD and TAKE while BUSY = 1 (R180, R197, U4 "stuck: the model gives it no step"). SAFE: the model only stops. -/
  | portActionWhileBusy
  deriving DecidableEq, Repr

/-- Reasons for which the model declines a step. -/
inductive Refusal where
  /-- `exec`, for a command that has no meaning in the model. SAFE: the model only stops. No arm uses it. -/
  | notModelled (mnemonic : String)
  /-- LOAD of 2^64 bits or more, which is "outside every claim; the host must not load one" (U12, R51, R181).
  SAFE: the model only stops. -/
  | inputTooLong
  deriving DecidableEq, Repr

/-- The state after the power-on reset (R20, R190, R191, R192). NODE and CODE contents are unspecified and not observable;
DESIGN CHOICE (log entry 2): they are 0, as U7 allows. The host has no action pending. -/
def State.reset : State where
  busy       := false
  done       := false
  err        := false
  treeValid  := false
  tableValid := false
  errCode    := 0#8
  errDetail  := 0#8
  errStep    := 0#8
  errInfo    := 0#32
  doneIE     := false
  errIE      := false
  inPos      := 0#64
  nodeCount  := 0#10
  root       := 0#10
  lastMagic  := 0#32
  countTotal := 0#32
  freq       := Vector.replicate 256 0#32
  nodes      := Vector.replicate 513 Node.zero
  codes      := Vector.replicate 257 Code.none
  inBits     := []
  outBits    := []
  host       := []
  reply      := .nothing
  freeCount  := 0

end Sys2Proof.Machine
end

