-- ==== Sys2Proof/Machine/Operands.lean ====
section
/-!
DEFINITION. What the commands read and write (R72: their inputs are block state, not operand fields): bit sequences and their
spelling (R10, R53), the two stream ports (R51 to R57) and the three table memories (R39 to R44).
-/

namespace Sys2Proof.Machine

/-! ## Bit sequences -/

/-- The `n`-bit spelling of `v`: `v[n-1] v[n-2] … v[0]` (R10). -/
def spell : Nat → Nat → Bits
  | 0, _ => []
  | n + 1, v => v.testBit n :: spell n v

/-- The number a bit sequence spells, its first bit most significant (R10, R54). -/
def bitsValue (b : Bits) : Nat := b.foldl (fun v bit => 2 * v + bit.toNat) 0

/-- The bits of a byte file, most significant bit of each byte first (R53). -/
def bytesToBits (bytes : List Byte) : Bits := bytes.flatMap fun b => spell 8 b.toNat

/-- The first `n` bytes that a bit sequence holds: the inverse of `bytesToBits` (R53). -/
def takeBytes : Nat → Bits → List Byte
  | 0, _ => []
  | n + 1, b => BitVec.ofNat 8 (bitsValue (b.take 8)) :: takeBytes n (b.drop 8)

/-- The bytes of a byte-aligned bit sequence (R53). -/
def bitsToBytes (b : Bits) : List Byte := takeBytes (b.length / 8) b

/-! ## The stream ports -/

/-- `|IN| - IN_POS`: the bits still to be read. -/
def bitsLeft (s : State) : Nat := s.inBits.length - s.inPos.toNat

/-- `IN_POS <- IN_POS + n` (R54). -/
def advance (n : Nat) (s : State) : State := { s with inPos := s.inPos + BitVec.ofNat 64 n }

/-- A width that one stream access may have: `1 <= n <= FIELD_MAX` (R7, R54, R55). -/
abbrev FieldWidth (n : Nat) : Prop := 1 ≤ n ∧ n ≤ Config.fieldMax

/-- `ReadBits(n)` (R54): the value read and the state with IN_POS advanced, or `none` for EXHAUSTED, which consumes
nothing. There is no access of another width than R54 allows. -/
def readBits (n : Nat) (s : State) (_ : FieldWidth n := by decide) : Option (Nat × State) :=
  if bitsLeft s < n then none
  else some (bitsValue ((s.inBits.drop s.inPos.toNat).take n), advance n s)

/-- `WriteSeq(b)` (R56): append a bit sequence to OUT. -/
def writeSeq (b : Bits) (s : State) : State := { s with outBits := s.outBits ++ b }

/-- `WriteBits(n, v)` (R55): append the `n`-bit spelling of `v[n-1:0]` to OUT. There is no access of another width than R55
allows. -/
def writeBits (n v : Nat) (s : State) (_ : FieldWidth n := by decide) : State := writeSeq (spell n v) s

/-- How many pad bits bring OUT to a whole number of bytes (R57, R143). -/
def padLength (n : Nat) : Nat := (8 - n % 8) % 8

/-- The length of a port as IN_LEN and OUT_LEN read it (R32, R33). -/
def portLength (n : Nat) : BitVec 64 :=
  if n < Config.portLimit then BitVec.ofNat 64 n else Config.lengthBeyondLimit n

/-! ## The table memories -/

/-- `FREQ[sym]`: the stored count, or the hardwired 1 of the end-of-stream symbol (R39, R40). -/
def freqAt (s : State) (sym : Nat) : Word :=
  if sym = Config.eofSym then 1#32 else s.freq[sym]?.getD 0#32

/-- `FREQ[sym] <- v`. `FREQ[256]` ignores writes (R40). -/
def setFreq (sym : Nat) (v : Word) (s : State) : State := { s with freq := s.freq.setIfInBounds sym v }

/-- `NODE[i]`, where the node memory has an entry `i` (R41). -/
def nodeAt (s : State) (i : Nat) : Option Node := s.nodes[i]?

/-- `NODE[i] <- n` (R41). -/
def setNode (i : Nat) (n : Node) (s : State) : State := { s with nodes := s.nodes.setIfInBounds i n }

/-- `NODE[i].LEFT <- l` (R104). -/
def setLeft (i l : Nat) (s : State) : State :=
  match nodeAt s i with
  | some n => setNode i { n with left := BitVec.ofNat 10 l } s
  | none => s

/-- `NODE[i].RIGHT <- r` (R104). -/
def setRight (i r : Nat) (s : State) : State :=
  match nodeAt s i with
  | some n => setNode i { n with right := BitVec.ofNat 10 r } s
  | none => s

/-- `i <- NODE_COUNT ; NODE[i] <- n ; NODE_COUNT <- i + 1` (R90, R104). -/
def pushNode (n : Node) (s : State) : State :=
  { s with nodes := s.nodes.setIfInBounds s.nodeCount.toNat n, nodeCount := s.nodeCount + 1#10 }

/-- A leaf (R41): it has no children. -/
def leafNode (sym : Nat) (weight : Word) : Node := ⟨true, BitVec.ofNat 9 sym, 0#10, 0#10, weight⟩

/-- An internal node (R41): it has no stored symbol. -/
def innerNode (left right : Nat) (weight : Word) : Node :=
  ⟨false, 0#9, BitVec.ofNat 10 left, BitVec.ofNat 10 right, weight⟩

/-- `CODE[sym]` (R43). -/
def codeAt (s : State) (sym : Nat) : Code := s.codes[sym]?.getD Code.none

/-- `CODE[sym] <- c` (R43). -/
def setCode (sym : Nat) (c : Code) (s : State) : State := { s with codes := s.codes.setIfInBounds sym c }

/-- `code(s)`: the LEN-bit spelling of VAL (R43, R123). -/
def Code.bits (c : Code) : Bits := spell c.len.toNat c.val.toNat

/-- `TREE_VALID`, `TABLE_VALID`, `NODE_COUNT` and `ROOT` cleared: how BUILD and DESERIALIZE begin (R90, R104). -/
def dropTree (s : State) : State :=
  { s with treeValid := false, tableValid := false, nodeCount := 0#10, root := 0#10 }

/-- `FREQ[0..255]` and COUNT_TOTAL cleared (R80, R141). -/
def dropCounts (s : State) : State := { s with freq := Vector.replicate 256 0#32, countTotal := 0#32 }

end Sys2Proof.Machine
end

