-- ==== Sys2Proof/Machine/Flags.lean ====
section
/-!
DEFINITION. The status, error and interrupt words (R26, R27, R30), the interrupt output (R169) and the bits that a host write
of 1 clears (R26).
-/

namespace Sys2Proof.Machine

/-- The interrupt output: `(DONE and DONE_IE) or (ERR and ERR_IE)` (R169). -/
def irq (s : State) : Bool := (s.done && s.doneIE) || (s.err && s.errIE)

/-- STATUS as it reads (R26): bit 0 BUSY, 1 DONE, 2 ERR, 3 TREE_VALID, 4 TABLE_VALID, 5 IRQ, the rest 0. -/
def statusWord (s : State) : Word :=
  (0#26 ++ BitVec.ofBool (irq s) ++ BitVec.ofBool s.tableValid ++ BitVec.ofBool s.treeValid ++ BitVec.ofBool s.err
    ++ BitVec.ofBool s.done ++ BitVec.ofBool s.busy : BitVec (26 + 1 + 1 + 1 + 1 + 1 + 1))

/-- ERR_CODE as it reads (R27): bits [7:0] CODE, [15:8] DETAIL, [23:16] STEP, the rest 0. -/
def errCodeWord (s : State) : Word := (0#8 ++ s.errStep ++ s.errDetail ++ s.errCode : BitVec (8 + 8 + 8 + 8))

/-- INT_EN as it reads (R30): bit 0 DONE_IE, bit 1 ERR_IE, the rest 0. -/
def intEnWord (s : State) : Word :=
  (0#30 ++ BitVec.ofBool s.errIE ++ BitVec.ofBool s.doneIE : BitVec (30 + 1 + 1))

/-- A host write to STATUS (R26): a 1 in bit 1 clears DONE, a 1 in bit 2 clears ERR, and nothing else changes. Clearing ERR
is the acknowledgement of an error, "the return from trap" (R166): ERR_CODE and ERR_INFO keep their values. -/
def acknowledge (v : Word) (s : State) : State :=
  { s with done := s.done && !v.getLsbD 1, err := s.err && !v.getLsbD 2 }

/-- A host write to INT_EN (R30): bits 0 and 1 are stored, the reserved bits ignored. -/
def writeIntEn (v : Word) (s : State) : State := { s with doneIE := v.getLsbD 0, errIE := v.getLsbD 1 }

end Sys2Proof.Machine
end

