-- ==== Sys2Proof/Machine/Ops.lean ====
section
/-!
DEFINITION. The lifecycle of a command (R160 to R162): issue, `finish`, and `raise`, which is how HUFF-CORE takes an exception.
The return from one is `acknowledge` in Flags.lean (R166). Also the reset of the block (R190).
-/

namespace Sys2Proof.Machine

/-- The errors that are raised (R163). -/
inductive Err where
  | readExhausted
  | badFormat
  | truncatedStream
  | internalConsistency
  | malformedHeader
  | illegalCommand
  | noTree
  | noTable
  | countOverflow
  | weightOverflow
  | degenerateTree
  deriving DecidableEq, Repr

/-- The error codes (R163). -/
def errCodeOf : Err → BitVec 8
  | .readExhausted => 0x01#8
  | .badFormat => 0x02#8
  | .truncatedStream => 0x03#8
  | .internalConsistency => 0x04#8
  | .malformedHeader => 0x05#8
  | .illegalCommand => 0x10#8
  | .noTree => 0x11#8
  | .noTable => 0x12#8
  | .countOverflow => 0x13#8
  | .weightOverflow => 0x14#8
  | .degenerateTree => 0x15#8

/-- How a piece of a command's pseudocode ends: it goes on with a value, it has raised an error, or it has no end. -/
inductive Run (α : Type) where
  | ok (a : α) (s : State)
  | abort (s : State)
  | stuck (f : Fault)

/-- Sequence: the second piece runs only when the first goes on (R162, R168). -/
def Run.bind {α β : Type} (r : Run α) (k : α → State → Run β) : Run β :=
  match r with
  | .ok a s => k a s
  | .abort s => .abort s
  | .stuck f => .stuck f

/-- `step X` of a composite command, then the rest of it (R144, R146). -/
def Run.andThen (r : Run Unit) (k : State → Run Unit) : Run Unit := r.bind fun _ s => k s

/-- The registers that `raise E(detail, info)` writes while the primitive command of opcode `step` executes (R162). -/
def raised (step : BitVec 8) (e : Err) (detail : BitVec 8) (info : Nat) (s : State) : State :=
  { s with
    errCode := errCodeOf e, errDetail := detail, errStep := step, errInfo := BitVec.ofNat 32 info
    err := true, done := false, busy := false }

/-- `raise E(detail, info)` (R162): taking an exception. Every earlier change of the state stands. -/
def raise {α : Type} (step : BitVec 8) (e : Err) (detail : BitVec 8) (info : Nat) (s : State) : Run α :=
  .abort (raised step e detail info s)

/-- The start of a command: DONE, ERR_CODE and ERR_INFO cleared (R160, R27, R28). -/
def cleared (s : State) : State :=
  { s with done := false, errCode := 0#8, errDetail := 0#8, errStep := 0#8, errInfo := 0#32 }

/-- `STATUS.BUSY <- 1` (R160). -/
def started (s : State) : State := { cleared s with busy := true }

/-- `finish` (R161). -/
def finished (s : State) : State := { s with busy := false, done := true }

/-- A CMD write does nothing while BUSY = 1 (R196) or while ERR = 1 (R165). -/
def ignoresCommands (s : State) : Bool := s.busy || s.err

/-- Issue of a legal command whose pseudocode is `body`, as one atomic transition (R160, R161, R162). -/
def runCommand (body : State → Run Unit) (s : State) : Host.Outcome State Fault Refusal :=
  if ignoresCommands s then .next s
  else
    match body (started s) with
    | .ok _ t => .next (finished t)
    | .abort t => .next t
    | .stuck f => .fault f

/-- Issue of a word that is no command: ILLEGAL_COMMAND(0, w) with STEP = `w[7:0]` (R160, R71, R27). -/
def illegalCommand (w : Word) (s : State) : State :=
  if ignoresCommands s then s else raised (fieldOp w) .illegalCommand 0#8 w.toNat (cleared s)

/-- The reset of the block (R190): every component of R20 takes its reset value, and the ports keep their contents (R191).
DESIGN CHOICE (log entry 2): NODE and CODE contents, unspecified and not observable, become 0. -/
def resetBlock (s : State) : State :=
  { State.reset with
    inBits := s.inBits, outBits := s.outBits, host := s.host, reply := s.reply, freeCount := s.freeCount }

end Sys2Proof.Machine
end

