-- ==== Sys2Proof/Machine/Builder.lean ====
section
/-!
DEFINITION. The tree builder: BUILD (R90 to R98).
-/

namespace Sys2Proof.Machine

/-- `NODE[i].WEIGHT`. -/
def weightAt (s : State) (i : Nat) : Nat :=
  match nodeAt s i with
  | some n => n.weight.toNat
  | none => 0

/-- The priority order: `(WEIGHT, index)` compared lexicographically (R91). -/
def keyLess (s : State) (i j : Nat) : Bool :=
  weightAt s i < weightAt s j || (weightAt s i == weightAt s j && i < j)

/-- The node of least key among `i` and the nodes of `q` (R91). -/
def argmin (s : State) : Nat → List Nat → Nat
  | i, [] => i
  | i, j :: q => argmin s (if keyLess s j i then j else i) q

/-- Extraction from the collection Q (R91, R45): the node of least key, and the collection without it. -/
def extractMin (s : State) : List Nat → Option (Nat × List Nat)
  | [] => none
  | i :: q => some (argmin s i q, (i :: q).erase (argmin s i q))

/-- `FREQ[0..256]` with the symbols, in ascending symbol order (R92). The last is the hardwired 1 of the end-of-stream
symbol (R40). -/
def freqList (s : State) : List (Word × Nat) :=
  s.freq.toList.zipIdx ++ [(freqAt s Config.eofSym, Config.eofSym)]

/-- A leaf for every symbol listed whose count is not 0, in that order, and its index added to Q (R92). -/
def placeLeaves : List (Word × Nat) → List Nat → State → List Nat × State
  | [], q, s => (q, s)
  | (count, sym) :: rest, q, s =>
    if count = 0#32 then placeLeaves rest q s
    else placeLeaves rest (q ++ [s.nodeCount.toNat]) (pushNode (leafNode sym count) s)

/-- The merging loop of BUILD: while Q holds two nodes or more, the two of least key become the LEFT and the RIGHT child of
a new node (R90, R93, R94). It answers the only element that is left. The first argument is at least `|Q|`, which every
merge makes smaller by one (R203). -/
def mergeLoop : Nat → List Nat → State → Run Nat
  | 0, _, _ => .stuck .notATree
  | k + 1, q, s =>
    match extractMin s q with
    | none => .stuck .notATree
    | some (a, q1) =>
      match extractMin s q1 with
      | none => .ok a s
      | some (b, q2) =>
        if weightAt s a + weightAt s b > Config.weightMax then
          raise (opcode .build) .weightOverflow 0#8 s.nodeCount.toNat s
        else
          mergeLoop k (q2 ++ [s.nodeCount.toNat])
            (pushNode (innerNode a b (BitVec.ofNat 32 (weightAt s a + weightAt s b))) s)

/-- The pseudocode of BUILD (R90). -/
def buildBody (s : State) : Run Unit :=
  let (q, s1) := placeLeaves (freqList s) [] (dropTree s)
  (mergeLoop q.length q s1).bind fun r s2 => .ok () { s2 with root := BitVec.ofNat 10 r, treeValid := true }

/-- BUILD (R90). -/
def execBuild (s : State) : Host.Outcome State Fault Refusal := runCommand buildBody s

end Sys2Proof.Machine
end

