-- ==== Sys2Proof/Machine/Counter.lean ====
section
/-!
DEFINITION. The frequency counter: COUNT (R80 to R86).
-/

namespace Sys2Proof.Machine

/-- COUNT finds IN exhausted: a clean end (R81), or 1 to 7 bits left (R82). -/
def countEnd (s : State) : Run Unit :=
  if bitsLeft s = 0 then .ok () s else raise (opcode .count) .readExhausted 0#8 (bitsLeft s) s

/-- `FREQ[r] <- FREQ[r] + 1 ; COUNT_TOTAL <- COUNT_TOTAL + 1` (R84). -/
def countByte (r : Nat) (s : State) : State :=
  { setFreq r (freqAt s r + 1#32) s with countTotal := s.countTotal + 1#32 }

/-- The loop of COUNT, at most `k` whole bytes of it. `k` is the number of whole bytes that remain (R203). -/
def countLoop : Nat → State → Run Unit
  | 0, s => countEnd s
  | k + 1, s =>
    match readBits Config.byteW s with
    | none => countEnd s
    | some (r, s1) =>
      if s1.countTotal.toNat = Config.countMax then raise (opcode .count) .countOverflow 0#8 r s1
      else countLoop k (countByte r s1)

/-- The pseudocode of COUNT (R80). -/
def countBody (s : State) : Run Unit := countLoop (bitsLeft s / Config.byteW) (dropCounts s)

/-- COUNT (R80). -/
def execCount (s : State) : Host.Outcome State Fault Refusal := runCommand countBody s

end Sys2Proof.Machine
end

