-- ==== Sys2Proof/Machine/Decoder.lean ====
section
/-!
DEFINITION. The decoder: DECODE (R130 to R136).
-/

namespace Sys2Proof.Machine

/-- `raise TRUNCATED_STREAM(0, emitted mod 2^32)` (R132). -/
def truncated (emitted : Nat) (s : State) : Run Unit :=
  raise (opcode .decode) .truncatedStream 0#8 (emitted % 2 ^ 32) s

/-- The loop of DECODE, at most `k` bits of it, from the cursor `c` with `emitted` bytes written (R130). `k` is the number of
bits that remain, and every turn reads one (R135). -/
def decodeLoop : Nat → Nat → Nat → State → Run Unit
  | 0, _, emitted, s => truncated emitted s
  | k + 1, c, emitted, s =>
    match readBits 1 s with
    | none => truncated emitted s
    | some (b, s1) =>
      match nodeAt s1 c with
      | none => .stuck .notATree
      | some n =>
        let c1 := if b = 0 then n.left.toNat else n.right.toNat
        match nodeAt s1 c1 with
        | none => .stuck .notATree
        | some m =>
          if m.isLeaf then
            if m.symbol.toNat = Config.eofSym then .ok () s1
            else decodeLoop k s1.root.toNat (emitted + 1) (writeBits 8 m.symbol.toNat s1)
          else decodeLoop k c1 emitted s1

/-- The pseudocode of DECODE (R130, R131). -/
def decodeBody (s : State) : Run Unit :=
  if s.treeValid then
    match nodeAt s s.root.toNat with
    | none => .stuck .notATree
    | some n =>
      if n.isLeaf then
        if n.symbol.toNat = Config.eofSym then .ok () s
        else raise (opcode .decode) .degenerateTree 0#8 n.symbol.toNat s
      else decodeLoop (bitsLeft s) s.root.toNat 0 s
  else raise (opcode .decode) .noTree 0#8 0 s

/-- DECODE (R130). -/
def execDecode (s : State) : Host.Outcome State Fault Refusal := runCommand decodeBody s

end Sys2Proof.Machine
end

