-- ==== Sys2Proof/Machine/Encoder.lean ====
section
/-!
DEFINITION. The code-table generator and the encoder: GEN_TABLE, ENCODE (R120 to R127).
-/

namespace Sys2Proof.Machine

/-- `Walk(n, len, val)` (R120), no deeper than `depth` nodes. A code of more than 256 bits or of a symbol above 256 has no
place in the code table; no tree of R48 has one (R121). -/
def walkNode : Nat → Nat → Nat → Nat → State → Run Unit
  | 0, _, _, _, _ => .stuck .notATree
  | depth + 1, i, len, val, s =>
    match nodeAt s i with
    | none => .stuck .notATree
    | some n =>
      if n.isLeaf then
        if len ≤ Config.maxCodeLen ∧ n.symbol.toNat < Config.nsym then
          .ok () (setCode n.symbol.toNat ⟨true, BitVec.ofNat 9 len, BitVec.ofNat 256 val⟩ s)
        else .stuck .notATree
      else
        (walkNode depth n.left.toNat (len + 1) (2 * val) s).andThen fun s1 =>
          walkNode depth n.right.toNat (len + 1) (2 * val + 1) s1

/-- The pseudocode of GEN_TABLE (R120). -/
def genTableBody (s : State) : Run Unit :=
  if s.treeValid then
    (walkNode Config.nodeCap s.root.toNat 0 0 { s with codes := Vector.replicate 257 Code.none }).andThen fun s1 =>
      .ok () { s1 with tableValid := true }
  else raise (opcode .genTable) .noTree 0#8 0 s

/-- GEN_TABLE (R120). -/
def execGenTable (s : State) : Host.Outcome State Fault Refusal := runCommand genTableBody s

/-- `WriteSeq(code(sym))`, or INTERNAL_CONSISTENCY(0, sym) where the symbol has no code (R123, R124). -/
def encodeSymbol (sym : Nat) (s : State) : Run Unit :=
  if (codeAt s sym).valid then .ok () (writeSeq (codeAt s sym).bits s)
  else raise (opcode .encode) .internalConsistency 0#8 sym s

/-- ENCODE finds IN exhausted: READ_EXHAUSTED where 1 to 7 bits are left (R125), else the terminator (R123). -/
def encodeEnd (s : State) : Run Unit :=
  if bitsLeft s = 0 then encodeSymbol Config.eofSym s
  else raise (opcode .encode) .readExhausted 0#8 (bitsLeft s) s

/-- The loop of ENCODE, at most `k` whole bytes of it, and its end (R123). `k` is the number of whole bytes that remain
(R203). -/
def encodeLoop : Nat → State → Run Unit
  | 0, s => encodeEnd s
  | k + 1, s =>
    match readBits Config.byteW s with
    | none => encodeEnd s
    | some (r, s1) => (encodeSymbol r s1).andThen (encodeLoop k)

/-- The pseudocode of ENCODE (R123). -/
def encodeBody (s : State) : Run Unit :=
  if s.tableValid then encodeLoop (bitsLeft s / Config.byteW) s else raise (opcode .encode) .noTable 0#8 0 s

/-- ENCODE (R123). -/
def execEncode (s : State) : Host.Outcome State Fault Refusal := runCommand encodeBody s

end Sys2Proof.Machine
end

