-- ==== Sys2Proof/Machine/Header.lean ====
section
/-!
DEFINITION. The header codec: WRITE_MAGIC, SERIALIZE, CHECK_MAGIC, DESERIALIZE (R100 to R113).
-/

namespace Sys2Proof.Machine

/-- The pseudocode of WRITE_MAGIC (R100). -/
def writeMagicBody (s : State) : Run Unit := .ok () (writeBits Config.magicW Config.magic.toNat s)

/-- WRITE_MAGIC (R100). -/
def execWriteMagic (s : State) : Host.Outcome State Fault Refusal := runCommand writeMagicBody s

/-- `Ser(n)` (R101), no deeper than `depth` nodes. A path of more nodes than the node memory has, or one that leaves the
memory, is no path of a tree. -/
def serNode : Nat → Nat → State → Run Unit
  | 0, _, _ => .stuck .notATree
  | depth + 1, i, s =>
    match nodeAt s i with
    | none => .stuck .notATree
    | some n =>
      if n.isLeaf then .ok () (writeBits Config.symW n.symbol.toNat (writeBits 1 1 s))
      else
        (serNode depth n.left.toNat (writeBits 1 0 s)).andThen fun s1 => serNode depth n.right.toNat s1

/-- The pseudocode of SERIALIZE (R101). -/
def serializeBody (s : State) : Run Unit :=
  if s.treeValid then serNode Config.nodeCap s.root.toNat s else raise (opcode .serialize) .noTree 0#8 0 s

/-- SERIALIZE (R101). -/
def execSerialize (s : State) : Host.Outcome State Fault Refusal := runCommand serializeBody s

/-- The pseudocode of CHECK_MAGIC (R103, R113). -/
def checkMagicBody (s : State) : Run Unit :=
  let s0 := { s with lastMagic := 0#32 }
  match readBits Config.magicW s0 with
  | none => raise (opcode .checkMagic) .badFormat 2#8 (bitsLeft s0) s0
  | some (v, s1) =>
    let s2 := { s1 with lastMagic := BitVec.ofNat 32 v }
    if v ≠ Config.magic.toNat then raise (opcode .checkMagic) .badFormat 1#8 v s2 else .ok () s2

/-- CHECK_MAGIC (R103). -/
def execCheckMagic (s : State) : Host.Outcome State Fault Refusal := runCommand checkMagicBody s

/-- `raise MALFORMED_HEADER(detail, info)` (R104). -/
def malformed {α : Type} (detail : BitVec 8) (info : Nat) (s : State) : Run α :=
  raise (opcode .deserialize) .malformedHeader detail info s

/-- `Des()` after its flag bit was read as 1: a leaf (R104, R106 to R110). -/
def desLeaf (seen : List Nat) (s : State) : Run (Nat × List Nat) :=
  match readBits Config.symW s with
  | none => malformed 1#8 s.nodeCount.toNat s
  | some (sym, s1) =>
    if sym > Config.eofSym then malformed 2#8 sym s1
    else if sym ∈ seen then malformed 3#8 sym s1
    else if s1.nodeCount.toNat = Config.nodeCap then malformed 4#8 s1.nodeCount.toNat s1
    else .ok (s1.nodeCount.toNat, sym :: seen) (pushNode (leafNode sym 0#32) s1)

/-- `Des()` (R104), no deeper than `depth` nodes: it answers the index of the node it made and the symbols seen so far, the
hidden set of R46. -/
def desNode : Nat → List Nat → State → Run (Nat × List Nat)
  | 0, _, _ => .stuck .notATree
  | depth + 1, seen, s =>
    match readBits 1 s with
    | none => malformed 1#8 s.nodeCount.toNat s
    | some (f, s1) =>
      if f = 1 then desLeaf seen s1
      else if s1.nodeCount.toNat = Config.nodeCap then malformed 4#8 s1.nodeCount.toNat s1
      else
        (desNode depth seen (pushNode (innerNode 0 0 0#32) s1)).bind fun (l, seen1) s2 =>
          (desNode depth seen1 (setLeft s1.nodeCount.toNat l s2)).bind fun (r, seen2) s3 =>
            .ok (s1.nodeCount.toNat, seen2) (setRight s1.nodeCount.toNat r s3)

/-- The pseudocode of DESERIALIZE (R104). A call that is `d` calls deep has `d` nodes made before it, so with one more level
than nodes the capacity check comes first. -/
def deserializeBody (s : State) : Run Unit :=
  (desNode (Config.nodeCap + 1) [] (dropTree s)).bind fun _ s1 => .ok () { s1 with root := 0#10, treeValid := true }

/-- DESERIALIZE (R104). -/
def execDeserialize (s : State) : Host.Outcome State Fault Refusal := runCommand deserializeBody s

end Sys2Proof.Machine
end

