-- ==== Sys2Proof/Machine/Control.lean ====
section
/-!
DEFINITION. Housekeeping and port commands, and the two composite commands: NOP, CLEAR, REWIND_IN, FLUSH_OUT, COMPRESS,
DECOMPRESS (R140 to R149).
-/

namespace Sys2Proof.Machine

/-- The pseudocode of NOP (R140). -/
def nopBody (s : State) : Run Unit := .ok () s

/-- NOP (R140). -/
def execNop (s : State) : Host.Outcome State Fault Refusal := runCommand nopBody s

/-- The pseudocode of CLEAR (R141). -/
def clearBody (s : State) : Run Unit := .ok () { dropTree (dropCounts s) with lastMagic := 0#32 }

/-- CLEAR (R141). -/
def execClear (s : State) : Host.Outcome State Fault Refusal := runCommand clearBody s

/-- The pseudocode of REWIND_IN (R142). -/
def rewindInBody (s : State) : Run Unit := .ok () { s with inPos := 0#64 }

/-- REWIND_IN (R142). -/
def execRewindIn (s : State) : Host.Outcome State Fault Refusal := runCommand rewindInBody s

/-- The pseudocode of FLUSH_OUT (R143): pad bits until OUT is a whole number of bytes. -/
def flushOutBody (s : State) : Run Unit :=
  .ok () (writeSeq (List.replicate (padLength s.outBits.length) Config.padBit) s)

/-- FLUSH_OUT (R143). -/
def execFlushOut (s : State) : Host.Outcome State Fault Refusal := runCommand flushOutBody s

/-- The pseudocode of COMPRESS: its nine steps (R144). -/
def compressBody (s : State) : Run Unit :=
  (rewindInBody s).andThen fun s1 =>
  (countBody s1).andThen fun s2 =>
  (buildBody s2).andThen fun s3 =>
  (genTableBody s3).andThen fun s4 =>
  (writeMagicBody s4).andThen fun s5 =>
  (serializeBody s5).andThen fun s6 =>
  (rewindInBody s6).andThen fun s7 =>
  (encodeBody s7).andThen fun s8 =>
  flushOutBody s8

/-- COMPRESS (R144). -/
def execCompress (s : State) : Host.Outcome State Fault Refusal := runCommand compressBody s

/-- The pseudocode of DECOMPRESS: its four steps (R145). -/
def decompressBody (s : State) : Run Unit :=
  (rewindInBody s).andThen fun s1 =>
  (checkMagicBody s1).andThen fun s2 =>
  (deserializeBody s2).andThen fun s3 =>
  decodeBody s3

/-- DECOMPRESS (R145). -/
def execDecompress (s : State) : Host.Outcome State Fault Refusal := runCommand decompressBody s

end Sys2Proof.Machine
end

