-- ==== Sys2Proof/Machine/HostBus.lean ====
section
/-!
DEFINITION. The host register bus and the host's actions: the register map of R23, `MemRead` and `MemWrite` (R58, R59), LOAD,
TAKE and reset (R180), and the pseudo-operations of host programs (R77, R78).
-/

namespace Sys2Proof.Machine

/-- The registers of the map (R23). -/
inductive Reg where
  | id
  | cmd
  | status
  | errCode
  | errInfo
  | ctrl
  | intEn
  | inPosLo
  | inPosHi
  | inLenLo
  | inLenHi
  | outLenLo
  | outLenHi
  | nodeCount
  | root
  | magic
  | lastMagic
  | countTotal
  | freq (sym : Nat)
  | freqEof
  | nodeA (i : Nat)
  | nodeW (i : Nat)
  | codeLen (sym : Nat)
  | codeBits (sym w : Nat)
  deriving DecidableEq, Repr

/-- The byte address of the word that an access reaches: bits 15..2 of its address (R58). -/
def wordAddress (a : Nat) : Nat := a % 2 ^ 16 / 4 * 4

/-- The control and status registers, `0x0000` to `0x0048` (R23). -/
def controlRegs : List (Nat × Reg) :=
  [(0x0000, .id), (0x0004, .cmd), (0x0008, .status), (0x000C, .errCode), (0x0010, .errInfo), (0x0014, .ctrl),
   (0x0018, .intEn), (0x0020, .inPosLo), (0x0024, .inPosHi), (0x0028, .inLenLo), (0x002C, .inLenHi),
   (0x0030, .outLenLo), (0x0034, .outLenHi), (0x0038, .nodeCount), (0x003C, .root), (0x0040, .magic),
   (0x0044, .lastMagic), (0x0048, .countTotal)]

/-- The register at a word address of the code window (R44): `off` bytes into the 64 of symbol `sym`. -/
def codeWindowReg (sym off : Nat) : Option Reg :=
  if off = 0 then some (.codeLen sym)
  else if off < 0x24 then some (.codeBits sym ((off - 4) / 4))
  else none

/-- The register that the word at address `w` names, if any (R23). `w` is a multiple of 4 below 2^16. -/
def regAtWord (w : Nat) : Option Reg :=
  if w < 0x0400 then (controlRegs.find? (fun row => row.1 == w)).map (·.2)
  else if w < 0x0800 then some (.freq ((w - 0x0400) / 4))
  else if w = 0x0800 then some .freqEof
  else if w < 0x1000 then none
  else if w < 0x1000 + 8 * 513 then
    if (w - 0x1000) % 8 = 0 then some (.nodeA ((w - 0x1000) / 8)) else some (.nodeW ((w - 0x1000) / 8))
  else if w < 0x4000 then none
  else if w < 0x4000 + 64 * 257 then codeWindowReg ((w - 0x4000) / 64) ((w - 0x4000) % 64)
  else none

/-- The register a host access at byte address `a` reaches (R58). -/
def regOf (a : Nat) : Option Reg := regAtWord (wordAddress a)

/-- NODE_A[i] (R42): bits [9:0] LEFT, [19:10] RIGHT, [28:20] SYMBOL, [30:29] 0, [31] IS_LEAF. -/
def nodeAWord (n : Node) : Word :=
  (BitVec.ofBool n.isLeaf ++ 0#2 ++ n.symbol ++ n.right ++ n.left : BitVec (1 + 2 + 9 + 10 + 10))

/-- CODE_LEN[s] (R44): bits [8:0] LEN, [30:9] 0, [31] VALID. -/
def codeLenWord (c : Code) : Word := (BitVec.ofBool c.valid ++ 0#22 ++ c.len : BitVec (1 + 22 + 9))

/-- The node window reads 0 beyond the entries in use (R42). -/
def nodeWindow (s : State) (i : Nat) (word : Node → Word) : Word :=
  if i < s.nodeCount.toNat then ((nodeAt s i).map word).getD 0#32 else 0#32

/-- The code window reads 0 while TABLE_VALID = 0 (R44). -/
def codeWindow (s : State) (sym : Nat) (word : Code → Word) : Word :=
  if s.tableValid then word (codeAt s sym) else 0#32

/-- What a register reads (R24 to R44). -/
def readReg (s : State) : Reg → Word
  | .id => Config.idValue
  | .cmd => 0#32
  | .status => statusWord s
  | .errCode => errCodeWord s
  | .errInfo => s.errInfo
  | .ctrl => 0#32
  | .intEn => intEnWord s
  | .inPosLo => s.inPos.extractLsb' 0 32
  | .inPosHi => s.inPos.extractLsb' 32 32
  | .inLenLo => (portLength s.inBits.length).extractLsb' 0 32
  | .inLenHi => (portLength s.inBits.length).extractLsb' 32 32
  | .outLenLo => (portLength s.outBits.length).extractLsb' 0 32
  | .outLenHi => (portLength s.outBits.length).extractLsb' 32 32
  | .nodeCount => s.nodeCount.setWidth 32
  | .root => s.root.setWidth 32
  | .magic => Config.magic
  | .lastMagic => s.lastMagic
  | .countTotal => s.countTotal
  | .freq sym => freqAt s sym
  | .freqEof => freqAt s Config.eofSym
  | .nodeA i => nodeWindow s i nodeAWord
  | .nodeW i => nodeWindow s i (·.weight)
  | .codeLen sym => codeWindow s sym codeLenWord
  | .codeBits sym w => codeWindow s sym fun c => c.val.extractLsb' (32 * w) 32

/-- What a host read at an address finds while BUSY = 0: 0 where no register is (R59). -/
def readAddr (a : Nat) (s : State) : Word :=
  match regOf a with
  | some r => readReg s r
  | none => 0#32

/-- `MemRead(a, 4)` (R58, R62). While BUSY = 1 only STATUS has a specified value (R195). -/
def memRead (a : Nat) (s : State) : State :=
  if s.busy && regOf a ≠ some .status then
    { s with reply := .word (Config.busyRead s.freeCount), freeCount := s.freeCount + 1 }
  else { s with reply := .word (readAddr a s) }

/-- A write of word `w` to CMD (R25, R160): the command it stands for, or ILLEGAL_COMMAND. -/
def issueWord (w : Word) (s : State) : Host.Outcome State Fault Refusal :=
  match decode w with
  | .ok i => exec i s
  | .error _ => .next (illegalCommand w s)

/-- A write of bit 0 = 1 to CTRL is a soft reset, and no other write to CTRL does anything (R29, R190). -/
def writeCtrl (v : Word) (s : State) : State := if v.getLsbD 0 then resetBlock s else s

/-- What a host write does to a register (R24 to R44): the registers and windows not named here are read-only. -/
def writeReg (r : Reg) (v : Word) (s : State) : Host.Outcome State Fault Refusal :=
  match r with
  | .cmd => issueWord v s
  | .status => .next (acknowledge v s)
  | .ctrl => .next (writeCtrl v s)
  | .intEn => .next (writeIntEn v s)
  | .freq sym => .next (setFreq sym v s)
  | .id | .errCode | .errInfo | .inPosLo | .inPosHi | .inLenLo | .inLenHi | .outLenLo | .outLenHi | .nodeCount | .root
  | .magic | .lastMagic | .countTotal | .freqEof | .nodeA _ | .nodeW _ | .codeLen _ | .codeBits _ _ => .next s

/-- `MemWrite(a, 4, v)` (R58, R59). While BUSY = 1 every write but a soft reset is ignored (R195, R196). -/
def memWrite (a : Nat) (v : Word) (s : State) : Host.Outcome State Fault Refusal :=
  match regOf a with
  | some r => if s.busy && r ≠ .ctrl then .next s else writeReg r v s
  | none => .next s

/-- `LOAD(bits)` (R180): `IN <- bits`, `IN_POS <- 0`. -/
def loadIn (bits : Bits) (s : State) : Host.Outcome State Fault Refusal :=
  if s.busy then .fault .portActionWhileBusy
  else if (HostAction.load bits).wellFormed then .next { s with inBits := bits, inPos := 0#64 }
  else .refused .inputTooLong

/-- `TAKE()` (R180): returns OUT, `OUT <- []`. -/
def takeOut (s : State) : Host.Outcome State Fault Refusal :=
  if s.busy then .fault .portActionWhileBusy else .next { s with reply := .bits s.outBits, outBits := [] }

/-- One action of the host (R180). -/
def hostAction (a : HostAction) (s : State) : Host.Outcome State Fault Refusal :=
  match a with
  | .memRead addr => .next (memRead addr s)
  | .memWrite addr v => memWrite addr v s
  | .load bits => loadIn bits s
  | .take => takeOut s
  | .reset => .next (resetBlock s)

/-- The next pending action is taken from the host's list, and what the last one returned is forgotten. -/
def popAction (rest : List HostAction) (s : State) : State := { s with host := rest, reply := .nothing }

/-! ## Host programs -/

/-- `<MNEMONIC>`: `WR 0x0004, 0x000000OP` (R77, R78). -/
def issue (i : Instr) : HostAction := .memWrite 0x0004 (encode i)

/-- `WAIT`: in the model one read of STATUS suffices (R78). -/
def wait : HostAction := .memRead 0x0008

/-- `ACK`: `WR 0x0008, 0x00000006` (R78). -/
def ack : HostAction := .memWrite 0x0008 0x00000006#32

/-- `SETFREQ s, v`: `WR 0x0400 + 4·s, v` (R78). -/
def setFreqAction (sym : Nat) (v : Word) : HostAction := .memWrite (0x0400 + 4 * sym) v

/-- `RDCODE s` (R78). -/
def readCodeActions (sym : Nat) : List HostAction :=
  .memRead (0x4000 + 64 * sym) :: (List.range 8).map fun w => .memRead (0x4004 + 64 * sym + 4 * w)

/-- `RDNODE i` (R78). -/
def readNodeActions (i : Nat) : List HostAction := [.memRead (0x1000 + 8 * i), .memRead (0x1004 + 8 * i)]

/-- `LOAD <bytes>` (R77, R53). -/
def loadBytes (bytes : List Byte) : HostAction := .load (bytesToBits bytes)

end Sys2Proof.Machine
end

