-- ==== Sys2Proof/Machine/Step.lean ====
section
/-!
DEFINITION. One step of the machine: the host's next action takes effect (R65, R180). There is no program counter and no fetch
(R22): a command runs because the host writes its word to CMD.
-/

namespace Sys2Proof.Machine

/-- The host's next action. While the host does nothing the block is idle, and nothing changes (R179, R193). -/
def step (s : State) : Host.Outcome State Fault Refusal :=
  match s.host with
  | [] => .next s
  | a :: rest => hostAction a (popAction rest s)

/-- The state in which the very next step issues the word whose `nbits` bits are `w`: the host's next action is the CMD write
of it (R25, R77). -/
def State.withFetchWord (s : State) (nbits w : Nat) : State :=
  { s with host := .memWrite 0x0004 (BitVec.ofNat 32 (w % 2 ^ nbits)) :: s.host }

end Sys2Proof.Machine
end

