-- ==== Sys2Proof/Safety.lean ====
section
/-!
DEFINITION. The terms that claims are stated in: the tree that the node memory holds and what R48 asks of it, the code table that
R49 asks for, the invariant of every state that a run reaches, and when a run succeeds (R181).
-/

namespace Sys2Proof.Machine

/-- A strict binary tree over the node memory (R13, R48): each node with its index there, a leaf with its symbol. -/
inductive CodeTree where
  | leaf (index sym : Nat)
  | node (index : Nat) (l r : CodeTree)
  deriving DecidableEq, Repr

/-- The index of a tree's root. -/
def CodeTree.index : CodeTree → Nat
  | .leaf i _ => i
  | .node i _ _ => i

/-- The indices of a tree's nodes in preorder (R13). -/
def CodeTree.indices : CodeTree → List Nat
  | .leaf i _ => [i]
  | .node i l r => i :: (l.indices ++ r.indices)

/-- The leaves from left to right: each symbol with its path from the root, 0 = left, 1 = right (R121). -/
def CodeTree.leaves : CodeTree → List (Nat × Bits)
  | .leaf _ sym => [(sym, [])]
  | .node _ l r => l.leaves.map (fun p => (p.1, false :: p.2)) ++ r.leaves.map (fun p => (p.1, true :: p.2))

/-- The leaves' symbols from left to right. -/
def CodeTree.symbols (t : CodeTree) : List Nat := t.leaves.map (·.1)

/-- The header of a tree by the grammar of R102. -/
def CodeTree.header : CodeTree → Bits
  | .leaf _ sym => true :: spell Config.symW sym
  | .node _ l r => false :: (l.header ++ r.header)

/-- The same tree with its nodes numbered in preorder from `i` (R105). -/
def CodeTree.preorder (i : Nat) : CodeTree → CodeTree
  | .leaf _ sym => .leaf i sym
  | .node _ l r => .node i (l.preorder (i + 1)) (r.preorder (i + 1 + l.indices.length))

/-- The path of a symbol's leaf, if the tree has one. -/
def CodeTree.path (t : CodeTree) (sym : Nat) : Option Bits := t.leaves.lookup sym

/-- The weight of a tree under the leaf weights `w`: a leaf's own, or the sum of the children's (R94). -/
def CodeTree.weight (w : Nat → Nat) : CodeTree → Nat
  | .leaf _ sym => w sym
  | .node _ l r => l.weight w + r.weight w

/-- The weighted path length (R13) under the leaf weights `w`. -/
def CodeTree.pathLength (t : CodeTree) (w : Nat → Nat) : Nat := (t.leaves.map fun p => w p.1 * p.2.length).sum

/-- The tree found by following LEFT and RIGHT from node `i` (R48), where it is no deeper than `depth` nodes. -/
def readTree (s : State) : Nat → Nat → Option CodeTree
  | 0, _ => none
  | depth + 1, i =>
    match nodeAt s i with
    | none => none
    | some n =>
      if n.isLeaf then some (.leaf i n.symbol.toNat)
      else
        match readTree s depth n.left.toNat, readTree s depth n.right.toNat with
        | some l, some r => some (.node i l r)
        | _, _ => none

/-- The node memory holds the tree `t` at the indices it names, field by field as R41 has them, with the weights `w`. -/
def Stores (s : State) (w : CodeTree → Word) : CodeTree → Prop
  | .leaf i sym => nodeAt s i = some (leafNode sym (w (.leaf i sym)))
  | .node i l r =>
    nodeAt s i = some (innerNode l.index r.index (w (.node i l r))) ∧ Stores s w l ∧ Stores s w r

/-- A header that is broken off in front of a node: at the node the header begins with, inside the left subtree of that node,
or, behind a whole left subtree, inside the right one. -/
inductive OpenHeader where
  | here
  | left (o : OpenHeader)
  | right (l : CodeTree) (o : OpenHeader)
  deriving DecidableEq, Repr

/-- The bits in front of the break (R102). -/
def OpenHeader.bits : OpenHeader → Bits
  | .here => []
  | .left o => false :: o.bits
  | .right l o => false :: (l.header ++ o.bits)

/-- The number of whole nodes in front of the break. -/
def OpenHeader.nodes : OpenHeader → Nat
  | .here => 0
  | .left o => 1 + o.nodes
  | .right l o => 1 + l.indices.length + o.nodes

/-- The symbols of the leaves in front of the break, in the order of the header. -/
def OpenHeader.symbols : OpenHeader → List Nat
  | .here => []
  | .left o => o.symbols
  | .right l o => l.symbols ++ o.symbols

/-- The node memory holds the nodes in front of the break from index `i` on; a child that was not read is 0 (R104). -/
def OpenStores (s : State) : Nat → OpenHeader → Prop
  | _, .here => True
  | i, .left o => nodeAt s i = some (innerNode 0 0 0#32) ∧ OpenStores s (i + 1) o
  | i, .right l o =>
    nodeAt s i = some (innerNode (i + 1) 0 0#32) ∧ Stores s (fun _ => 0#32) (l.preorder (i + 1)) ∧
      OpenStores s (i + 1 + l.indices.length) o

/-- The node memory holds the tree `t` at ROOT and R48 holds of it: every entry in use is reached exactly once, no two leaves
have the same symbol, and every symbol is in 0..256. -/
abbrev TreeIs (s : State) (t : CodeTree) : Prop :=
  readTree s Config.nodeCap s.root.toNat = some t ∧ t.indices.Perm (List.range s.nodeCount.toNat) ∧
    t.symbols.Nodup ∧ ∀ sym ∈ t.symbols, sym ≤ Config.eofSym

/-- The code table entry of a symbol: its path in the tree (R43, R49, R121). -/
def codeOf (t : CodeTree) (sym : Nat) : Code :=
  match t.path sym with
  | some p => ⟨true, BitVec.ofNat 9 p.length, BitVec.ofNat 256 (bitsValue p)⟩
  | none => Code.none

/-- The code table is that of the tree `t` (R49). -/
abbrev TableIs (s : State) (t : CodeTree) : Prop := ∀ sym < Config.nsym, codeAt s sym = codeOf t sym

/-! ## What BUILD is asked for -/

/-- `FREQ[sym]`, as a number. -/
def countOf (s : State) (sym : Nat) : Nat := (freqAt s sym).toNat

/-- The symbols that get a leaf, in ascending order (R92). -/
def usedSymbols (s : State) : List Nat := (List.range Config.nsym).filter fun sym => freqAt s sym != 0#32

/-- The sum of `FREQ[0..256]` (R94). -/
def totalCount (s : State) : Nat := ((List.range Config.nsym).map (countOf s)).sum

/-- `(WEIGHT, index)` of `i` is lexicographically at most that of `j` (R91). -/
def KeyLe (s : State) (i j : Nat) : Prop := weightAt s i < weightAt s j ∨ (weightAt s i = weightAt s j ∧ i ≤ j)

/-- Node `k` is internal and `j` is a child of it. -/
def childOf (s : State) (k j : Nat) : Bool :=
  match nodeAt s k with
  | some n => !n.isLeaf && (n.left.toNat == j || n.right.toNat == j)
  | none => false

/-- Node `j` was in the collection Q when node `i` was about to be made: it was there, and no node made before `i` had taken it
as a child (R90). -/
def inQ (s : State) (i j : Nat) : Bool := decide (j < i) && (List.range i).all fun k => !childOf s k j

/-- `a` and `b` are the two nodes of least key that Q held when node `i` was about to be made, in that order (R90, R91). -/
def TwoLeast (s : State) (i a b : Nat) : Prop :=
  inQ s i a = true ∧ inQ s i b = true ∧ a ≠ b ∧
    ∀ j, inQ s i j = true → KeyLe s a j ∧ (j ≠ a → KeyLe s b j)

/-- Node `i` is the merge of the two nodes of least key that Q held when it was made: the least is its LEFT child, the next its
RIGHT child, its weight is the sum of theirs (R90, R91, R93, R94). -/
def MergedAt (s : State) (i : Nat) : Prop :=
  ∃ a b, TwoLeast s i a b ∧ weightAt s a + weightAt s b ≤ Config.weightMax ∧
    nodeAt s i = some (innerNode a b (BitVec.ofNat 32 (weightAt s a + weightAt s b)))

/-! ## What the streams hold -/

/-- The codes that the code table gives the bytes listed, one after the other (R79, R123). -/
def codesOf (s : State) (bs : List Byte) : Bits := bs.flatMap fun b => (codeAt s b.toNat).bits

/-- The paths of the bytes listed, one after the other: the code bits of a stream (R79). -/
def pathsOf (t : CodeTree) (bs : List Byte) : Bits := bs.flatMap fun b => (t.path b.toNat).getD []

/-- The counts of the bytes listed, as FREQ holds them (R84). -/
def countsOf (bs : List Byte) : Vector Word 256 := Vector.ofFn fun i => BitVec.ofNat 32 (bs.count (BitVec.ofNat 8 i))

/-- The code table of a tree (R49). -/
def tableOf (t : CodeTree) : Vector Code 257 := Vector.ofFn fun sym => codeOf t sym

/-- The marker as it stands at the head of a compressed stream (R60, R79). -/
def magicBits : Bits := spell Config.magicW Config.magic.toNat

/-! ## The ports and the lifecycle -/

/-- The bits of IN still to be read, from IN_POS on (R51). -/
def remaining (s : State) : Bits := s.inBits.drop s.inPos.toNat

/-- The ports are within their widths and the cursor within IN (R51, R32). -/
abbrev PortOk (s : State) : Prop := s.inBits.length < Config.portLimit ∧ s.inPos.toNat ≤ s.inBits.length

/-- A command that is issued now starts (R160). -/
abbrev Ready (s : State) : Prop := s.busy = false ∧ s.err = false

/-- The error codes that are ever in ERR_CODE.CODE (R163, U8). -/
def writtenErrCodes : List (BitVec 8) :=
  [0x00#8, 0x01#8, 0x02#8, 0x03#8, 0x04#8, 0x05#8, 0x10#8, 0x11#8, 0x12#8, 0x13#8, 0x14#8, 0x15#8]

/-- What holds of every state between two host actions. -/
structure Inv (s : State) : Prop where
  /-- every host-observable state has BUSY = 0 (R26) -/
  idle : s.busy = false
  /-- DONE and ERR are never both set (R171) -/
  doneOrErr : ¬ (s.done = true ∧ s.err = true)
  /-- DONE = 1 goes with ERR_CODE = 0 and ERR_INFO = 0 (R161) -/
  doneClean : s.done = true → s.errCode = 0#8 ∧ s.errDetail = 0#8 ∧ s.errStep = 0#8 ∧ s.errInfo = 0#32
  /-- only the codes of R163 are written -/
  codes : s.errCode ∈ writtenErrCodes
  /-- 0 <= IN_POS <= |IN| < 2^64 (R51) -/
  port : PortOk s
  /-- NODE_COUNT is at most 513 (R34) -/
  nodeCount : s.nodeCount.toNat ≤ Config.nodeCap
  /-- COUNT_TOTAL is at most COUNT_MAX (R38) -/
  countTotal : s.countTotal.toNat ≤ Config.countMax
  /-- TREE_VALID = 1 goes with a tree as R48 has it -/
  tree : s.treeValid = true → ∃ t, TreeIs s t
  /-- TABLE_VALID = 1 goes with TREE_VALID = 1 and the codes of the tree (R49) -/
  table : s.tableValid = true → s.treeValid = true ∧ ∃ t, TreeIs s t ∧ TableIs s t

/-- The errors that each command may raise: code, DETAIL and STEP (R163, R164). -/
def errorsOf : Instr → List (BitVec 8 × BitVec 8 × BitVec 8)
  | .nop | .clear | .writeMagic | .rewindIn | .flushOut => []
  | .count => [(0x01#8, 0#8, 0x02#8), (0x13#8, 0#8, 0x02#8)]
  | .build => [(0x14#8, 0#8, 0x03#8)]
  | .genTable => [(0x11#8, 0#8, 0x04#8)]
  | .serialize => [(0x11#8, 0#8, 0x06#8)]
  | .encode => [(0x12#8, 0#8, 0x07#8), (0x04#8, 0#8, 0x07#8), (0x01#8, 0#8, 0x07#8)]
  | .checkMagic => [(0x02#8, 1#8, 0x08#8), (0x02#8, 2#8, 0x08#8)]
  | .deserialize => [(0x05#8, 1#8, 0x09#8), (0x05#8, 2#8, 0x09#8), (0x05#8, 3#8, 0x09#8), (0x05#8, 4#8, 0x09#8)]
  | .decode => [(0x11#8, 0#8, 0x0A#8), (0x15#8, 0#8, 0x0A#8), (0x03#8, 0#8, 0x0A#8)]
  | .compress => [(0x01#8, 0#8, 0x02#8), (0x13#8, 0#8, 0x02#8)]
  | .decompress =>
    [(0x02#8, 1#8, 0x08#8), (0x02#8, 2#8, 0x08#8), (0x05#8, 1#8, 0x09#8), (0x05#8, 2#8, 0x09#8), (0x05#8, 3#8, 0x09#8),
     (0x05#8, 4#8, 0x09#8), (0x15#8, 0#8, 0x0A#8), (0x03#8, 0#8, 0x0A#8)]

/-- The commands listed, issued one after the other (R65). -/
def execSeq : List Instr → State → Host.Outcome State Fault Refusal
  | [], s => .next s
  | i :: is, s =>
    match exec i s with
    | .next t => execSeq is t
    | .fault f => .fault f
    | .refused r => .refused r

/-- The host's next actions, so many of them (R65, R180). -/
def runActions : Nat → State → Host.Outcome State Fault Refusal
  | 0, s => .next s
  | k + 1, s =>
    match step s with
    | .next t => runActions k t
    | .fault f => .fault f
    | .refused r => .refused r

/-- An action by which the host issues a command: a write of CMD (R25, R160). -/
def issuesCommand : HostAction → Bool
  | .memWrite addr _ => regOf addr == some .cmd
  | .memRead _ | .load _ | .take | .reset => false

/-- Whether the last command that the host's next actions issue, so many of them, set DONE (R161, R181). `last` is the answer
for the actions before them. A later action that clears DONE does not change it, and a refused command sets nothing (R165). -/
def lastCommandSetDone : Nat → Bool → State → Bool
  | 0, last, _ => last
  | k + 1, last, s =>
    match s.host, step s with
    | a :: _, .next t => lastCommandSetDone k (if issuesCommand a then !ignoresCommands s && t.done else last) t
    | _, _ => last

/-- The run of the block for the host program that is pending: it ends when the last action has taken effect (R181). -/
def runProgram (s : State) : Host.Outcome State Fault Refusal := runActions s.host.length s

/-- The run for the pending host program succeeds: at its end ERR = 0, and the last command it issued set DONE (R181). -/
def runSucceeds (s : State) : Bool :=
  match runProgram s with
  | .next t => !t.err && lastCommandSetDone s.host.length false s
  | .fault _ | .refused _ => false

/-- `s` with the status bits BUSY, DONE, ERR and the error registers of `t`: what every command may write (R160 to R162). -/
def withStatusOf (t s : State) : State :=
  { s with
    busy := t.busy, done := t.done, err := t.err
    errCode := t.errCode, errDetail := t.errDetail, errStep := t.errStep, errInfo := t.errInfo }

/-- `s` as a command leaves it that completes and changes nothing else: DONE = 1, ERR_CODE = 0, ERR_INFO = 0 (R160, R161). -/
def completed (s : State) : State :=
  { s with
    busy := false, done := true
    errCode := 0#8, errDetail := 0#8, errStep := 0#8, errInfo := 0#32 }

/-- `s` as a command leaves it that raises the error with these register values and changes nothing else (R162). -/
def aborted (code detail step : BitVec 8) (info : Nat) (s : State) : State :=
  { s with
    busy := false, done := false, err := true
    errCode := code, errDetail := detail, errStep := step, errInfo := BitVec.ofNat 32 info }

end Sys2Proof.Machine
end

