-- ==== Sys2Proof/Certificates/Slice0/Obligations.lean ====
section
/-!
DEFINITION. The statements for the provers, in the order of OBLIGATIONS.json.
-/

open Sys2Proof Sys2Proof.Machine

/-! ## Command words -/

/-- R73: the fifteen command words. -/
def Obligations.CommandWordsDecode : Prop :=
  decode 0x00000000#32 = .ok .nop ∧ decode 0x00000001#32 = .ok .clear ∧ decode 0x00000002#32 = .ok .count ∧
  decode 0x00000003#32 = .ok .build ∧ decode 0x00000004#32 = .ok .genTable ∧ decode 0x00000005#32 = .ok .writeMagic ∧
  decode 0x00000006#32 = .ok .serialize ∧ decode 0x00000007#32 = .ok .encode ∧ decode 0x00000008#32 = .ok .checkMagic ∧
  decode 0x00000009#32 = .ok .deserialize ∧ decode 0x0000000A#32 = .ok .decode ∧ decode 0x0000000B#32 = .ok .rewindIn ∧
  decode 0x0000000C#32 = .ok .flushOut ∧ decode 0x00000010#32 = .ok .compress ∧ decode 0x00000011#32 = .ok .decompress

/-- R71, R74: a word is a command exactly when bits [31:8] are 0 and bits [7:0] are one of the fifteen opcodes. A CMD write of
any other word raises ILLEGAL_COMMAND with ERR_INFO the word, and STEP its bits [7:0] (R27). -/
def Obligations.OnlyTheseWordsAreCommands : Prop :=
  (∀ w : Word, (∃ i, decode w = .ok i) ↔
    w.toNat / 256 = 0 ∧
      w.toNat % 256 ∈ [0x00, 0x01, 0x02, 0x03, 0x04, 0x05, 0x06, 0x07, 0x08, 0x09, 0x0A, 0x0B, 0x0C, 0x10, 0x11]) ∧
  (∀ (s : State) (a : Nat) (w : Word) (rest : List HostAction), Ready s → s.host = .memWrite a w :: rest →
    a % 65536 / 4 = 1 →
    (w.toNat / 256 ≠ 0 ∨ (0x0D ≤ w.toNat % 256 ∧ w.toNat % 256 ≤ 0x0F) ∨ 0x12 ≤ w.toNat % 256) →
    step s = .next (aborted 0x10#8 0#8 (w.setWidth 8) w.toNat (popAction rest s)))

/-- Decoding undoes encoding for every command, and a word that decodes is the encoding of what it decodes to. -/
def Obligations.DecodeInvertsEncode : Prop :=
  (∀ i : Instr, i.wellFormed = true → decode (encode i) = .ok i) ∧
  (∀ (w : Word) (i : Instr), decode w = .ok i → encode i = w)

/-! ## A step, and the host bus -/

/-- A step carries out the host's next action, whatever its address is modulo 2^16 and 4. When that is a CMD write of a word
that decodes to `i`, the step is `exec i` at the state with the action taken from the list. `withFetchWord` puts such a write
in front of the list. With no action pending nothing changes (log entry 1, the model's choice). -/
def Obligations.StepIssuesTheDecodedCommand : Prop :=
  (∀ (s : State) (a : Nat) (w : Word) (rest : List HostAction) (i : Instr), s.host = .memWrite a w :: rest →
    a % 65536 / 4 = 1 → decode w = .ok i → step s = exec i (popAction rest s)) ∧
  (∀ (s : State) (nbits w : Nat),
    s.withFetchWord nbits w = { s with host := .memWrite 0x0004 (BitVec.ofNat 32 (w % 2 ^ nbits)) :: s.host }) ∧
  (∀ (s : State) (a : HostAction) (rest : List HostAction), s.host = a :: rest →
    step s = hostAction a (popAction rest s)) ∧
  (∀ s : State, s.host = [] → step s = .next s)

/-- R165: while ERR = 1 a CMD write changes nothing, and every other action of the host has its effect. -/
def Obligations.StickyErrorRefusesCommands : Prop :=
  ∀ (s : State) (rest : List HostAction), s.busy = false → s.err = true →
    (∀ a w, a % 65536 / 4 = 1 → s.host = .memWrite a w :: rest → step s = .next (popAction rest s)) ∧
    (∀ a, s.host = .memRead a :: rest → step s = .next { popAction rest s with reply := .word (readAddr a s) }) ∧
    (∀ sym v, sym < 256 → s.host = .memWrite (0x0400 + 4 * sym) v :: rest →
      step s = .next { popAction rest s with freq := s.freq.setIfInBounds sym v }) ∧
    (∀ v, s.host = .memWrite 0x0018 v :: rest →
      step s = .next { popAction rest s with doneIE := v.getLsbD 0, errIE := v.getLsbD 1 }) ∧
    (∀ v, s.host = .memWrite 0x0008 v :: rest →
      step s = .next { popAction rest s with done := s.done && !v.getLsbD 1, err := !v.getLsbD 2 }) ∧
    (∀ v, v.getLsbD 0 = true → s.host = .memWrite 0x0014 v :: rest →
      ∃ t, step s = .next t ∧ t.err = false ∧ t.done = false ∧ t.host = rest) ∧
    (∀ bits : Bits, bits.length < 2 ^ 64 → s.host = .load bits :: rest →
      step s = .next { popAction rest s with inBits := bits, inPos := 0#64 }) ∧
    (s.host = .take :: rest → step s = .next { popAction rest s with reply := .bits s.outBits, outBits := [] })

/-- R196, R195: while BUSY = 1 a CMD write is ignored, and so is every write but one of CTRL; a read of STATUS answers STATUS,
and any other read answers some word and changes nothing else but the model's counter of such reads. -/
def Obligations.BusyBlockIgnoresWrites : Prop :=
  ∀ (s : State) (rest : List HostAction), s.busy = true →
    (∀ a w, a % 65536 / 4 ≠ 5 → s.host = .memWrite a w :: rest → step s = .next (popAction rest s)) ∧
    (∀ v, v.getLsbD 0 = true → s.host = .memWrite 0x0014 v :: rest → ∃ t, step s = .next t ∧ t.busy = false) ∧
    (s.host = .memRead 0x0008 :: rest → step s = .next { popAction rest s with reply := .word (statusWord s) }) ∧
    (∀ a, s.host = .memRead a :: rest →
      ∃ v n, step s = .next { popAction rest s with reply := .word v, freeCount := n })

/-- R24 and the other control registers: what each reads, that a read answers it and changes nothing, and that a write to one of
the read-only ones changes nothing (R23). -/
def Obligations.ControlRegistersRead : Prop :=
  ∀ s : State, s.inBits.length < 2 ^ 64 → s.outBits.length < 2 ^ 64 →
    readAddr 0x0000 s = 0x48554631#32 ∧ readAddr 0x0004 s = 0#32 ∧ readAddr 0x0008 s = statusWord s ∧
    readAddr 0x000C s = errCodeWord s ∧ readAddr 0x0010 s = s.errInfo ∧ readAddr 0x0014 s = 0#32 ∧
    readAddr 0x0018 s = intEnWord s ∧
    readAddr 0x0020 s = BitVec.ofNat 32 s.inPos.toNat ∧ readAddr 0x0024 s = BitVec.ofNat 32 (s.inPos.toNat / 2 ^ 32) ∧
    readAddr 0x0028 s = BitVec.ofNat 32 s.inBits.length ∧
    readAddr 0x002C s = BitVec.ofNat 32 (s.inBits.length / 2 ^ 32) ∧
    readAddr 0x0030 s = BitVec.ofNat 32 s.outBits.length ∧
    readAddr 0x0034 s = BitVec.ofNat 32 (s.outBits.length / 2 ^ 32) ∧
    readAddr 0x0038 s = BitVec.ofNat 32 s.nodeCount.toNat ∧ readAddr 0x003C s = BitVec.ofNat 32 s.root.toNat ∧
    readAddr 0x0040 s = 0xFACE8201#32 ∧ readAddr 0x0044 s = s.lastMagic ∧ readAddr 0x0048 s = s.countTotal ∧
    (∀ a rest, s.busy = false → s.host = .memRead a :: rest →
      step s = .next { popAction rest s with reply := .word (readAddr a s) }) ∧
    (∀ a v rest, a % 65536 / 4 ∈ [0, 3, 4, 8, 9, 10, 11, 12, 13, 14, 15, 16, 17, 18] → s.host = .memWrite a v :: rest →
      step s = .next (popAction rest s))

/-- R169, and the fields of STATUS (R26) and ERR_CODE (R27). -/
def Obligations.StatusAndErrorWords : Prop :=
  ∀ s : State,
    irq s = ((s.done && s.doneIE) || (s.err && s.errIE)) ∧
    (statusWord s).getLsbD 0 = s.busy ∧ (statusWord s).getLsbD 1 = s.done ∧ (statusWord s).getLsbD 2 = s.err ∧
    (statusWord s).getLsbD 3 = s.treeValid ∧ (statusWord s).getLsbD 4 = s.tableValid ∧ (statusWord s).getLsbD 5 = irq s ∧
    (statusWord s).extractLsb' 6 26 = 0#26 ∧
    (errCodeWord s).extractLsb' 0 8 = s.errCode ∧ (errCodeWord s).extractLsb' 8 8 = s.errDetail ∧
    (errCodeWord s).extractLsb' 16 8 = s.errStep ∧ (errCodeWord s).extractLsb' 24 8 = 0#8

/-- R166: a STATUS write with bit 2 = 1 clears ERR and restores nothing else. ERR_CODE and ERR_INFO keep their values through
every action of the host that is neither a CMD or CTRL write nor a reset. Either reset clears ERR too. -/
def Obligations.StatusWriteAcknowledges : Prop :=
  (∀ (s : State) (v : Word) (rest : List HostAction), s.busy = false → s.host = .memWrite 0x0008 v :: rest →
    step s = .next { popAction rest s with done := s.done && !v.getLsbD 1, err := s.err && !v.getLsbD 2 }) ∧
  (∀ (s t : State) (a : HostAction) (rest : List HostAction), s.host = a :: rest → a ≠ .reset →
    (∀ addr v, a = .memWrite addr v → addr % 65536 / 4 ≠ 1 ∧ addr % 65536 / 4 ≠ 5) → step s = .next t →
    t.errCode = s.errCode ∧ t.errDetail = s.errDetail ∧ t.errStep = s.errStep ∧ t.errInfo = s.errInfo) ∧
  (∀ (s : State) (rest : List HostAction),
    (s.host = .reset :: rest ∨ ∃ v : Word, v.getLsbD 0 = true ∧ s.host = .memWrite 0x0014 v :: rest) →
    ∃ t, step s = .next t ∧ t.err = false)

/-- R30: INT_EN stores bits 0 and 1, reads them back with the reserved bits 0, and is 0 after reset. With a bit masked the
interrupt output follows the other source alone, and STATUS.DONE and STATUS.ERR keep their values (R170). -/
def Obligations.IntEnStoresTwoBits : Prop :=
  (∀ (s : State) (v : Word) (rest : List HostAction), s.busy = false → s.host = .memWrite 0x0018 v :: rest →
    ∃ t, step s = .next t ∧ t = { popAction rest s with doneIE := v.getLsbD 0, errIE := v.getLsbD 1 } ∧
      readAddr 0x0018 t = v &&& 0x00000003#32 ∧
      (v.getLsbD 0 = false → irq t = (s.err && v.getLsbD 1)) ∧ (v.getLsbD 1 = false → irq t = (s.done && v.getLsbD 0))) ∧
  State.reset.doneIE = false ∧ State.reset.errIE = false

/-- R40, R39: a host write stores any word in `FREQ[s]` for s ≤ 255 and changes no other entry; `FREQ[256]` is always 1 and
ignores writes. -/
def Obligations.FreqWindow : Prop :=
  (∀ (s : State) (sym : Nat) (v : Word) (rest : List HostAction), sym < 256 → s.busy = false →
    s.host = .memWrite (0x0400 + 4 * sym) v :: rest →
    ∃ t, step s = .next t ∧ t = { popAction rest s with freq := t.freq } ∧ readAddr (0x0400 + 4 * sym) t = v ∧
      freqAt t sym = v ∧
      ∀ j < 256, j ≠ sym → readAddr (0x0400 + 4 * j) t = readAddr (0x0400 + 4 * j) s) ∧
  (∀ s : State, readAddr 0x0800 s = 1#32 ∧ freqAt s 256 = 1#32 ∧
    ∀ v rest, s.host = .memWrite 0x0800 v :: rest → step s = .next (popAction rest s))

/-- R42: the node window. -/
def Obligations.NodeWindow : Prop :=
  ∀ (s : State) (i : Nat), i < 513 →
    (i < s.nodeCount.toNat → ∃ n, nodeAt s i = some n ∧
      (readAddr (0x1000 + 8 * i) s).extractLsb' 0 10 = n.left ∧ (readAddr (0x1000 + 8 * i) s).extractLsb' 10 10 = n.right ∧
      (readAddr (0x1000 + 8 * i) s).extractLsb' 20 9 = n.symbol ∧ (readAddr (0x1000 + 8 * i) s).extractLsb' 29 2 = 0#2 ∧
      (readAddr (0x1000 + 8 * i) s).getLsbD 31 = n.isLeaf ∧ readAddr (0x1004 + 8 * i) s = n.weight) ∧
    (s.nodeCount.toNat ≤ i → readAddr (0x1000 + 8 * i) s = 0#32 ∧ readAddr (0x1004 + 8 * i) s = 0#32) ∧
    (∀ v rest, s.host = .memWrite (0x1000 + 8 * i) v :: rest ∨ s.host = .memWrite (0x1004 + 8 * i) v :: rest →
      step s = .next (popAction rest s))

/-- R44: the code window. -/
def Obligations.CodeWindow : Prop :=
  ∀ (s : State) (sym : Nat), sym < 257 →
    (s.tableValid = true →
      (readAddr (0x4000 + 64 * sym) s).extractLsb' 0 9 = (codeAt s sym).len ∧
      (readAddr (0x4000 + 64 * sym) s).extractLsb' 9 22 = 0#22 ∧
      (readAddr (0x4000 + 64 * sym) s).getLsbD 31 = (codeAt s sym).valid ∧
      ∀ w < 8, readAddr (0x4004 + 64 * sym + 4 * w) s = (codeAt s sym).val.extractLsb' (32 * w) 32) ∧
    (∀ off, 0x24 ≤ off → off < 0x40 → readAddr (0x4000 + 64 * sym + off) s = 0#32) ∧
    (s.tableValid = false → ∀ off < 0x40, readAddr (0x4000 + 64 * sym + off) s = 0#32) ∧
    (∀ off < 0x40, ∀ v rest, s.host = .memWrite (0x4000 + 64 * sym + off) v :: rest → step s = .next (popAction rest s))

/-- R59: an address that names no register reads 0, and a write to it is ignored. -/
def Obligations.UnmappedAddresses : Prop :=
  ∀ (s : State) (a : Nat),
    (a % 65536 / 4 * 4 = 0x001C ∨ (0x004C ≤ a % 65536 ∧ a % 65536 < 0x0400) ∨ (0x0804 ≤ a % 65536 ∧ a % 65536 < 0x1000) ∨
      (0x2008 ≤ a % 65536 ∧ a % 65536 < 0x4000) ∨ 0x8040 ≤ a % 65536) →
    readAddr a s = 0#32 ∧ ∀ v rest, s.host = .memWrite a v :: rest → step s = .next (popAction rest s)

/-- R58: an access reaches the word at bits 15..2 of its address. A write changes something only at CMD, STATUS, CTRL, INT_EN and
`FREQ[0..255]`, and a read changes nothing but what the host is told (R62, R23). -/
def Obligations.HostBusAccesses : Prop :=
  (∀ a b : Nat, a % 65536 / 4 = b % 65536 / 4 → ∀ (s : State) (v : Word),
    readAddr a s = readAddr b s ∧ memRead a s = memRead b s ∧ memWrite a v s = memWrite b v s) ∧
  (∀ (s : State) (a : Nat) (v : Word) (rest : List HostAction), s.host = .memWrite a v :: rest →
    a % 65536 / 4 ∉ [1, 2, 5, 6] → ¬ (0x0400 ≤ a % 65536 ∧ a % 65536 < 0x0800) → step s = .next (popAction rest s)) ∧
  (∀ (s : State) (a : Nat) (rest : List HostAction), s.host = .memRead a :: rest → ∃ t, step s = .next t ∧
    t = { popAction rest s with reply := t.reply, freeCount := t.freeCount })

/-- R192: what every host address reads after a reset of any state. -/
def Obligations.ResetReads : Prop :=
  ∀ s : State, s.inBits.length < 2 ^ 64 → s.outBits.length < 2 ^ 64 →
    (resetBlock s).busy = false ∧ irq (resetBlock s) = false ∧
    ∀ a, readAddr a (resetBlock s) =
      if a % 65536 / 4 * 4 = 0x0000 then 0x48554631#32
      else if a % 65536 / 4 * 4 = 0x0028 then BitVec.ofNat 32 s.inBits.length
      else if a % 65536 / 4 * 4 = 0x002C then BitVec.ofNat 32 (s.inBits.length / 2 ^ 32)
      else if a % 65536 / 4 * 4 = 0x0030 then BitVec.ofNat 32 s.outBits.length
      else if a % 65536 / 4 * 4 = 0x0034 then BitVec.ofNat 32 (s.outBits.length / 2 ^ 32)
      else if a % 65536 / 4 * 4 = 0x0040 then 0xFACE8201#32
      else if a % 65536 / 4 * 4 = 0x0800 then 1#32
      else 0#32

/-- R190, R191: either reset sets every component of the block's state, leaves the ports' contents, and puts some unnamed
contents in NODE and CODE. A CTRL write with bit 0 = 0 has no effect (R29). The ports are empty at power-on. -/
def Obligations.ResetSetsTheBlock : Prop :=
  (∀ (s : State) (rest : List HostAction),
    (s.host = .reset :: rest ∨ ∃ v : Word, v.getLsbD 0 = true ∧ s.host = .memWrite 0x0014 v :: rest) →
    ∃ N C, step s = .next
      { busy := false, done := false, err := false, treeValid := false, tableValid := false
        errCode := 0#8, errDetail := 0#8, errStep := 0#8, errInfo := 0#32, doneIE := false, errIE := false
        inPos := 0#64, nodeCount := 0#10, root := 0#10, lastMagic := 0#32, countTotal := 0#32
        freq := Vector.replicate 256 0#32, nodes := N, codes := C, inBits := s.inBits, outBits := s.outBits
        host := rest, reply := .nothing, freeCount := s.freeCount }) ∧
  (∀ (s : State) (v : Word) (rest : List HostAction), v.getLsbD 0 = false → s.host = .memWrite 0x0014 v :: rest →
    step s = .next (popAction rest s)) ∧
  State.reset.inBits = [] ∧ State.reset.outBits = []

/-- LOAD and TAKE (R180). While BUSY = 1 they have no step (U4), and a LOAD of 2^64 bits or more is refused (U12; log entries 6
and 7, the model's choice of names). -/
def Obligations.PortActions : Prop :=
  ∀ (s : State) (rest : List HostAction),
    (∀ bits : Bits, s.host = .load bits :: rest →
      (s.busy = true → step s = .fault .portActionWhileBusy) ∧
      (s.busy = false → bits.length < 2 ^ 64 → step s = .next { popAction rest s with inBits := bits, inPos := 0#64 }) ∧
      (s.busy = false → 2 ^ 64 ≤ bits.length → step s = .refused .inputTooLong)) ∧
    (s.host = .take :: rest →
      (s.busy = true → step s = .fault .portActionWhileBusy) ∧
      (s.busy = false → step s = .next { popAction rest s with reply := .bits s.outBits, outBits := [] }))

/-- R53: bytes enter and leave a port most significant bit first. The spec marks this order as its own choice: "[from general
knowledge, not in source: ...]" (D22, log entry 15). -/
def Obligations.ByteFileBitOrder : Prop :=
  (∀ (bytes : List Byte), (bytesToBits bytes).length = 8 * bytes.length ∧
    ∀ (j : Nat) (h : j < bytes.length), ∀ k < 8, (bytesToBits bytes)[8 * j + k]? = some (bytes[j].getLsbD (7 - k))) ∧
  (∀ bits : Bits, bits.length % 8 = 0 → (bitsToBytes bits).length = bits.length / 8 ∧
    ∀ (j : Nat) (h : j < (bitsToBytes bits).length), (bitsToBytes bits)[j].toNat =
      ((List.range 8).map fun k => (bits[8 * j + k]?.getD false).toNat * 2 ^ (7 - k)).sum)

/-- IN changes only by the host's LOAD, and OUT only grows at its end, but for the host's TAKE, which empties it (R51, R52). -/
def Obligations.PortsHaveOneWriter : Prop :=
  ∀ s t : State, step s = .next t →
    (t.inBits = s.inBits ∨ ∃ bits rest, s.host = .load bits :: rest ∧ t.inBits = bits) ∧
    ((∃ b, t.outBits = s.outBits ++ b) ∨ ∃ rest, s.host = .take :: rest ∧ t.outBits = [])

/-- The contents that the spec leaves unspecified are never observable: no host read shows a node entry from NODE_COUNT on, or
a code entry while TABLE_VALID = 0 (R20, R42, R44, U7). -/
def Obligations.HiddenContentsUnobservable : Prop :=
  ∀ s s' : State, s' = { s with nodes := s'.nodes, codes := s'.codes } →
    (∀ i < s.nodeCount.toNat, nodeAt s' i = nodeAt s i) →
    (s.tableValid = true → ∀ sym < 257, codeAt s' sym = codeAt s sym) → ∀ a, readAddr a s' = readAddr a s

/-! ## What commands leave unchanged -/

/-- NOP, CLEAR, REWIND_IN, COUNT and CHECK_MAGIC, however they end: what they may write beside the status and error
registers. -/
def Obligations.FrameOfRegisterCommands : Prop :=
  ∀ s t : State,
    (exec .nop s = .next t → t = withStatusOf t s) ∧
    (exec .clear s = .next t →
      t = { withStatusOf t s with
        freq := t.freq, countTotal := t.countTotal, nodeCount := t.nodeCount, root := t.root, lastMagic := t.lastMagic
        treeValid := t.treeValid, tableValid := t.tableValid }) ∧
    (exec .rewindIn s = .next t → t = { withStatusOf t s with inPos := t.inPos }) ∧
    (exec .count s = .next t →
      t = { withStatusOf t s with freq := t.freq, countTotal := t.countTotal, inPos := t.inPos }) ∧
    (exec .checkMagic s = .next t → t = { withStatusOf t s with lastMagic := t.lastMagic, inPos := t.inPos })

/-- BUILD, DESERIALIZE and GEN_TABLE, however they end. Of the node memory BUILD and DESERIALIZE write the entries below
NODE_COUNT only. -/
def Obligations.FrameOfTreeCommands : Prop :=
  ∀ s t : State,
    (exec .build s = .next t →
      t = { withStatusOf t s with
        nodes := t.nodes, nodeCount := t.nodeCount, root := t.root, treeValid := t.treeValid, tableValid := t.tableValid } ∧
      ∀ j, t.nodeCount.toNat ≤ j → nodeAt t j = nodeAt s j) ∧
    (exec .deserialize s = .next t →
      t = { withStatusOf t s with
        nodes := t.nodes, nodeCount := t.nodeCount, root := t.root, treeValid := t.treeValid, tableValid := t.tableValid
        inPos := t.inPos } ∧
      ∀ j, t.nodeCount.toNat ≤ j → nodeAt t j = nodeAt s j) ∧
    (exec .genTable s = .next t → t = { withStatusOf t s with codes := t.codes, tableValid := t.tableValid })

/-- FLUSH_OUT, WRITE_MAGIC, SERIALIZE, ENCODE and DECODE, however they end: they append to OUT, and ENCODE and DECODE move the
read cursor. -/
def Obligations.FrameOfStreamCommands : Prop :=
  ∀ s t : State,
    (∀ i ∈ [Instr.flushOut, Instr.writeMagic, Instr.serialize], exec i s = .next t →
      ∃ b, t = { withStatusOf t s with outBits := s.outBits ++ b }) ∧
    (∀ i ∈ [Instr.encode, Instr.decode], exec i s = .next t →
      ∃ b, t = { withStatusOf t s with outBits := s.outBits ++ b, inPos := t.inPos })

/-- COMPRESS and DECOMPRESS, however they end. -/
def Obligations.FrameOfCompositeCommands : Prop :=
  ∀ s t : State,
    (exec .compress s = .next t → ∃ b,
      t = { withStatusOf t s with
        freq := t.freq, countTotal := t.countTotal, inPos := t.inPos, nodes := t.nodes, nodeCount := t.nodeCount
        root := t.root, codes := t.codes, treeValid := t.treeValid, tableValid := t.tableValid
        outBits := s.outBits ++ b }) ∧
    (exec .decompress s = .next t → ∃ b,
      t = { withStatusOf t s with
        lastMagic := t.lastMagic, inPos := t.inPos, nodes := t.nodes, nodeCount := t.nodeCount, root := t.root
        treeValid := t.treeValid, tableValid := t.tableValid, outBits := s.outBits ++ b })

/-! ## Housekeeping and port commands -/

/-- R140: NOP completes and changes no table, port or cursor. While ERR = 1 it is refused. -/
def Obligations.NopCompletes : Prop :=
  ∀ s : State, (Ready s → exec .nop s = .next (completed s)) ∧ (s.err = true → exec .nop s = .next s)

/-- R141: CLEAR. After it the node and code windows read 0 and FREQ[256] reads 1, and BUILD makes the single-leaf tree. -/
def Obligations.ClearEmptiesTheTables : Prop :=
  ∀ s : State, Ready s → ∃ t, exec .clear s = .next t ∧
    t = { completed s with
      freq := Vector.replicate 256 0#32, countTotal := 0#32, nodeCount := 0#10, root := 0#10, lastMagic := 0#32
      treeValid := false, tableValid := false } ∧
    (∀ a, 0x1000 ≤ a → a < 0x8040 → readAddr a t = 0#32) ∧ readAddr 0x0800 t = 1#32 ∧
    exec .build t = .next { t with
      nodes := s.nodes.set 0 { isLeaf := true, symbol := 256#9, left := 0#10, right := 0#10, weight := 1#32 }
      nodeCount := 1#10, treeValid := true }

/-- R142: REWIND_IN. -/
def Obligations.RewindInResetsTheCursor : Prop :=
  ∀ s : State, Ready s → exec .rewindIn s = .next { completed s with inPos := 0#64 }

/-- R143, R57: FLUSH_OUT appends 0 to 7 pad bits 0, and OUT is then a whole number of bytes. -/
def Obligations.FlushOutPads : Prop :=
  ∀ s : State, Ready s → ∃ k < 8, (s.outBits.length + k) % 8 = 0 ∧
    exec .flushOut s = .next { completed s with outBits := s.outBits ++ List.replicate k false }

/-- R100: WRITE_MAGIC appends the marker, bit by bit `FA CE 82 01`. -/
def Obligations.WriteMagicAppends : Prop :=
  ∀ s : State, Ready s → exec .writeMagic s = .next { completed s with
    outBits := s.outBits ++ bytesToBits [0xFA#8, 0xCE#8, 0x82#8, 0x01#8] }

/-! ## Counting -/

/-- R81, R84, R85: COUNT of whole bytes gives every byte value its number of occurrences, whatever FREQ held before. -/
def Obligations.CountCountsTheBytes : Prop :=
  ∀ (s : State) (bs : List Byte), Ready s → PortOk s → remaining s = bytesToBits bs → bs.length ≤ 2 ^ 32 - 2 →
    exec .count s = .next { completed s with
      freq := countsOf bs, countTotal := BitVec.ofNat 32 bs.length, inPos := s.inPos + BitVec.ofNat 64 (8 * bs.length) } ∧
    (∀ (sym : Nat) (h : sym < 256), (countsOf bs)[sym].toNat = bs.count (BitVec.ofNat 8 sym)) ∧
    ((List.range 256).map fun sym => bs.count (BitVec.ofNat 8 sym)).sum = bs.length ∧
    (s.inPos + BitVec.ofNat 64 (8 * bs.length)).toNat = s.inPos.toNat + 8 * bs.length

/-- R82, R83: COUNT of a trailing partial byte, and of a byte after the 2^32 - 2 it accepts. Counts of so many bytes, and the 1 of
the end-of-stream symbol, never exceed 2^32 - 1 together. -/
def Obligations.CountErrors : Prop :=
  (∀ (s : State) (bs : List Byte) (tail : Bits), Ready s → PortOk s → remaining s = bytesToBits bs ++ tail →
    tail ≠ [] → tail.length < 8 → bs.length ≤ 2 ^ 32 - 2 →
    exec .count s = .next { aborted 0x01#8 0#8 0x02#8 tail.length s with
      freq := countsOf bs, countTotal := BitVec.ofNat 32 bs.length, inPos := s.inPos + BitVec.ofNat 64 (8 * bs.length) }) ∧
  (∀ (s : State) (bs : List Byte) (r : Byte) (rest : Bits), Ready s → PortOk s →
    remaining s = bytesToBits bs ++ (bytesToBits [r] ++ rest) → bs.length = 2 ^ 32 - 2 →
    exec .count s = .next { aborted 0x13#8 0#8 0x02#8 r.toNat s with
      freq := countsOf bs, countTotal := BitVec.ofNat 32 (2 ^ 32 - 2)
      inPos := s.inPos + BitVec.ofNat 64 (8 * (bs.length + 1)) }) ∧
  (∀ (s : State) (bs : List Byte), s.freq = countsOf bs → bs.length ≤ 2 ^ 32 - 2 →
    totalCount s = bs.length + 1 ∧ totalCount s ≤ 2 ^ 32 - 1)

/-! ## Building the tree -/

/-- With the orders of R91 to R93: BUILD places the leaves in ascending symbol order, and every further node merges the two
nodes of least (WEIGHT, index) that are left, the least as its LEFT child; it does so until one node is left. That the least is
the LEFT child the spec marks as "from general knowledge, not in source" (R93, D28, log entry 15). -/
def Obligations.BuildMergesTheTwoLeast : Prop :=
  ∀ s : State, Ready s → totalCount s ≤ 2 ^ 32 - 1 → ∃ t, exec .build s = .next t ∧
    t = { completed s with
      nodes := t.nodes, nodeCount := BitVec.ofNat 10 (2 * (usedSymbols s).length - 1)
      root := BitVec.ofNat 10 (2 * (usedSymbols s).length - 2), treeValid := true, tableValid := false } ∧
    (∀ (i : Nat) (h : i < (usedSymbols s).length),
      nodeAt t i = some (leafNode (usedSymbols s)[i] (freqAt s (usedSymbols s)[i]))) ∧
    ∀ i, (usedSymbols s).length ≤ i → i < 2 * (usedSymbols s).length - 1 → MergedAt t i

/-- R97: the shape of BUILD's result. -/
def Obligations.BuildShape : Prop :=
  ∀ s : State, Ready s → totalCount s ≤ 2 ^ 32 - 1 → ∃ t tree, exec .build s = .next t ∧ t.treeValid = true ∧
    TreeIs t tree ∧ tree.leaves.length = (usedSymbols s).length ∧
    t.nodeCount.toNat = 2 * (usedSymbols s).length - 1 ∧ t.nodeCount.toNat ≤ 513 ∧
    (∀ (i : Nat) (h : i < (usedSymbols s).length), ∃ n, nodeAt t i = some n ∧ n.isLeaf = true ∧
      n.symbol.toNat = (usedSymbols s)[i]) ∧
    (∀ i, (usedSymbols s).length ≤ i → i < t.nodeCount.toNat →
      ∃ n, nodeAt t i = some n ∧ n.isLeaf = false ∧ n.left.toNat < i ∧ n.right.toNat < i) ∧
    t.root.toNat = 2 * (usedSymbols s).length - 2 ∧ weightAt t t.root.toNat = totalCount s

/-- R94: every leaf that BUILD makes has its FREQ entry as WEIGHT, and every other node the exact sum of its children's. When the
counts do not fit, it raises WEIGHT_OVERFLOW at the first merge whose sum does not fit, and what it made before stays. After a
COUNT that completed every weight is at most the sum of the counts, and the error cannot occur. Which two nodes a merge takes is
that of R91, and that the least is the LEFT child the spec marks as "from general knowledge, not in source" (R93, D28, log
entry 15, PRESUMED). -/
def Obligations.BuildWeightOverflow : Prop :=
  (∀ s : State, Ready s → ∃ t, exec .build s = .next t ∧
    (usedSymbols s).length ≤ t.nodeCount.toNat ∧ t.nodeCount.toNat ≤ 513 ∧
    (∀ (i : Nat) (h : i < (usedSymbols s).length),
      nodeAt t i = some (leafNode (usedSymbols s)[i] (freqAt s (usedSymbols s)[i]))) ∧
    (∀ i, (usedSymbols s).length ≤ i → i < t.nodeCount.toNat → MergedAt t i) ∧
    (totalCount s ≤ 2 ^ 32 - 1 → t.err = false ∧ t.done = true) ∧
    (2 ^ 32 - 1 < totalCount s →
      t = { aborted 0x14#8 0#8 0x03#8 t.nodeCount.toNat s with
        nodes := t.nodes, nodeCount := t.nodeCount, root := 0#10, treeValid := false, tableValid := false } ∧
      ∃ a b, TwoLeast t t.nodeCount.toNat a b ∧ 2 ^ 32 - 1 < weightAt t a + weightAt t b)) ∧
  (∀ s t : State, Ready s → PortOk s → exec .count s = .next t → t.err = false →
    totalCount t ≤ 2 ^ 32 - 1 ∧
    ∃ u, exec .build t = .next u ∧ u.done = true ∧ ∀ i < u.nodeCount.toNat, weightAt u i ≤ totalCount t)

/-- R95: BUILD when only `FREQ[256]` is not 0. -/
def Obligations.BuildOfNoBytes : Prop :=
  ∀ s : State, Ready s → (∀ sym < 256, freqAt s sym = 0#32) →
    exec .build s = .next { completed s with
      nodes := s.nodes.set 0 { isLeaf := true, symbol := 256#9, left := 0#10, right := 0#10, weight := 1#32 }
      nodeCount := 1#10, root := 0#10, treeValid := true, tableValid := false }

/-- The node memory in use, NODE_COUNT and ROOT after BUILD depend on FREQ alone (R91, R96). -/
def Obligations.BuildIsAFunctionOfFreq : Prop :=
  ∀ s s' t t' : State, Ready s → Ready s' → s'.freq = s.freq → exec .build s = .next t → exec .build s' = .next t' →
    t'.nodeCount = t.nodeCount ∧ t'.root = t.root ∧ t'.treeValid = t.treeValid ∧
    t'.errCode = t.errCode ∧ t'.errInfo = t.errInfo ∧ ∀ i < t.nodeCount.toNat, nodeAt t' i = nodeAt t i

/-- No binary prefix code for the leaf symbols has a smaller weighted length than the tree of BUILD, and that length is the sum of
the weights of its internal nodes (R98; the spec marks the second as "from general knowledge, not in source: a standard identity
of Huffman trees"). -/
def Obligations.BuildIsOptimal : Prop :=
  ∀ s : State, Ready s → totalCount s ≤ 2 ^ 32 - 1 → ∃ t tree, exec .build s = .next t ∧ TreeIs t tree ∧
    tree.symbols.Perm (usedSymbols s) ∧
    (∀ code : Nat → Bits,
      (∀ a ∈ usedSymbols s, ∀ b ∈ usedSymbols s, a ≠ b → ¬ code a <+: code b) →
      tree.pathLength (countOf s) ≤ ((usedSymbols s).map fun sym => countOf s sym * (code sym).length).sum) ∧
    tree.pathLength (countOf s) =
      ((List.range' (usedSymbols s).length ((usedSymbols s).length - 1)).map (weightAt t)).sum

/-! ## The code table and the encoder -/

/-- R121, R122: GEN_TABLE stores the path of every leaf, and no code for the other symbols. -/
def Obligations.GenTableStoresThePaths : Prop :=
  ∀ (s : State) (tree : CodeTree), Ready s → s.treeValid = true → TreeIs s tree →
    exec .genTable s = .next { completed s with codes := tableOf tree, tableValid := true } ∧
    (∀ p ∈ tree.leaves, p.2.length + 1 ≤ tree.leaves.length ∧ p.2.length ≤ 256 ∧
      codeOf tree p.1 = ⟨true, BitVec.ofNat 9 p.2.length, BitVec.ofNat 256 (bitsValue p.2)⟩ ∧
      (codeOf tree p.1).bits = p.2) ∧
    (∀ sym, sym ∉ tree.symbols → codeOf tree sym = ⟨false, 0#9, 0#256⟩) ∧
    (∀ i sym, tree = .leaf i sym → codeOf tree sym = ⟨true, 0#9, 0#256⟩)

/-- GEN_TABLE, SERIALIZE and DECODE without a tree, and ENCODE without a table, raise NO_TREE or NO_TABLE before anything else
(R163, R171). -/
def Obligations.PreconditionErrors : Prop :=
  ∀ s : State, Ready s →
    (s.treeValid = false →
      exec .genTable s = .next (aborted 0x11#8 0#8 0x04#8 0 s) ∧ exec .serialize s = .next (aborted 0x11#8 0#8 0x06#8 0 s) ∧
      exec .decode s = .next (aborted 0x11#8 0#8 0x0A#8 0 s)) ∧
    (s.tableValid = false → exec .encode s = .next (aborted 0x12#8 0#8 0x07#8 0 s))

/-- ENCODE writes the code of every byte, in order, and then that of the end-of-stream symbol (R123, R127). -/
def Obligations.EncodeWritesTheCodes : Prop :=
  ∀ (s : State) (bs : List Byte), Ready s → PortOk s → s.tableValid = true → remaining s = bytesToBits bs →
    (∀ b ∈ bs, (codeAt s b.toNat).valid = true) → (codeAt s 256).valid = true →
    exec .encode s = .next { completed s with
      inPos := s.inPos + BitVec.ofNat 64 (8 * bs.length)
      outBits := s.outBits ++ (bs.flatMap (fun b => (codeAt s b.toNat).bits) ++ (codeAt s 256).bits) } ∧
    (bs.flatMap (fun b => (codeAt s b.toNat).bits) ++ (codeAt s 256).bits).length =
      (bs.map fun b => (codeAt s b.toNat).len.toNat).sum + (codeAt s 256).len.toNat

/-- ENCODE of a byte without a code, without a code for the end-of-stream symbol, and of a trailing partial
byte (R124, R125). -/
def Obligations.EncodeErrors : Prop :=
  ∀ (s : State) (bs : List Byte), Ready s → PortOk s → s.tableValid = true →
    (∀ b ∈ bs, (codeAt s b.toNat).valid = true) →
    (∀ (r : Byte) (rest : Bits), remaining s = bytesToBits bs ++ (bytesToBits [r] ++ rest) →
      (codeAt s r.toNat).valid = false →
      exec .encode s = .next { aborted 0x04#8 0#8 0x07#8 r.toNat s with
        inPos := s.inPos + BitVec.ofNat 64 (8 * (bs.length + 1)), outBits := s.outBits ++ codesOf s bs }) ∧
    (remaining s = bytesToBits bs → (codeAt s 256).valid = false →
      exec .encode s = .next { aborted 0x04#8 0#8 0x07#8 256 s with
        inPos := s.inPos + BitVec.ofNat 64 (8 * bs.length), outBits := s.outBits ++ codesOf s bs }) ∧
    (∀ tail : Bits, remaining s = bytesToBits bs ++ tail → tail ≠ [] → tail.length < 8 →
      exec .encode s = .next { aborted 0x01#8 0#8 0x07#8 tail.length s with
        inPos := s.inPos + BitVec.ofNat 64 (8 * bs.length), outBits := s.outBits ++ codesOf s bs })

/-- R126: after GEN_TABLE no code is a prefix of the code of another symbol. -/
def Obligations.CodesArePrefixFree : Prop :=
  ∀ (s t : State) (tree : CodeTree), Ready s → s.treeValid = true → TreeIs s tree → exec .genTable s = .next t →
    ∀ a < 257, ∀ b < 257, a ≠ b → (codeAt t a).valid = true → (codeAt t b).valid = true →
      ¬ (codeAt t a).bits <+: (codeAt t b).bits

/-! ## The header codec -/

/-- R102, R101: SERIALIZE appends the header that the grammar derives for the tree, from L leaves and L - 1 internal nodes: it has
`11 L - 1` bits, and it is self-delimiting. -/
def Obligations.SerializeWritesTheHeader : Prop :=
  (∀ (s : State) (tree : CodeTree), Ready s → s.treeValid = true → TreeIs s tree →
    exec .serialize s = .next { completed s with outBits := s.outBits ++ tree.header }) ∧
  (∀ tree : CodeTree, tree.header.length = 11 * tree.leaves.length - 1 ∧
    tree.indices.length = tree.leaves.length + (tree.leaves.length - 1)) ∧
  (∀ (t u : CodeTree) (x y : Bits), (∀ sym ∈ t.symbols, sym ≤ 256) → (∀ sym ∈ u.symbols, sym ≤ 256) →
    t.header ++ x = u.header ++ y → t.preorder 0 = u.preorder 0 ∧ x = y)

/-- R103, R113: CHECK_MAGIC on the marker, on 32 other bits, and on fewer than 32 bits. -/
def Obligations.CheckMagicComparesTheMarker : Prop :=
  ∀ s : State, Ready s → PortOk s →
    (∀ rest, remaining s = bytesToBits [0xFA#8, 0xCE#8, 0x82#8, 0x01#8] ++ rest →
      exec .checkMagic s = .next { completed s with lastMagic := 0xFACE8201#32, inPos := s.inPos + 32#64 }) ∧
    (∀ (v : Word) (rest : Bits), remaining s = spell 32 v.toNat ++ rest → v ≠ 0xFACE8201#32 →
      exec .checkMagic s = .next { aborted 0x02#8 1#8 0x08#8 v.toNat s with lastMagic := v, inPos := s.inPos + 32#64 }) ∧
    ((remaining s).length < 32 →
      exec .checkMagic s = .next { aborted 0x02#8 2#8 0x08#8 (remaining s).length s with lastMagic := 0#32 })

/-- R105, R110, R112: DESERIALIZE of a header makes its tree, numbered in preorder, with weights 0, and consumes exactly the
header. -/
def Obligations.DeserializeReadsTheHeader : Prop :=
  ∀ (s : State) (tree : CodeTree) (rest : Bits), Ready s → PortOk s → remaining s = tree.header ++ rest →
    (∀ sym ∈ tree.symbols, sym ≤ 256) → tree.symbols.Nodup →
    ∃ t, exec .deserialize s = .next t ∧
      t = { completed s with
        nodes := t.nodes, nodeCount := BitVec.ofNat 10 tree.indices.length, root := 0#10, treeValid := true
        tableValid := false, inPos := s.inPos + BitVec.ofNat 64 (11 * tree.leaves.length - 1) } ∧
      TreeIs t (tree.preorder 0) ∧ Stores t (fun _ => 0#32) (tree.preorder 0) ∧
      (∀ i < tree.indices.length, ∃ n, nodeAt t i = some n ∧ n.weight = 0#32 ∧ (n.isLeaf = false → n.left.toNat = i + 1)) ∧
      remaining t = rest

/-- R106 to R109: the four refusals of DESERIALIZE, each at the place where the header breaks off, with what was made before. A whole
header of distinct symbols never needs more than 513 nodes. -/
def Obligations.DeserializeRefusals : Prop :=
  (∀ tree : CodeTree, (∀ sym ∈ tree.symbols, sym ≤ 256) → tree.symbols.Nodup → tree.indices.length ≤ 513) ∧
  ∀ (s : State) (o : OpenHeader), Ready s → PortOk s → o.nodes ≤ 513 → (∀ sym ∈ o.symbols, sym ≤ 256) → o.symbols.Nodup →
    (∀ (v : Nat) (rest : Bits), remaining s = o.bits ++ (true :: (spell 9 v ++ rest)) → 256 < v → v < 512 →
      ∃ t, exec .deserialize s = .next t ∧ OpenStores t 0 o ∧
        t = { aborted 0x05#8 2#8 0x09#8 v s with
          nodes := t.nodes, nodeCount := BitVec.ofNat 10 o.nodes, root := 0#10, treeValid := false, tableValid := false
          inPos := s.inPos + BitVec.ofNat 64 (o.bits.length + 10) }) ∧
    (∀ (v : Nat) (rest : Bits), remaining s = o.bits ++ (true :: (spell 9 v ++ rest)) → v ∈ o.symbols →
      ∃ t, exec .deserialize s = .next t ∧ OpenStores t 0 o ∧
        t = { aborted 0x05#8 3#8 0x09#8 v s with
          nodes := t.nodes, nodeCount := BitVec.ofNat 10 o.nodes, root := 0#10, treeValid := false, tableValid := false
          inPos := s.inPos + BitVec.ofNat 64 (o.bits.length + 10) }) ∧
    (∀ (b : Bool) (v : Nat) (rest : Bits), o.nodes = 513 → v ≤ 256 → v ∉ o.symbols →
      remaining s = o.bits ++ ((if b then true :: spell 9 v else [false]) ++ rest) →
      ∃ t, exec .deserialize s = .next t ∧ OpenStores t 0 o ∧
        t = { aborted 0x05#8 4#8 0x09#8 513 s with
          nodes := t.nodes, nodeCount := 513#10, root := 0#10, treeValid := false, tableValid := false
          inPos := s.inPos + BitVec.ofNat 64 (o.bits.length + if b then 10 else 1) }) ∧
    (∀ short : Bits, remaining s = o.bits ++ short → (short = [] ∨ ∃ r, short = true :: r ∧ r.length < 9) →
      ∃ t, exec .deserialize s = .next t ∧ OpenStores t 0 o ∧
        t = { aborted 0x05#8 1#8 0x09#8 o.nodes s with
          nodes := t.nodes, nodeCount := BitVec.ofNat 10 o.nodes, root := 0#10, treeValid := false, tableValid := false
          inPos := s.inPos + BitVec.ofNat 64 (o.bits.length + min short.length 1) })

/-- R111: SERIALIZE, then DESERIALIZE of exactly the bits written, gives the same shape with the same symbols, renumbered. -/
def Obligations.HeaderRoundTrip : Prop :=
  ∀ (s : State) (tree : CodeTree), Ready s → s.treeValid = true → TreeIs s tree → s.outBits = [] →
    ∃ t u, exec .serialize s = .next t ∧ exec .deserialize { t with inBits := t.outBits, inPos := 0#64 } = .next u ∧
      u.done = true ∧ u.treeValid = true ∧ TreeIs u (tree.preorder 0) ∧ (tree.preorder 0).leaves = tree.leaves ∧
      (∀ i < u.nodeCount.toNat, weightAt u i = 0) ∧ remaining u = []

/-! ## The decoder -/

/-- DECODE of the paths of bytes and then that of the end-of-stream symbol writes the bytes and stops just behind
it, whatever follows (R130, R133, R135). -/
def Obligations.DecodeReadsTheStream : Prop :=
  ∀ (s : State) (tree : CodeTree) (bs : List Byte) (e rest : Bits), Ready s → PortOk s → s.treeValid = true →
    TreeIs s tree → (∀ b ∈ bs, b.toNat ∈ tree.symbols) → tree.path 256 = some e →
    remaining s = pathsOf tree bs ++ (e ++ rest) →
    exec .decode s = .next { completed s with
      inPos := s.inPos + BitVec.ofNat 64 ((pathsOf tree bs).length + e.length)
      outBits := s.outBits ++ bytesToBits bs }

/-- R131: DECODE when the root is a leaf. -/
def Obligations.DecodeOfARootLeaf : Prop :=
  ∀ (s : State) (i sym : Nat), Ready s → s.treeValid = true → TreeIs s (.leaf i sym) →
    (sym = 256 → exec .decode s = .next (completed s)) ∧
    (sym ≠ 256 → exec .decode s = .next (aborted 0x15#8 0#8 0x0A#8 sym s))

/-- R132, R134: DECODE of the paths of bytes and then of a path that breaks off writes the bytes and raises TRUNCATED_STREAM.
With a tree that has no end-of-stream leaf and a root that is no leaf it ends so on every input. -/
def Obligations.DecodeTruncation : Prop :=
  (∀ (s : State) (i : Nat) (l r : CodeTree) (bs : List Byte) (sym : Nat) (b q : Bits), Ready s → PortOk s →
    s.treeValid = true → TreeIs s (.node i l r) → (∀ c ∈ bs, c.toNat ∈ (CodeTree.node i l r).symbols) →
    (sym, b ++ q) ∈ (CodeTree.node i l r).leaves → q ≠ [] → remaining s = pathsOf (.node i l r) bs ++ b →
    exec .decode s = .next { aborted 0x03#8 0#8 0x0A#8 (bs.length % 2 ^ 32) s with
      inPos := BitVec.ofNat 64 s.inBits.length, outBits := s.outBits ++ bytesToBits bs }) ∧
  (∀ (s : State) (i : Nat) (l r : CodeTree), Ready s → PortOk s → s.treeValid = true → TreeIs s (.node i l r) →
    (CodeTree.node i l r).path 256 = none →
    ∃ (bs : List Byte) (b : Bits), (∀ c ∈ bs, c.toNat ∈ (CodeTree.node i l r).symbols) ∧
      remaining s = pathsOf (.node i l r) bs ++ b ∧
      exec .decode s = .next { aborted 0x03#8 0#8 0x0A#8 (bs.length % 2 ^ 32) s with
        inPos := BitVec.ofNat 64 s.inBits.length, outBits := s.outBits ++ bytesToBits bs })

/-! ## The composite commands -/

/-- R146: COMPRESS and DECOMPRESS do what their steps do when issued one after the other; they stop at the first error, with
DONE = 0 and STEP the opcode of the failing step. -/
def Obligations.CompositesAreTheirSteps : Prop :=
  ∀ s : State, Ready s →
    exec .compress s =
      execSeq [.rewindIn, .count, .build, .genTable, .writeMagic, .serialize, .rewindIn, .encode, .flushOut] s ∧
    exec .decompress s = execSeq [.rewindIn, .checkMagic, .deserialize, .decode] s ∧
    (∀ t, exec .compress s = .next t → t.err = true →
      t.done = false ∧ t.errStep ∈ [0x02#8, 0x03#8, 0x04#8, 0x06#8, 0x07#8]) ∧
    (∀ t, exec .decompress s = .next t → t.err = true → t.done = false ∧ t.errStep ∈ [0x08#8, 0x09#8, 0x0A#8])

/-- COMPRESS of bytes writes the marker, the header of the tree it built, the code of every byte in order, that of the
end-of-stream symbol, and pad bits 0 up to a whole byte (R79, R144). -/
def Obligations.CompressWritesTheFormat : Prop :=
  ∀ (s : State) (bs : List Byte), Ready s → s.inBits = bytesToBits bs → bs.length ≤ 2 ^ 32 - 2 →
    ∃ t tree e k, exec .compress s = .next t ∧ TreeIs t tree ∧ (∀ b ∈ bs, b.toNat ∈ tree.symbols) ∧
      tree.path 256 = some e ∧ k < 8 ∧
      t = { completed s with
        freq := countsOf bs, countTotal := BitVec.ofNat 32 bs.length, inPos := BitVec.ofNat 64 (8 * bs.length)
        nodes := t.nodes, nodeCount := t.nodeCount, root := t.root, treeValid := true
        codes := tableOf tree, tableValid := true
        outBits := s.outBits ++ (bytesToBits [0xFA#8, 0xCE#8, 0x82#8, 0x01#8] ++ (tree.header ++ (pathsOf tree bs ++
          (e ++ List.replicate k false)))) } ∧
      t.outBits.length % 8 = 0

/-- R148: how many bits COMPRESS writes, in the code lengths it stored, and that the code bits are the weighted path
length of its tree (R127). -/
def Obligations.CompressedSize : Prop :=
  ∀ (s : State) (bs : List Byte), Ready s → s.inBits = bytesToBits bs → bs.length ≤ 2 ^ 32 - 2 →
    ∃ t tree k, exec .compress s = .next t ∧ TreeIs t tree ∧ k < 8 ∧
      t.outBits.length = s.outBits.length + (32 + (11 * tree.leaves.length - 1) +
        ((bs.map fun b => (codeAt t b.toNat).len.toNat).sum + (codeAt t 256).len.toNat) + k) ∧
      (bs.map fun b => (codeAt t b.toNat).len.toNat).sum + (codeAt t 256).len.toNat =
        ((List.range 257).map fun sym => countOf t sym * (codeAt t sym).len.toNat).sum ∧
      ((List.range 257).map fun sym => countOf t sym * (codeAt t sym).len.toNat).sum = tree.pathLength (countOf t)

/-- DECOMPRESS of a stream in the format writes the bytes it stands for, whatever follows the end-of-stream code (R79,
R145). -/
def Obligations.DecompressReadsTheFormat : Prop :=
  ∀ (s : State) (tree : CodeTree) (bs : List Byte) (e rest : Bits), Ready s → s.inBits.length < 2 ^ 64 →
    s.inBits = bytesToBits [0xFA#8, 0xCE#8, 0x82#8, 0x01#8] ++ (tree.header ++ (pathsOf tree bs ++ (e ++ rest))) →
    (∀ sym ∈ tree.symbols, sym ≤ 256) → tree.symbols.Nodup → (∀ b ∈ bs, b.toNat ∈ tree.symbols) →
    tree.path 256 = some e →
    ∃ t, exec .decompress s = .next t ∧ TreeIs t (tree.preorder 0) ∧
      t = { completed s with
        lastMagic := 0xFACE8201#32
        inPos := BitVec.ofNat 64 (32 + tree.header.length + (pathsOf tree bs).length + e.length)
        nodes := t.nodes, nodeCount := BitVec.ofNat 10 tree.indices.length, root := 0#10
        treeValid := true, tableValid := false, outBits := s.outBits ++ bytesToBits bs }

/-- R147: the host loads a byte file, empties OUT, issues COMPRESS and takes whole bytes; it loads these, issues DECOMPRESS and
takes exactly the file. -/
def Obligations.RoundTrip : Prop :=
  ∀ (s : State) (bs : List Byte) (rest : List HostAction), Ready s → bs.length ≤ 2 ^ 32 - 2 →
    s.host = loadBytes bs :: .take :: issue .compress :: .take :: rest →
    ∃ (t : State) (bits : Bits), runActions 4 s = .next t ∧ t.reply = .bits bits ∧ bits.length % 8 = 0 ∧
      t.done = true ∧ t.err = false ∧ t.outBits = [] ∧
      ∀ more : List HostAction, ∃ u : State,
        runActions 4
          { t with host := loadBytes (bitsToBytes bits) :: .take :: issue .decompress :: .take :: more } = .next u ∧
        u.reply = .bits (bytesToBits bs) ∧ u.done = true ∧ u.err = false

/-! ## The block as a whole -/

/-- Which errors each command can raise, with their DETAIL and STEP (R163, R164). -/
def Obligations.ErrorsOfEachCommand : Prop :=
  ∀ (i : Instr) (s t : State), Ready s → PortOk s → exec i s = .next t →
    (t.err = true → (t.errCode, t.errDetail, t.errStep) ∈ errorsOf i ∧ t.done = false) ∧
    (t.err = false → t.done = true ∧ t.errCode = 0#8 ∧ t.errDetail = 0#8 ∧ t.errStep = 0#8 ∧ t.errInfo = 0#32)

/-- From every state that meets the invariant every command ends: with DONE or with ERR, never with both, never with BUSY. A
command that is refused changes nothing (R161, R162, R171, R203). So every host program that loads fewer than 2^64 bits at a time
runs to its end, and its run succeeds exactly when its last command set DONE, whatever the host does after that command (R181). -/
def Obligations.EveryCommandTerminates : Prop :=
  (∀ (i : Instr) (s : State), Inv s →
    (Ready s → ∃ t, exec i s = .next t ∧ t.busy = false ∧ t.done = !t.err) ∧
    (¬ Ready s → exec i s = .next s)) ∧
  (∀ s : State, Inv s → (∀ a ∈ s.host, a.wellFormed = true) →
    ∃ t, runProgram s = .next t ∧ t.host = [] ∧ t.busy = false) ∧
  (∀ (s t : State) (i : Instr) (rest : List HostAction), Inv s → Ready s → s.host = issue i :: rest →
    (∀ a ∈ rest, a.wellFormed = true ∧ issuesCommand a = false) → exec i (popAction rest s) = .next t →
    runSucceeds s = t.done)

/-- The state after reset meets the invariant. -/
def Obligations.ResetMeetsTheInvariant : Prop := Inv State.reset

/-- Every step keeps the invariant: BUSY = 0, DONE and ERR exclusive, the cursor within IN, NODE_COUNT and COUNT_TOTAL in range,
a tree as R48 has it while TREE_VALID = 1, and its codes while TABLE_VALID = 1 (R49). -/
def Obligations.StepKeepsTheInvariant : Prop :=
  ∀ s t : State, Inv s → step s = .next t → Inv t
end

