-- ==== Sys2Proof/Laws/State.lean ====
section
/-!
SUPPORT. One lemma per field and per update of the state, true by definition, so that no later proof unfolds an update.
-/

namespace Sys2Proof.Machine

variable (s : State)

/-! ### writeSeq: WriteSeq (R56): only OUT changes -/

@[simp] theorem writeSeq_busy (b : Bits) : (writeSeq b s).busy = s.busy := rfl
@[simp] theorem writeSeq_done (b : Bits) : (writeSeq b s).done = s.done := rfl
@[simp] theorem writeSeq_err (b : Bits) : (writeSeq b s).err = s.err := rfl
@[simp] theorem writeSeq_treeValid (b : Bits) : (writeSeq b s).treeValid = s.treeValid := rfl
@[simp] theorem writeSeq_tableValid (b : Bits) : (writeSeq b s).tableValid = s.tableValid := rfl
@[simp] theorem writeSeq_errCode (b : Bits) : (writeSeq b s).errCode = s.errCode := rfl
@[simp] theorem writeSeq_errDetail (b : Bits) : (writeSeq b s).errDetail = s.errDetail := rfl
@[simp] theorem writeSeq_errStep (b : Bits) : (writeSeq b s).errStep = s.errStep := rfl
@[simp] theorem writeSeq_errInfo (b : Bits) : (writeSeq b s).errInfo = s.errInfo := rfl
@[simp] theorem writeSeq_doneIE (b : Bits) : (writeSeq b s).doneIE = s.doneIE := rfl
@[simp] theorem writeSeq_errIE (b : Bits) : (writeSeq b s).errIE = s.errIE := rfl
@[simp] theorem writeSeq_inPos (b : Bits) : (writeSeq b s).inPos = s.inPos := rfl
@[simp] theorem writeSeq_nodeCount (b : Bits) : (writeSeq b s).nodeCount = s.nodeCount := rfl
@[simp] theorem writeSeq_root (b : Bits) : (writeSeq b s).root = s.root := rfl
@[simp] theorem writeSeq_lastMagic (b : Bits) : (writeSeq b s).lastMagic = s.lastMagic := rfl
@[simp] theorem writeSeq_countTotal (b : Bits) : (writeSeq b s).countTotal = s.countTotal := rfl
@[simp] theorem writeSeq_freq (b : Bits) : (writeSeq b s).freq = s.freq := rfl
@[simp] theorem writeSeq_nodes (b : Bits) : (writeSeq b s).nodes = s.nodes := rfl
@[simp] theorem writeSeq_codes (b : Bits) : (writeSeq b s).codes = s.codes := rfl
@[simp] theorem writeSeq_inBits (b : Bits) : (writeSeq b s).inBits = s.inBits := rfl
@[simp] theorem writeSeq_outBits (b : Bits) : (writeSeq b s).outBits = s.outBits ++ b := rfl
@[simp] theorem writeSeq_host (b : Bits) : (writeSeq b s).host = s.host := rfl
@[simp] theorem writeSeq_reply (b : Bits) : (writeSeq b s).reply = s.reply := rfl
@[simp] theorem writeSeq_freeCount (b : Bits) : (writeSeq b s).freeCount = s.freeCount := rfl

/-! ### writeBits: WriteBits (R55): only OUT changes -/

@[simp] theorem writeBits_busy (n v : Nat) (w : FieldWidth n) : (writeBits n v s w).busy = s.busy := rfl
@[simp] theorem writeBits_done (n v : Nat) (w : FieldWidth n) : (writeBits n v s w).done = s.done := rfl
@[simp] theorem writeBits_err (n v : Nat) (w : FieldWidth n) : (writeBits n v s w).err = s.err := rfl
@[simp] theorem writeBits_treeValid (n v : Nat) (w : FieldWidth n) : (writeBits n v s w).treeValid = s.treeValid := rfl
@[simp] theorem writeBits_tableValid (n v : Nat) (w : FieldWidth n) : (writeBits n v s w).tableValid = s.tableValid := rfl
@[simp] theorem writeBits_errCode (n v : Nat) (w : FieldWidth n) : (writeBits n v s w).errCode = s.errCode := rfl
@[simp] theorem writeBits_errDetail (n v : Nat) (w : FieldWidth n) : (writeBits n v s w).errDetail = s.errDetail := rfl
@[simp] theorem writeBits_errStep (n v : Nat) (w : FieldWidth n) : (writeBits n v s w).errStep = s.errStep := rfl
@[simp] theorem writeBits_errInfo (n v : Nat) (w : FieldWidth n) : (writeBits n v s w).errInfo = s.errInfo := rfl
@[simp] theorem writeBits_doneIE (n v : Nat) (w : FieldWidth n) : (writeBits n v s w).doneIE = s.doneIE := rfl
@[simp] theorem writeBits_errIE (n v : Nat) (w : FieldWidth n) : (writeBits n v s w).errIE = s.errIE := rfl
@[simp] theorem writeBits_inPos (n v : Nat) (w : FieldWidth n) : (writeBits n v s w).inPos = s.inPos := rfl
@[simp] theorem writeBits_nodeCount (n v : Nat) (w : FieldWidth n) : (writeBits n v s w).nodeCount = s.nodeCount := rfl
@[simp] theorem writeBits_root (n v : Nat) (w : FieldWidth n) : (writeBits n v s w).root = s.root := rfl
@[simp] theorem writeBits_lastMagic (n v : Nat) (w : FieldWidth n) : (writeBits n v s w).lastMagic = s.lastMagic := rfl
@[simp] theorem writeBits_countTotal (n v : Nat) (w : FieldWidth n) : (writeBits n v s w).countTotal = s.countTotal := rfl
@[simp] theorem writeBits_freq (n v : Nat) (w : FieldWidth n) : (writeBits n v s w).freq = s.freq := rfl
@[simp] theorem writeBits_nodes (n v : Nat) (w : FieldWidth n) : (writeBits n v s w).nodes = s.nodes := rfl
@[simp] theorem writeBits_codes (n v : Nat) (w : FieldWidth n) : (writeBits n v s w).codes = s.codes := rfl
@[simp] theorem writeBits_inBits (n v : Nat) (w : FieldWidth n) : (writeBits n v s w).inBits = s.inBits := rfl
@[simp] theorem writeBits_outBits (n v : Nat) (w : FieldWidth n) : (writeBits n v s w).outBits = s.outBits ++ spell n v := rfl
@[simp] theorem writeBits_host (n v : Nat) (w : FieldWidth n) : (writeBits n v s w).host = s.host := rfl
@[simp] theorem writeBits_reply (n v : Nat) (w : FieldWidth n) : (writeBits n v s w).reply = s.reply := rfl
@[simp] theorem writeBits_freeCount (n v : Nat) (w : FieldWidth n) : (writeBits n v s w).freeCount = s.freeCount := rfl

/-! ### advance: IN_POS advanced (R54) -/

@[simp] theorem advance_busy (n : Nat) : (advance n s).busy = s.busy := rfl
@[simp] theorem advance_done (n : Nat) : (advance n s).done = s.done := rfl
@[simp] theorem advance_err (n : Nat) : (advance n s).err = s.err := rfl
@[simp] theorem advance_treeValid (n : Nat) : (advance n s).treeValid = s.treeValid := rfl
@[simp] theorem advance_tableValid (n : Nat) : (advance n s).tableValid = s.tableValid := rfl
@[simp] theorem advance_errCode (n : Nat) : (advance n s).errCode = s.errCode := rfl
@[simp] theorem advance_errDetail (n : Nat) : (advance n s).errDetail = s.errDetail := rfl
@[simp] theorem advance_errStep (n : Nat) : (advance n s).errStep = s.errStep := rfl
@[simp] theorem advance_errInfo (n : Nat) : (advance n s).errInfo = s.errInfo := rfl
@[simp] theorem advance_doneIE (n : Nat) : (advance n s).doneIE = s.doneIE := rfl
@[simp] theorem advance_errIE (n : Nat) : (advance n s).errIE = s.errIE := rfl
@[simp] theorem advance_inPos (n : Nat) : (advance n s).inPos = s.inPos + BitVec.ofNat 64 n := rfl
@[simp] theorem advance_nodeCount (n : Nat) : (advance n s).nodeCount = s.nodeCount := rfl
@[simp] theorem advance_root (n : Nat) : (advance n s).root = s.root := rfl
@[simp] theorem advance_lastMagic (n : Nat) : (advance n s).lastMagic = s.lastMagic := rfl
@[simp] theorem advance_countTotal (n : Nat) : (advance n s).countTotal = s.countTotal := rfl
@[simp] theorem advance_freq (n : Nat) : (advance n s).freq = s.freq := rfl
@[simp] theorem advance_nodes (n : Nat) : (advance n s).nodes = s.nodes := rfl
@[simp] theorem advance_codes (n : Nat) : (advance n s).codes = s.codes := rfl
@[simp] theorem advance_inBits (n : Nat) : (advance n s).inBits = s.inBits := rfl
@[simp] theorem advance_outBits (n : Nat) : (advance n s).outBits = s.outBits := rfl
@[simp] theorem advance_host (n : Nat) : (advance n s).host = s.host := rfl
@[simp] theorem advance_reply (n : Nat) : (advance n s).reply = s.reply := rfl
@[simp] theorem advance_freeCount (n : Nat) : (advance n s).freeCount = s.freeCount := rfl

/-! ### setFreq: a FREQ write (R39): only FREQ changes -/

@[simp] theorem setFreq_busy (sym : Nat) (v : Word) : (setFreq sym v s).busy = s.busy := rfl
@[simp] theorem setFreq_done (sym : Nat) (v : Word) : (setFreq sym v s).done = s.done := rfl
@[simp] theorem setFreq_err (sym : Nat) (v : Word) : (setFreq sym v s).err = s.err := rfl
@[simp] theorem setFreq_treeValid (sym : Nat) (v : Word) : (setFreq sym v s).treeValid = s.treeValid := rfl
@[simp] theorem setFreq_tableValid (sym : Nat) (v : Word) : (setFreq sym v s).tableValid = s.tableValid := rfl
@[simp] theorem setFreq_errCode (sym : Nat) (v : Word) : (setFreq sym v s).errCode = s.errCode := rfl
@[simp] theorem setFreq_errDetail (sym : Nat) (v : Word) : (setFreq sym v s).errDetail = s.errDetail := rfl
@[simp] theorem setFreq_errStep (sym : Nat) (v : Word) : (setFreq sym v s).errStep = s.errStep := rfl
@[simp] theorem setFreq_errInfo (sym : Nat) (v : Word) : (setFreq sym v s).errInfo = s.errInfo := rfl
@[simp] theorem setFreq_doneIE (sym : Nat) (v : Word) : (setFreq sym v s).doneIE = s.doneIE := rfl
@[simp] theorem setFreq_errIE (sym : Nat) (v : Word) : (setFreq sym v s).errIE = s.errIE := rfl
@[simp] theorem setFreq_inPos (sym : Nat) (v : Word) : (setFreq sym v s).inPos = s.inPos := rfl
@[simp] theorem setFreq_nodeCount (sym : Nat) (v : Word) : (setFreq sym v s).nodeCount = s.nodeCount := rfl
@[simp] theorem setFreq_root (sym : Nat) (v : Word) : (setFreq sym v s).root = s.root := rfl
@[simp] theorem setFreq_lastMagic (sym : Nat) (v : Word) : (setFreq sym v s).lastMagic = s.lastMagic := rfl
@[simp] theorem setFreq_countTotal (sym : Nat) (v : Word) : (setFreq sym v s).countTotal = s.countTotal := rfl
@[simp] theorem setFreq_freq (sym : Nat) (v : Word) : (setFreq sym v s).freq = s.freq.setIfInBounds sym v := rfl
@[simp] theorem setFreq_nodes (sym : Nat) (v : Word) : (setFreq sym v s).nodes = s.nodes := rfl
@[simp] theorem setFreq_codes (sym : Nat) (v : Word) : (setFreq sym v s).codes = s.codes := rfl
@[simp] theorem setFreq_inBits (sym : Nat) (v : Word) : (setFreq sym v s).inBits = s.inBits := rfl
@[simp] theorem setFreq_outBits (sym : Nat) (v : Word) : (setFreq sym v s).outBits = s.outBits := rfl
@[simp] theorem setFreq_host (sym : Nat) (v : Word) : (setFreq sym v s).host = s.host := rfl
@[simp] theorem setFreq_reply (sym : Nat) (v : Word) : (setFreq sym v s).reply = s.reply := rfl
@[simp] theorem setFreq_freeCount (sym : Nat) (v : Word) : (setFreq sym v s).freeCount = s.freeCount := rfl

/-! ### setNode: a node memory write (R41): only NODE changes -/

@[simp] theorem setNode_busy (i : Nat) (n : Node) : (setNode i n s).busy = s.busy := rfl
@[simp] theorem setNode_done (i : Nat) (n : Node) : (setNode i n s).done = s.done := rfl
@[simp] theorem setNode_err (i : Nat) (n : Node) : (setNode i n s).err = s.err := rfl
@[simp] theorem setNode_treeValid (i : Nat) (n : Node) : (setNode i n s).treeValid = s.treeValid := rfl
@[simp] theorem setNode_tableValid (i : Nat) (n : Node) : (setNode i n s).tableValid = s.tableValid := rfl
@[simp] theorem setNode_errCode (i : Nat) (n : Node) : (setNode i n s).errCode = s.errCode := rfl
@[simp] theorem setNode_errDetail (i : Nat) (n : Node) : (setNode i n s).errDetail = s.errDetail := rfl
@[simp] theorem setNode_errStep (i : Nat) (n : Node) : (setNode i n s).errStep = s.errStep := rfl
@[simp] theorem setNode_errInfo (i : Nat) (n : Node) : (setNode i n s).errInfo = s.errInfo := rfl
@[simp] theorem setNode_doneIE (i : Nat) (n : Node) : (setNode i n s).doneIE = s.doneIE := rfl
@[simp] theorem setNode_errIE (i : Nat) (n : Node) : (setNode i n s).errIE = s.errIE := rfl
@[simp] theorem setNode_inPos (i : Nat) (n : Node) : (setNode i n s).inPos = s.inPos := rfl
@[simp] theorem setNode_nodeCount (i : Nat) (n : Node) : (setNode i n s).nodeCount = s.nodeCount := rfl
@[simp] theorem setNode_root (i : Nat) (n : Node) : (setNode i n s).root = s.root := rfl
@[simp] theorem setNode_lastMagic (i : Nat) (n : Node) : (setNode i n s).lastMagic = s.lastMagic := rfl
@[simp] theorem setNode_countTotal (i : Nat) (n : Node) : (setNode i n s).countTotal = s.countTotal := rfl
@[simp] theorem setNode_freq (i : Nat) (n : Node) : (setNode i n s).freq = s.freq := rfl
@[simp] theorem setNode_nodes (i : Nat) (n : Node) : (setNode i n s).nodes = s.nodes.setIfInBounds i n := rfl
@[simp] theorem setNode_codes (i : Nat) (n : Node) : (setNode i n s).codes = s.codes := rfl
@[simp] theorem setNode_inBits (i : Nat) (n : Node) : (setNode i n s).inBits = s.inBits := rfl
@[simp] theorem setNode_outBits (i : Nat) (n : Node) : (setNode i n s).outBits = s.outBits := rfl
@[simp] theorem setNode_host (i : Nat) (n : Node) : (setNode i n s).host = s.host := rfl
@[simp] theorem setNode_reply (i : Nat) (n : Node) : (setNode i n s).reply = s.reply := rfl
@[simp] theorem setNode_freeCount (i : Nat) (n : Node) : (setNode i n s).freeCount = s.freeCount := rfl

/-! ### pushNode: a new node (R90, R104): only NODE and NODE_COUNT change -/

@[simp] theorem pushNode_busy (n : Node) : (pushNode n s).busy = s.busy := rfl
@[simp] theorem pushNode_done (n : Node) : (pushNode n s).done = s.done := rfl
@[simp] theorem pushNode_err (n : Node) : (pushNode n s).err = s.err := rfl
@[simp] theorem pushNode_treeValid (n : Node) : (pushNode n s).treeValid = s.treeValid := rfl
@[simp] theorem pushNode_tableValid (n : Node) : (pushNode n s).tableValid = s.tableValid := rfl
@[simp] theorem pushNode_errCode (n : Node) : (pushNode n s).errCode = s.errCode := rfl
@[simp] theorem pushNode_errDetail (n : Node) : (pushNode n s).errDetail = s.errDetail := rfl
@[simp] theorem pushNode_errStep (n : Node) : (pushNode n s).errStep = s.errStep := rfl
@[simp] theorem pushNode_errInfo (n : Node) : (pushNode n s).errInfo = s.errInfo := rfl
@[simp] theorem pushNode_doneIE (n : Node) : (pushNode n s).doneIE = s.doneIE := rfl
@[simp] theorem pushNode_errIE (n : Node) : (pushNode n s).errIE = s.errIE := rfl
@[simp] theorem pushNode_inPos (n : Node) : (pushNode n s).inPos = s.inPos := rfl
@[simp] theorem pushNode_nodeCount (n : Node) : (pushNode n s).nodeCount = s.nodeCount + 1#10 := rfl
@[simp] theorem pushNode_root (n : Node) : (pushNode n s).root = s.root := rfl
@[simp] theorem pushNode_lastMagic (n : Node) : (pushNode n s).lastMagic = s.lastMagic := rfl
@[simp] theorem pushNode_countTotal (n : Node) : (pushNode n s).countTotal = s.countTotal := rfl
@[simp] theorem pushNode_freq (n : Node) : (pushNode n s).freq = s.freq := rfl
@[simp] theorem pushNode_nodes (n : Node) : (pushNode n s).nodes = s.nodes.setIfInBounds s.nodeCount.toNat n := rfl
@[simp] theorem pushNode_codes (n : Node) : (pushNode n s).codes = s.codes := rfl
@[simp] theorem pushNode_inBits (n : Node) : (pushNode n s).inBits = s.inBits := rfl
@[simp] theorem pushNode_outBits (n : Node) : (pushNode n s).outBits = s.outBits := rfl
@[simp] theorem pushNode_host (n : Node) : (pushNode n s).host = s.host := rfl
@[simp] theorem pushNode_reply (n : Node) : (pushNode n s).reply = s.reply := rfl
@[simp] theorem pushNode_freeCount (n : Node) : (pushNode n s).freeCount = s.freeCount := rfl

/-! ### setCode: a code table write (R43): only CODE changes -/

@[simp] theorem setCode_busy (sym : Nat) (c : Code) : (setCode sym c s).busy = s.busy := rfl
@[simp] theorem setCode_done (sym : Nat) (c : Code) : (setCode sym c s).done = s.done := rfl
@[simp] theorem setCode_err (sym : Nat) (c : Code) : (setCode sym c s).err = s.err := rfl
@[simp] theorem setCode_treeValid (sym : Nat) (c : Code) : (setCode sym c s).treeValid = s.treeValid := rfl
@[simp] theorem setCode_tableValid (sym : Nat) (c : Code) : (setCode sym c s).tableValid = s.tableValid := rfl
@[simp] theorem setCode_errCode (sym : Nat) (c : Code) : (setCode sym c s).errCode = s.errCode := rfl
@[simp] theorem setCode_errDetail (sym : Nat) (c : Code) : (setCode sym c s).errDetail = s.errDetail := rfl
@[simp] theorem setCode_errStep (sym : Nat) (c : Code) : (setCode sym c s).errStep = s.errStep := rfl
@[simp] theorem setCode_errInfo (sym : Nat) (c : Code) : (setCode sym c s).errInfo = s.errInfo := rfl
@[simp] theorem setCode_doneIE (sym : Nat) (c : Code) : (setCode sym c s).doneIE = s.doneIE := rfl
@[simp] theorem setCode_errIE (sym : Nat) (c : Code) : (setCode sym c s).errIE = s.errIE := rfl
@[simp] theorem setCode_inPos (sym : Nat) (c : Code) : (setCode sym c s).inPos = s.inPos := rfl
@[simp] theorem setCode_nodeCount (sym : Nat) (c : Code) : (setCode sym c s).nodeCount = s.nodeCount := rfl
@[simp] theorem setCode_root (sym : Nat) (c : Code) : (setCode sym c s).root = s.root := rfl
@[simp] theorem setCode_lastMagic (sym : Nat) (c : Code) : (setCode sym c s).lastMagic = s.lastMagic := rfl
@[simp] theorem setCode_countTotal (sym : Nat) (c : Code) : (setCode sym c s).countTotal = s.countTotal := rfl
@[simp] theorem setCode_freq (sym : Nat) (c : Code) : (setCode sym c s).freq = s.freq := rfl
@[simp] theorem setCode_nodes (sym : Nat) (c : Code) : (setCode sym c s).nodes = s.nodes := rfl
@[simp] theorem setCode_codes (sym : Nat) (c : Code) : (setCode sym c s).codes = s.codes.setIfInBounds sym c := rfl
@[simp] theorem setCode_inBits (sym : Nat) (c : Code) : (setCode sym c s).inBits = s.inBits := rfl
@[simp] theorem setCode_outBits (sym : Nat) (c : Code) : (setCode sym c s).outBits = s.outBits := rfl
@[simp] theorem setCode_host (sym : Nat) (c : Code) : (setCode sym c s).host = s.host := rfl
@[simp] theorem setCode_reply (sym : Nat) (c : Code) : (setCode sym c s).reply = s.reply := rfl
@[simp] theorem setCode_freeCount (sym : Nat) (c : Code) : (setCode sym c s).freeCount = s.freeCount := rfl

/-! ### dropTree: how BUILD and DESERIALIZE begin (R90, R104) -/

@[simp] theorem dropTree_busy : (dropTree s).busy = s.busy := rfl
@[simp] theorem dropTree_done : (dropTree s).done = s.done := rfl
@[simp] theorem dropTree_err : (dropTree s).err = s.err := rfl
@[simp] theorem dropTree_treeValid : (dropTree s).treeValid = false := rfl
@[simp] theorem dropTree_tableValid : (dropTree s).tableValid = false := rfl
@[simp] theorem dropTree_errCode : (dropTree s).errCode = s.errCode := rfl
@[simp] theorem dropTree_errDetail : (dropTree s).errDetail = s.errDetail := rfl
@[simp] theorem dropTree_errStep : (dropTree s).errStep = s.errStep := rfl
@[simp] theorem dropTree_errInfo : (dropTree s).errInfo = s.errInfo := rfl
@[simp] theorem dropTree_doneIE : (dropTree s).doneIE = s.doneIE := rfl
@[simp] theorem dropTree_errIE : (dropTree s).errIE = s.errIE := rfl
@[simp] theorem dropTree_inPos : (dropTree s).inPos = s.inPos := rfl
@[simp] theorem dropTree_nodeCount : (dropTree s).nodeCount = 0#10 := rfl
@[simp] theorem dropTree_root : (dropTree s).root = 0#10 := rfl
@[simp] theorem dropTree_lastMagic : (dropTree s).lastMagic = s.lastMagic := rfl
@[simp] theorem dropTree_countTotal : (dropTree s).countTotal = s.countTotal := rfl
@[simp] theorem dropTree_freq : (dropTree s).freq = s.freq := rfl
@[simp] theorem dropTree_nodes : (dropTree s).nodes = s.nodes := rfl
@[simp] theorem dropTree_codes : (dropTree s).codes = s.codes := rfl
@[simp] theorem dropTree_inBits : (dropTree s).inBits = s.inBits := rfl
@[simp] theorem dropTree_outBits : (dropTree s).outBits = s.outBits := rfl
@[simp] theorem dropTree_host : (dropTree s).host = s.host := rfl
@[simp] theorem dropTree_reply : (dropTree s).reply = s.reply := rfl
@[simp] theorem dropTree_freeCount : (dropTree s).freeCount = s.freeCount := rfl

/-! ### dropCounts: how COUNT begins (R80) -/

@[simp] theorem dropCounts_busy : (dropCounts s).busy = s.busy := rfl
@[simp] theorem dropCounts_done : (dropCounts s).done = s.done := rfl
@[simp] theorem dropCounts_err : (dropCounts s).err = s.err := rfl
@[simp] theorem dropCounts_treeValid : (dropCounts s).treeValid = s.treeValid := rfl
@[simp] theorem dropCounts_tableValid : (dropCounts s).tableValid = s.tableValid := rfl
@[simp] theorem dropCounts_errCode : (dropCounts s).errCode = s.errCode := rfl
@[simp] theorem dropCounts_errDetail : (dropCounts s).errDetail = s.errDetail := rfl
@[simp] theorem dropCounts_errStep : (dropCounts s).errStep = s.errStep := rfl
@[simp] theorem dropCounts_errInfo : (dropCounts s).errInfo = s.errInfo := rfl
@[simp] theorem dropCounts_doneIE : (dropCounts s).doneIE = s.doneIE := rfl
@[simp] theorem dropCounts_errIE : (dropCounts s).errIE = s.errIE := rfl
@[simp] theorem dropCounts_inPos : (dropCounts s).inPos = s.inPos := rfl
@[simp] theorem dropCounts_nodeCount : (dropCounts s).nodeCount = s.nodeCount := rfl
@[simp] theorem dropCounts_root : (dropCounts s).root = s.root := rfl
@[simp] theorem dropCounts_lastMagic : (dropCounts s).lastMagic = s.lastMagic := rfl
@[simp] theorem dropCounts_countTotal : (dropCounts s).countTotal = 0#32 := rfl
@[simp] theorem dropCounts_freq : (dropCounts s).freq = Vector.replicate 256 0#32 := rfl
@[simp] theorem dropCounts_nodes : (dropCounts s).nodes = s.nodes := rfl
@[simp] theorem dropCounts_codes : (dropCounts s).codes = s.codes := rfl
@[simp] theorem dropCounts_inBits : (dropCounts s).inBits = s.inBits := rfl
@[simp] theorem dropCounts_outBits : (dropCounts s).outBits = s.outBits := rfl
@[simp] theorem dropCounts_host : (dropCounts s).host = s.host := rfl
@[simp] theorem dropCounts_reply : (dropCounts s).reply = s.reply := rfl
@[simp] theorem dropCounts_freeCount : (dropCounts s).freeCount = s.freeCount := rfl

/-! ### countByte: one byte counted (R84) -/

@[simp] theorem countByte_busy (r : Nat) : (countByte r s).busy = s.busy := rfl
@[simp] theorem countByte_done (r : Nat) : (countByte r s).done = s.done := rfl
@[simp] theorem countByte_err (r : Nat) : (countByte r s).err = s.err := rfl
@[simp] theorem countByte_treeValid (r : Nat) : (countByte r s).treeValid = s.treeValid := rfl
@[simp] theorem countByte_tableValid (r : Nat) : (countByte r s).tableValid = s.tableValid := rfl
@[simp] theorem countByte_errCode (r : Nat) : (countByte r s).errCode = s.errCode := rfl
@[simp] theorem countByte_errDetail (r : Nat) : (countByte r s).errDetail = s.errDetail := rfl
@[simp] theorem countByte_errStep (r : Nat) : (countByte r s).errStep = s.errStep := rfl
@[simp] theorem countByte_errInfo (r : Nat) : (countByte r s).errInfo = s.errInfo := rfl
@[simp] theorem countByte_doneIE (r : Nat) : (countByte r s).doneIE = s.doneIE := rfl
@[simp] theorem countByte_errIE (r : Nat) : (countByte r s).errIE = s.errIE := rfl
@[simp] theorem countByte_inPos (r : Nat) : (countByte r s).inPos = s.inPos := rfl
@[simp] theorem countByte_nodeCount (r : Nat) : (countByte r s).nodeCount = s.nodeCount := rfl
@[simp] theorem countByte_root (r : Nat) : (countByte r s).root = s.root := rfl
@[simp] theorem countByte_lastMagic (r : Nat) : (countByte r s).lastMagic = s.lastMagic := rfl
@[simp] theorem countByte_countTotal (r : Nat) : (countByte r s).countTotal = s.countTotal + 1#32 := rfl
@[simp] theorem countByte_freq (r : Nat) : (countByte r s).freq = s.freq.setIfInBounds r (freqAt s r + 1#32) := rfl
@[simp] theorem countByte_nodes (r : Nat) : (countByte r s).nodes = s.nodes := rfl
@[simp] theorem countByte_codes (r : Nat) : (countByte r s).codes = s.codes := rfl
@[simp] theorem countByte_inBits (r : Nat) : (countByte r s).inBits = s.inBits := rfl
@[simp] theorem countByte_outBits (r : Nat) : (countByte r s).outBits = s.outBits := rfl
@[simp] theorem countByte_host (r : Nat) : (countByte r s).host = s.host := rfl
@[simp] theorem countByte_reply (r : Nat) : (countByte r s).reply = s.reply := rfl
@[simp] theorem countByte_freeCount (r : Nat) : (countByte r s).freeCount = s.freeCount := rfl

/-! ### cleared: the start of a command (R160) -/

@[simp] theorem cleared_busy : (cleared s).busy = s.busy := rfl
@[simp] theorem cleared_done : (cleared s).done = false := rfl
@[simp] theorem cleared_err : (cleared s).err = s.err := rfl
@[simp] theorem cleared_treeValid : (cleared s).treeValid = s.treeValid := rfl
@[simp] theorem cleared_tableValid : (cleared s).tableValid = s.tableValid := rfl
@[simp] theorem cleared_errCode : (cleared s).errCode = 0#8 := rfl
@[simp] theorem cleared_errDetail : (cleared s).errDetail = 0#8 := rfl
@[simp] theorem cleared_errStep : (cleared s).errStep = 0#8 := rfl
@[simp] theorem cleared_errInfo : (cleared s).errInfo = 0#32 := rfl
@[simp] theorem cleared_doneIE : (cleared s).doneIE = s.doneIE := rfl
@[simp] theorem cleared_errIE : (cleared s).errIE = s.errIE := rfl
@[simp] theorem cleared_inPos : (cleared s).inPos = s.inPos := rfl
@[simp] theorem cleared_nodeCount : (cleared s).nodeCount = s.nodeCount := rfl
@[simp] theorem cleared_root : (cleared s).root = s.root := rfl
@[simp] theorem cleared_lastMagic : (cleared s).lastMagic = s.lastMagic := rfl
@[simp] theorem cleared_countTotal : (cleared s).countTotal = s.countTotal := rfl
@[simp] theorem cleared_freq : (cleared s).freq = s.freq := rfl
@[simp] theorem cleared_nodes : (cleared s).nodes = s.nodes := rfl
@[simp] theorem cleared_codes : (cleared s).codes = s.codes := rfl
@[simp] theorem cleared_inBits : (cleared s).inBits = s.inBits := rfl
@[simp] theorem cleared_outBits : (cleared s).outBits = s.outBits := rfl
@[simp] theorem cleared_host : (cleared s).host = s.host := rfl
@[simp] theorem cleared_reply : (cleared s).reply = s.reply := rfl
@[simp] theorem cleared_freeCount : (cleared s).freeCount = s.freeCount := rfl

/-! ### started: the start of a command, BUSY = 1 (R160) -/

@[simp] theorem started_busy : (started s).busy = true := rfl
@[simp] theorem started_done : (started s).done = false := rfl
@[simp] theorem started_err : (started s).err = s.err := rfl
@[simp] theorem started_treeValid : (started s).treeValid = s.treeValid := rfl
@[simp] theorem started_tableValid : (started s).tableValid = s.tableValid := rfl
@[simp] theorem started_errCode : (started s).errCode = 0#8 := rfl
@[simp] theorem started_errDetail : (started s).errDetail = 0#8 := rfl
@[simp] theorem started_errStep : (started s).errStep = 0#8 := rfl
@[simp] theorem started_errInfo : (started s).errInfo = 0#32 := rfl
@[simp] theorem started_doneIE : (started s).doneIE = s.doneIE := rfl
@[simp] theorem started_errIE : (started s).errIE = s.errIE := rfl
@[simp] theorem started_inPos : (started s).inPos = s.inPos := rfl
@[simp] theorem started_nodeCount : (started s).nodeCount = s.nodeCount := rfl
@[simp] theorem started_root : (started s).root = s.root := rfl
@[simp] theorem started_lastMagic : (started s).lastMagic = s.lastMagic := rfl
@[simp] theorem started_countTotal : (started s).countTotal = s.countTotal := rfl
@[simp] theorem started_freq : (started s).freq = s.freq := rfl
@[simp] theorem started_nodes : (started s).nodes = s.nodes := rfl
@[simp] theorem started_codes : (started s).codes = s.codes := rfl
@[simp] theorem started_inBits : (started s).inBits = s.inBits := rfl
@[simp] theorem started_outBits : (started s).outBits = s.outBits := rfl
@[simp] theorem started_host : (started s).host = s.host := rfl
@[simp] theorem started_reply : (started s).reply = s.reply := rfl
@[simp] theorem started_freeCount : (started s).freeCount = s.freeCount := rfl

/-! ### finished: `finish` (R161) -/

@[simp] theorem finished_busy : (finished s).busy = false := rfl
@[simp] theorem finished_done : (finished s).done = true := rfl
@[simp] theorem finished_err : (finished s).err = s.err := rfl
@[simp] theorem finished_treeValid : (finished s).treeValid = s.treeValid := rfl
@[simp] theorem finished_tableValid : (finished s).tableValid = s.tableValid := rfl
@[simp] theorem finished_errCode : (finished s).errCode = s.errCode := rfl
@[simp] theorem finished_errDetail : (finished s).errDetail = s.errDetail := rfl
@[simp] theorem finished_errStep : (finished s).errStep = s.errStep := rfl
@[simp] theorem finished_errInfo : (finished s).errInfo = s.errInfo := rfl
@[simp] theorem finished_doneIE : (finished s).doneIE = s.doneIE := rfl
@[simp] theorem finished_errIE : (finished s).errIE = s.errIE := rfl
@[simp] theorem finished_inPos : (finished s).inPos = s.inPos := rfl
@[simp] theorem finished_nodeCount : (finished s).nodeCount = s.nodeCount := rfl
@[simp] theorem finished_root : (finished s).root = s.root := rfl
@[simp] theorem finished_lastMagic : (finished s).lastMagic = s.lastMagic := rfl
@[simp] theorem finished_countTotal : (finished s).countTotal = s.countTotal := rfl
@[simp] theorem finished_freq : (finished s).freq = s.freq := rfl
@[simp] theorem finished_nodes : (finished s).nodes = s.nodes := rfl
@[simp] theorem finished_codes : (finished s).codes = s.codes := rfl
@[simp] theorem finished_inBits : (finished s).inBits = s.inBits := rfl
@[simp] theorem finished_outBits : (finished s).outBits = s.outBits := rfl
@[simp] theorem finished_host : (finished s).host = s.host := rfl
@[simp] theorem finished_reply : (finished s).reply = s.reply := rfl
@[simp] theorem finished_freeCount : (finished s).freeCount = s.freeCount := rfl

/-! ### raised: `raise` (R162) -/

@[simp] theorem raised_busy (step : BitVec 8) (e : Err) (detail : BitVec 8) (info : Nat) : (raised step e detail info s).busy = false := rfl
@[simp] theorem raised_done (step : BitVec 8) (e : Err) (detail : BitVec 8) (info : Nat) : (raised step e detail info s).done = false := rfl
@[simp] theorem raised_err (step : BitVec 8) (e : Err) (detail : BitVec 8) (info : Nat) : (raised step e detail info s).err = true := rfl
@[simp] theorem raised_treeValid (step : BitVec 8) (e : Err) (detail : BitVec 8) (info : Nat) : (raised step e detail info s).treeValid = s.treeValid := rfl
@[simp] theorem raised_tableValid (step : BitVec 8) (e : Err) (detail : BitVec 8) (info : Nat) : (raised step e detail info s).tableValid = s.tableValid := rfl
@[simp] theorem raised_errCode (step : BitVec 8) (e : Err) (detail : BitVec 8) (info : Nat) : (raised step e detail info s).errCode = errCodeOf e := rfl
@[simp] theorem raised_errDetail (step : BitVec 8) (e : Err) (detail : BitVec 8) (info : Nat) : (raised step e detail info s).errDetail = detail := rfl
@[simp] theorem raised_errStep (step : BitVec 8) (e : Err) (detail : BitVec 8) (info : Nat) : (raised step e detail info s).errStep = step := rfl
@[simp] theorem raised_errInfo (step : BitVec 8) (e : Err) (detail : BitVec 8) (info : Nat) : (raised step e detail info s).errInfo = BitVec.ofNat 32 info := rfl
@[simp] theorem raised_doneIE (step : BitVec 8) (e : Err) (detail : BitVec 8) (info : Nat) : (raised step e detail info s).doneIE = s.doneIE := rfl
@[simp] theorem raised_errIE (step : BitVec 8) (e : Err) (detail : BitVec 8) (info : Nat) : (raised step e detail info s).errIE = s.errIE := rfl
@[simp] theorem raised_inPos (step : BitVec 8) (e : Err) (detail : BitVec 8) (info : Nat) : (raised step e detail info s).inPos = s.inPos := rfl
@[simp] theorem raised_nodeCount (step : BitVec 8) (e : Err) (detail : BitVec 8) (info : Nat) : (raised step e detail info s).nodeCount = s.nodeCount := rfl
@[simp] theorem raised_root (step : BitVec 8) (e : Err) (detail : BitVec 8) (info : Nat) : (raised step e detail info s).root = s.root := rfl
@[simp] theorem raised_lastMagic (step : BitVec 8) (e : Err) (detail : BitVec 8) (info : Nat) : (raised step e detail info s).lastMagic = s.lastMagic := rfl
@[simp] theorem raised_countTotal (step : BitVec 8) (e : Err) (detail : BitVec 8) (info : Nat) : (raised step e detail info s).countTotal = s.countTotal := rfl
@[simp] theorem raised_freq (step : BitVec 8) (e : Err) (detail : BitVec 8) (info : Nat) : (raised step e detail info s).freq = s.freq := rfl
@[simp] theorem raised_nodes (step : BitVec 8) (e : Err) (detail : BitVec 8) (info : Nat) : (raised step e detail info s).nodes = s.nodes := rfl
@[simp] theorem raised_codes (step : BitVec 8) (e : Err) (detail : BitVec 8) (info : Nat) : (raised step e detail info s).codes = s.codes := rfl
@[simp] theorem raised_inBits (step : BitVec 8) (e : Err) (detail : BitVec 8) (info : Nat) : (raised step e detail info s).inBits = s.inBits := rfl
@[simp] theorem raised_outBits (step : BitVec 8) (e : Err) (detail : BitVec 8) (info : Nat) : (raised step e detail info s).outBits = s.outBits := rfl
@[simp] theorem raised_host (step : BitVec 8) (e : Err) (detail : BitVec 8) (info : Nat) : (raised step e detail info s).host = s.host := rfl
@[simp] theorem raised_reply (step : BitVec 8) (e : Err) (detail : BitVec 8) (info : Nat) : (raised step e detail info s).reply = s.reply := rfl
@[simp] theorem raised_freeCount (step : BitVec 8) (e : Err) (detail : BitVec 8) (info : Nat) : (raised step e detail info s).freeCount = s.freeCount := rfl

/-! ### acknowledge: a STATUS write (R26, R166) -/

@[simp] theorem acknowledge_busy (v : Word) : (acknowledge v s).busy = s.busy := rfl
@[simp] theorem acknowledge_done (v : Word) : (acknowledge v s).done = (s.done && !v.getLsbD 1) := rfl
@[simp] theorem acknowledge_err (v : Word) : (acknowledge v s).err = (s.err && !v.getLsbD 2) := rfl
@[simp] theorem acknowledge_treeValid (v : Word) : (acknowledge v s).treeValid = s.treeValid := rfl
@[simp] theorem acknowledge_tableValid (v : Word) : (acknowledge v s).tableValid = s.tableValid := rfl
@[simp] theorem acknowledge_errCode (v : Word) : (acknowledge v s).errCode = s.errCode := rfl
@[simp] theorem acknowledge_errDetail (v : Word) : (acknowledge v s).errDetail = s.errDetail := rfl
@[simp] theorem acknowledge_errStep (v : Word) : (acknowledge v s).errStep = s.errStep := rfl
@[simp] theorem acknowledge_errInfo (v : Word) : (acknowledge v s).errInfo = s.errInfo := rfl
@[simp] theorem acknowledge_doneIE (v : Word) : (acknowledge v s).doneIE = s.doneIE := rfl
@[simp] theorem acknowledge_errIE (v : Word) : (acknowledge v s).errIE = s.errIE := rfl
@[simp] theorem acknowledge_inPos (v : Word) : (acknowledge v s).inPos = s.inPos := rfl
@[simp] theorem acknowledge_nodeCount (v : Word) : (acknowledge v s).nodeCount = s.nodeCount := rfl
@[simp] theorem acknowledge_root (v : Word) : (acknowledge v s).root = s.root := rfl
@[simp] theorem acknowledge_lastMagic (v : Word) : (acknowledge v s).lastMagic = s.lastMagic := rfl
@[simp] theorem acknowledge_countTotal (v : Word) : (acknowledge v s).countTotal = s.countTotal := rfl
@[simp] theorem acknowledge_freq (v : Word) : (acknowledge v s).freq = s.freq := rfl
@[simp] theorem acknowledge_nodes (v : Word) : (acknowledge v s).nodes = s.nodes := rfl
@[simp] theorem acknowledge_codes (v : Word) : (acknowledge v s).codes = s.codes := rfl
@[simp] theorem acknowledge_inBits (v : Word) : (acknowledge v s).inBits = s.inBits := rfl
@[simp] theorem acknowledge_outBits (v : Word) : (acknowledge v s).outBits = s.outBits := rfl
@[simp] theorem acknowledge_host (v : Word) : (acknowledge v s).host = s.host := rfl
@[simp] theorem acknowledge_reply (v : Word) : (acknowledge v s).reply = s.reply := rfl
@[simp] theorem acknowledge_freeCount (v : Word) : (acknowledge v s).freeCount = s.freeCount := rfl

/-! ### writeIntEn: an INT_EN write (R30) -/

@[simp] theorem writeIntEn_busy (v : Word) : (writeIntEn v s).busy = s.busy := rfl
@[simp] theorem writeIntEn_done (v : Word) : (writeIntEn v s).done = s.done := rfl
@[simp] theorem writeIntEn_err (v : Word) : (writeIntEn v s).err = s.err := rfl
@[simp] theorem writeIntEn_treeValid (v : Word) : (writeIntEn v s).treeValid = s.treeValid := rfl
@[simp] theorem writeIntEn_tableValid (v : Word) : (writeIntEn v s).tableValid = s.tableValid := rfl
@[simp] theorem writeIntEn_errCode (v : Word) : (writeIntEn v s).errCode = s.errCode := rfl
@[simp] theorem writeIntEn_errDetail (v : Word) : (writeIntEn v s).errDetail = s.errDetail := rfl
@[simp] theorem writeIntEn_errStep (v : Word) : (writeIntEn v s).errStep = s.errStep := rfl
@[simp] theorem writeIntEn_errInfo (v : Word) : (writeIntEn v s).errInfo = s.errInfo := rfl
@[simp] theorem writeIntEn_doneIE (v : Word) : (writeIntEn v s).doneIE = v.getLsbD 0 := rfl
@[simp] theorem writeIntEn_errIE (v : Word) : (writeIntEn v s).errIE = v.getLsbD 1 := rfl
@[simp] theorem writeIntEn_inPos (v : Word) : (writeIntEn v s).inPos = s.inPos := rfl
@[simp] theorem writeIntEn_nodeCount (v : Word) : (writeIntEn v s).nodeCount = s.nodeCount := rfl
@[simp] theorem writeIntEn_root (v : Word) : (writeIntEn v s).root = s.root := rfl
@[simp] theorem writeIntEn_lastMagic (v : Word) : (writeIntEn v s).lastMagic = s.lastMagic := rfl
@[simp] theorem writeIntEn_countTotal (v : Word) : (writeIntEn v s).countTotal = s.countTotal := rfl
@[simp] theorem writeIntEn_freq (v : Word) : (writeIntEn v s).freq = s.freq := rfl
@[simp] theorem writeIntEn_nodes (v : Word) : (writeIntEn v s).nodes = s.nodes := rfl
@[simp] theorem writeIntEn_codes (v : Word) : (writeIntEn v s).codes = s.codes := rfl
@[simp] theorem writeIntEn_inBits (v : Word) : (writeIntEn v s).inBits = s.inBits := rfl
@[simp] theorem writeIntEn_outBits (v : Word) : (writeIntEn v s).outBits = s.outBits := rfl
@[simp] theorem writeIntEn_host (v : Word) : (writeIntEn v s).host = s.host := rfl
@[simp] theorem writeIntEn_reply (v : Word) : (writeIntEn v s).reply = s.reply := rfl
@[simp] theorem writeIntEn_freeCount (v : Word) : (writeIntEn v s).freeCount = s.freeCount := rfl

/-! ### resetBlock: the reset of the block (R190, R191) -/

@[simp] theorem resetBlock_busy : (resetBlock s).busy = false := rfl
@[simp] theorem resetBlock_done : (resetBlock s).done = false := rfl
@[simp] theorem resetBlock_err : (resetBlock s).err = false := rfl
@[simp] theorem resetBlock_treeValid : (resetBlock s).treeValid = false := rfl
@[simp] theorem resetBlock_tableValid : (resetBlock s).tableValid = false := rfl
@[simp] theorem resetBlock_errCode : (resetBlock s).errCode = 0#8 := rfl
@[simp] theorem resetBlock_errDetail : (resetBlock s).errDetail = 0#8 := rfl
@[simp] theorem resetBlock_errStep : (resetBlock s).errStep = 0#8 := rfl
@[simp] theorem resetBlock_errInfo : (resetBlock s).errInfo = 0#32 := rfl
@[simp] theorem resetBlock_doneIE : (resetBlock s).doneIE = false := rfl
@[simp] theorem resetBlock_errIE : (resetBlock s).errIE = false := rfl
@[simp] theorem resetBlock_inPos : (resetBlock s).inPos = 0#64 := rfl
@[simp] theorem resetBlock_nodeCount : (resetBlock s).nodeCount = 0#10 := rfl
@[simp] theorem resetBlock_root : (resetBlock s).root = 0#10 := rfl
@[simp] theorem resetBlock_lastMagic : (resetBlock s).lastMagic = 0#32 := rfl
@[simp] theorem resetBlock_countTotal : (resetBlock s).countTotal = 0#32 := rfl
@[simp] theorem resetBlock_freq : (resetBlock s).freq = Vector.replicate 256 0#32 := rfl
@[simp] theorem resetBlock_nodes : (resetBlock s).nodes = Vector.replicate 513 Node.zero := rfl
@[simp] theorem resetBlock_codes : (resetBlock s).codes = Vector.replicate 257 Code.none := rfl
@[simp] theorem resetBlock_inBits : (resetBlock s).inBits = s.inBits := rfl
@[simp] theorem resetBlock_outBits : (resetBlock s).outBits = s.outBits := rfl
@[simp] theorem resetBlock_host : (resetBlock s).host = s.host := rfl
@[simp] theorem resetBlock_reply : (resetBlock s).reply = s.reply := rfl
@[simp] theorem resetBlock_freeCount : (resetBlock s).freeCount = s.freeCount := rfl

/-! ### popAction: the host's next action taken from its list -/

@[simp] theorem popAction_busy (rest : List HostAction) : (popAction rest s).busy = s.busy := rfl
@[simp] theorem popAction_done (rest : List HostAction) : (popAction rest s).done = s.done := rfl
@[simp] theorem popAction_err (rest : List HostAction) : (popAction rest s).err = s.err := rfl
@[simp] theorem popAction_treeValid (rest : List HostAction) : (popAction rest s).treeValid = s.treeValid := rfl
@[simp] theorem popAction_tableValid (rest : List HostAction) : (popAction rest s).tableValid = s.tableValid := rfl
@[simp] theorem popAction_errCode (rest : List HostAction) : (popAction rest s).errCode = s.errCode := rfl
@[simp] theorem popAction_errDetail (rest : List HostAction) : (popAction rest s).errDetail = s.errDetail := rfl
@[simp] theorem popAction_errStep (rest : List HostAction) : (popAction rest s).errStep = s.errStep := rfl
@[simp] theorem popAction_errInfo (rest : List HostAction) : (popAction rest s).errInfo = s.errInfo := rfl
@[simp] theorem popAction_doneIE (rest : List HostAction) : (popAction rest s).doneIE = s.doneIE := rfl
@[simp] theorem popAction_errIE (rest : List HostAction) : (popAction rest s).errIE = s.errIE := rfl
@[simp] theorem popAction_inPos (rest : List HostAction) : (popAction rest s).inPos = s.inPos := rfl
@[simp] theorem popAction_nodeCount (rest : List HostAction) : (popAction rest s).nodeCount = s.nodeCount := rfl
@[simp] theorem popAction_root (rest : List HostAction) : (popAction rest s).root = s.root := rfl
@[simp] theorem popAction_lastMagic (rest : List HostAction) : (popAction rest s).lastMagic = s.lastMagic := rfl
@[simp] theorem popAction_countTotal (rest : List HostAction) : (popAction rest s).countTotal = s.countTotal := rfl
@[simp] theorem popAction_freq (rest : List HostAction) : (popAction rest s).freq = s.freq := rfl
@[simp] theorem popAction_nodes (rest : List HostAction) : (popAction rest s).nodes = s.nodes := rfl
@[simp] theorem popAction_codes (rest : List HostAction) : (popAction rest s).codes = s.codes := rfl
@[simp] theorem popAction_inBits (rest : List HostAction) : (popAction rest s).inBits = s.inBits := rfl
@[simp] theorem popAction_outBits (rest : List HostAction) : (popAction rest s).outBits = s.outBits := rfl
@[simp] theorem popAction_host (rest : List HostAction) : (popAction rest s).host = rest := rfl
@[simp] theorem popAction_reply (rest : List HostAction) : (popAction rest s).reply = .nothing := rfl
@[simp] theorem popAction_freeCount (rest : List HostAction) : (popAction rest s).freeCount = s.freeCount := rfl

end Sys2Proof.Machine
end

