-- ==== Sys2Proof/Laws/Bits.lean ====
section
/-!
SUPPORT. Bit sequences: spelling and reading are inverse to each other (R10, R53 to R55).
-/

namespace Sys2Proof.Machine

@[simp] theorem length_spell (n v : Nat) : (spell n v).length = n := by
  induction n with
  | zero => rfl
  | succ n ih => simp [spell, ih]

/-- The k-th bit of a spelling (R10). -/
theorem spell_getElem? {n v k : Nat} (h : k < n) : (spell n v)[k]? = some (v.testBit (n - 1 - k)) := by
  induction n generalizing k with
  | zero => omega
  | succ n ih =>
    cases k with
    | zero => rfl
    | succ k =>
      rw [spell, List.getElem?_cons_succ, ih (by omega)]
      congr 2
      omega

theorem bitsValue_foldl (b : Bits) (a : Nat) :
    b.foldl (fun v bit => 2 * v + bit.toNat) a = a * 2 ^ b.length + bitsValue b := by
  induction b generalizing a with
  | nil => simp [bitsValue]
  | cons x b ih =>
    simp only [List.foldl_cons, List.length_cons, bitsValue]
    rw [ih, ih (2 * 0 + x.toNat)]
    ring

@[simp] theorem bitsValue_nil : bitsValue [] = 0 := rfl

theorem bitsValue_cons (x : Bool) (b : Bits) : bitsValue (x :: b) = x.toNat * 2 ^ b.length + bitsValue b := by
  rw [bitsValue, List.foldl_cons, bitsValue_foldl]
  simp

theorem bitsValue_append (b c : Bits) : bitsValue (b ++ c) = bitsValue b * 2 ^ c.length + bitsValue c := by
  rw [bitsValue, List.foldl_append, bitsValue_foldl]
  rfl

theorem bitsValue_snoc (b : Bits) (x : Bool) : bitsValue (b ++ [x]) = 2 * bitsValue b + x.toNat := by
  rw [bitsValue_append, bitsValue_cons]
  simp [Nat.mul_comm]

theorem bitsValue_lt (b : Bits) : bitsValue b < 2 ^ b.length := by
  induction b with
  | nil => simp
  | cons x b ih =>
    rw [bitsValue_cons, List.length_cons, pow_succ]
    have : x.toNat ≤ 1 := Bool.toNat_le x
    nlinarith

/-- Reading an `n`-bit spelling gives the low `n` bits back (R54, R55). -/
theorem bitsValue_spell (n v : Nat) : bitsValue (spell n v) = v % 2 ^ n := by
  induction n with
  | zero => simp [spell, Nat.mod_one]
  | succ n ih =>
    rw [spell, bitsValue_cons, length_spell, ih, Nat.mod_pow_succ, Nat.toNat_testBit]
    ring

/-- Spelling the value of a bit sequence gives the sequence back (R54, R55). -/
theorem spell_bitsValue (b : Bits) : spell b.length (bitsValue b) = b := by
  have key : ∀ (n v w : Nat), v % 2 ^ n = w % 2 ^ n → spell n v = spell n w := by
    intro n
    induction n with
    | zero => intros; rfl
    | succ n ih =>
      intro v w h
      have ht : v.testBit n = w.testBit n := by
        have := congrArg (fun x => Nat.testBit x n) h
        simpa [Nat.testBit_mod_two_pow] using this
      have hm : v % 2 ^ n = w % 2 ^ n := by
        have := congrArg (· % 2 ^ n) h
        simpa [Nat.mod_mod_of_dvd _ (pow_dvd_pow 2 (Nat.le_succ n))] using this
      rw [spell, spell, ht, ih v w hm]
  induction b with
  | nil => rfl
  | cons x b ih =>
    have hb := bitsValue_lt b
    rw [List.length_cons, spell, bitsValue_cons, key b.length _ (bitsValue b) (by simp), ih]
    congr 1
    cases x
    · simpa using Nat.testBit_lt_two_pow hb
    · rw [Nat.mul_comm, Nat.testBit_two_pow_mul_add _ hb]
      simp

theorem spell_inj {n v w : Nat} (hv : v < 2 ^ n) (hw : w < 2 ^ n) (h : spell n v = spell n w) : v = w := by
  have := congrArg bitsValue h
  simpa [bitsValue_spell, Nat.mod_eq_of_lt, hv, hw] using this

@[simp] theorem bytesToBits_nil : bytesToBits [] = [] := rfl

@[simp] theorem bytesToBits_cons (b : Byte) (bs : List Byte) :
    bytesToBits (b :: bs) = spell 8 b.toNat ++ bytesToBits bs := rfl

@[simp] theorem bytesToBits_append (bs cs : List Byte) :
    bytesToBits (bs ++ cs) = bytesToBits bs ++ bytesToBits cs := by
  simp [bytesToBits]

@[simp] theorem length_bytesToBits (bs : List Byte) : (bytesToBits bs).length = 8 * bs.length := by
  induction bs with
  | nil => rfl
  | cons b bs ih => simp [ih]; ring

/-- The k-th bit of the j-th byte of a file (R53). -/
theorem bytesToBits_getElem? (bs : List Byte) (j : Nat) (h : j < bs.length) (k : Nat) (hk : k < 8) :
    (bytesToBits bs)[8 * j + k]? = some (bs[j].getLsbD (7 - k)) := by
  induction bs generalizing j with
  | nil => simp at h
  | cons b bs ih =>
    rw [bytesToBits_cons]
    cases j with
    | zero =>
      rw [List.getElem?_append_left (by simpa using hk), Nat.mul_zero, Nat.zero_add, spell_getElem? hk]
      rfl
    | succ j =>
      rw [List.getElem?_append_right (by rw [length_spell]; omega), length_spell]
      have e : 8 * (j + 1) + k - 8 = 8 * j + k := by omega
      rw [e, ih j (by simpa using h)]
      rfl

theorem bitsValue_spell_byte (b : Byte) : bitsValue (spell 8 b.toNat) = b.toNat := by
  rw [bitsValue_spell, Nat.mod_eq_of_lt b.isLt]

theorem takeBytes_bytesToBits (bs : List Byte) : takeBytes bs.length (bytesToBits bs) = bs := by
  induction bs with
  | nil => rfl
  | cons b bs ih =>
    simp only [List.length_cons, bytesToBits_cons, takeBytes]
    rw [List.take_left' (by simp), List.drop_left' (by simp), bitsValue_spell_byte, ih]
    simp

/-- A byte file comes out of its bits again (R53). -/
theorem bitsToBytes_bytesToBits (bs : List Byte) : bitsToBytes (bytesToBits bs) = bs := by
  rw [bitsToBytes, length_bytesToBits, Nat.mul_div_cancel_left _ (by norm_num), takeBytes_bytesToBits]

theorem bytesToBits_inj {bs cs : List Byte} (h : bytesToBits bs = bytesToBits cs) : bs = cs := by
  rw [← bitsToBytes_bytesToBits bs, h, bitsToBytes_bytesToBits]

/-- Every bit sequence is a byte file's bits and at most 7 bits more. -/
theorem exists_bytesToBits_append (b : Bits) :
    ∃ (bs : List Byte) (tail : Bits), b = bytesToBits bs ++ tail ∧ tail.length < 8 := by
  induction h : b.length / 8 generalizing b with
  | zero => exact ⟨[], b, by simp, by omega⟩
  | succ n ih =>
    have hl : 8 ≤ b.length := by omega
    obtain ⟨bs, tail, hb, ht⟩ := ih (b.drop 8) (by simp; omega)
    refine ⟨BitVec.ofNat 8 (bitsValue (b.take 8)) :: bs, tail, ?_, ht⟩
    have hlen : (b.take 8).length = 8 := by simp; omega
    have hv : bitsValue (b.take 8) < 2 ^ 8 := by simpa [hlen] using bitsValue_lt (b.take 8)
    have hs : spell 8 (bitsValue (b.take 8)) = b.take 8 := by
      have := spell_bitsValue (b.take 8)
      rwa [hlen] at this
    rw [bytesToBits_cons, BitVec.toNat_ofNat, Nat.mod_eq_of_lt hv, hs, List.append_assoc, ← hb, List.take_append_drop]

/-- A sequence of whole bytes is a byte file's bits. -/
theorem exists_bytesToBits {b : Bits} (h : b.length % 8 = 0) : ∃ bs : List Byte, b = bytesToBits bs := by
  obtain ⟨bs, tail, rfl, ht⟩ := exists_bytesToBits_append b
  rw [List.length_append, length_bytesToBits] at h
  have h0 : tail = [] := List.length_eq_zero_iff.mp (by omega)
  exact ⟨bs, by rw [h0, List.append_nil]⟩

/-- Taking the bytes of whole bytes and loading them again gives the same bits (R53). -/
theorem bytesToBits_bitsToBytes {b : Bits} (h : b.length % 8 = 0) : bytesToBits (bitsToBytes b) = b := by
  obtain ⟨bs, rfl⟩ := exists_bytesToBits h
  rw [bitsToBytes_bytesToBits]

theorem padLength_lt (n : Nat) : padLength n < 8 := Nat.mod_lt _ (by norm_num)

theorem padLength_aligns (n : Nat) : (n + padLength n) % 8 = 0 := by
  unfold padLength
  omega

end Sys2Proof.Machine
end

