-- ==== Sys2Proof/Laws/Ports.lean ====
section
/-!
SUPPORT. What `readBits` can do, in terms of the bits still to be read (R54).
-/

namespace Sys2Proof.Machine

/-- Two states with the same IN port read the same. -/
theorem bitsLeft_congr {s t : State} (hb : t.inBits = s.inBits) (hp : t.inPos = s.inPos) : bitsLeft t = bitsLeft s := by
  simp [bitsLeft, hb, hp]

theorem remaining_congr {s t : State} (hb : t.inBits = s.inBits) (hp : t.inPos = s.inPos) :
    remaining t = remaining s := by
  simp [remaining, hb, hp]

theorem PortOk.congr {s t : State} (h : PortOk s) (hb : t.inBits = s.inBits) (hp : t.inPos = s.inPos) : PortOk t := by
  simpa [PortOk, hb, hp] using h

@[simp] theorem length_remaining (s : State) : (remaining s).length = bitsLeft s := by
  simp [remaining, bitsLeft]

/-- IN_POS does not wrap while it stays within IN (R14). -/
theorem advance_inPos_toNat {s : State} {n : Nat} (h : PortOk s) (hn : n ≤ bitsLeft s) :
    (advance n s).inPos.toNat = s.inPos.toNat + n := by
  obtain ⟨hl, hp⟩ := h
  unfold bitsLeft at hn
  unfold Config.portLimit at hl
  rw [advance_inPos, BitVec.toNat_add, BitVec.toNat_ofNat, Nat.mod_eq_of_lt (a := n) (by omega),
    Nat.mod_eq_of_lt (by omega)]

theorem PortOk.advance {s : State} {n : Nat} (h : PortOk s) (hn : n ≤ bitsLeft s) : PortOk (advance n s) := by
  refine ⟨h.1, ?_⟩
  rw [advance_inPos_toNat h hn, advance_inBits]
  have := h.2
  unfold bitsLeft at hn
  omega

theorem remaining_advance {s : State} {n : Nat} (h : PortOk s) (hn : n ≤ bitsLeft s) :
    remaining (advance n s) = (remaining s).drop n := by
  rw [remaining, advance_inPos_toNat h hn, advance_inBits, remaining, List.drop_drop]

theorem bitsLeft_advance {s : State} {n : Nat} (h : PortOk s) (hn : n ≤ bitsLeft s) :
    bitsLeft (advance n s) = bitsLeft s - n := by
  rw [← length_remaining, remaining_advance h hn, List.length_drop, length_remaining]

theorem advance_zero (s : State) : advance 0 s = s := by
  simp [advance]

theorem advance_advance (m n : Nat) (s : State) : advance n (advance m s) = advance (m + n) s := by
  simp [advance, BitVec.add_assoc, BitVec.ofNat_add]

/-- EXHAUSTED consumes nothing and comes exactly when too few bits are left (R54). -/
theorem readBits_eq_none_iff (n : Nat) (s : State) (w : FieldWidth n) : readBits n s w = none ↔ bitsLeft s < n := by
  unfold readBits
  split <;> simp_all

/-- What a `ReadBits` that is not exhausted answers (R54). -/
theorem readBits_eq_some_iff {n v : Nat} {s t : State} {w : FieldWidth n} :
    readBits n s w = some (v, t) ↔ n ≤ bitsLeft s ∧ v = bitsValue ((remaining s).take n) ∧ t = advance n s := by
  unfold readBits
  split
  · simp; omega
  · simp only [Option.some.injEq, Prod.mk.injEq, remaining]
    constructor
    · rintro ⟨rfl, rfl⟩; exact ⟨by omega, rfl, rfl⟩
    · rintro ⟨_, rfl, rfl⟩; exact ⟨rfl, rfl⟩

/-- A field that stands at IN_POS is read (R54). -/
theorem readBits_of_append {n : Nat} {s : State} {b rest : Bits} (h : remaining s = b ++ rest) (hn : b.length = n)
    (w : FieldWidth n := by decide) : readBits n s w = some (bitsValue b, advance n s) := by
  rw [readBits_eq_some_iff, ← length_remaining, h]
  simp [hn]

/-- A byte that stands at IN_POS is read (R54). -/
theorem readByte_of_append {s : State} {b : Byte} {rest : Bits} (h : remaining s = spell 8 b.toNat ++ rest) :
    readBits Config.byteW s = some (b.toNat, advance 8 s) := by
  rw [readBits_of_append (n := Config.byteW) h (length_spell 8 _), bitsValue_spell_byte]
  rfl

/-- After a field is read the bits behind it remain. -/
theorem remaining_advance_append {n : Nat} {s : State} {b rest : Bits} (hp : PortOk s) (h : remaining s = b ++ rest)
    (hn : b.length = n) : remaining (advance n s) = rest := by
  rw [remaining_advance hp (by rw [← length_remaining, h]; simp; omega), h, ← hn, List.drop_left]

theorem PortOk.advance_append {n : Nat} {s : State} {b rest : Bits} (hp : PortOk s) (h : remaining s = b ++ rest)
    (hn : b.length = n) : PortOk (Machine.advance n s) :=
  hp.advance (by rw [← length_remaining, h]; simp; omega)

/-- A value that is read fits its field (R54: `0 <= v < 2^n`). -/
theorem readBits_lt {n v : Nat} {s t : State} {w : FieldWidth n} (h : readBits n s w = some (v, t)) : v < 2 ^ n := by
  obtain ⟨hn, rfl, -⟩ := readBits_eq_some_iff.mp h
  have := bitsValue_lt ((remaining s).take n)
  rwa [List.length_take, length_remaining, Nat.min_eq_left hn] at this

end Sys2Proof.Machine
end

