-- ==== Sys2Proof/Laws/Run.lean ====
section
/-!
SUPPORT. The lifecycle of a command (R160 to R162): what `runCommand` can do, and how a property of every state that a piece of
pseudocode may leave is carried through a sequence of pieces.
-/

namespace Sys2Proof.Machine

/-- Where the piece goes on the state has the property `P`, and where it has raised an error the property `Q`. -/
def Run.Post {α : Type} (P Q : State → Prop) : Run α → Prop
  | .ok _ s => P s
  | .abort s => Q s
  | .stuck _ => True

/-- Every state in which the piece may end, normally or by a raise, has the property. -/
abbrev Run.All {α : Type} (P : State → Prop) (r : Run α) : Prop := r.Post P P

/-- The piece neither runs forever nor leaves the table memories. -/
def Run.Ends {α : Type} : Run α → Prop
  | .ok _ _ => True
  | .abort _ => True
  | .stuck _ => False

section
variable {α β : Type} {P Q : State → Prop}

@[simp] theorem Run.post_ok (a : α) (s : State) : (Run.ok a s).Post P Q ↔ P s := Iff.rfl
@[simp] theorem Run.post_abort (s : State) : (Run.abort s : Run α).Post P Q ↔ Q s := Iff.rfl
@[simp] theorem Run.post_stuck (f : Fault) : (Run.stuck f : Run α).Post P Q := trivial
@[simp] theorem Run.ends_ok (a : α) (s : State) : (Run.ok a s).Ends := trivial
@[simp] theorem Run.ends_abort (s : State) : (Run.abort s : Run α).Ends := trivial
@[simp] theorem Run.ends_stuck (f : Fault) : ¬ (Run.stuck f : Run α).Ends := id

@[simp] theorem Run.bind_ok (a : α) (s : State) (k : α → State → Run β) : (Run.ok a s).bind k = k a s := rfl
@[simp] theorem Run.bind_abort (s : State) (k : α → State → Run β) : (Run.abort s).bind k = .abort s := rfl
@[simp] theorem Run.bind_stuck (f : Fault) (k : α → State → Run β) : (Run.stuck f).bind k = .stuck f := rfl
@[simp] theorem Run.andThen_ok (s : State) (k : State → Run Unit) : (Run.ok () s).andThen k = k s := rfl
@[simp] theorem Run.andThen_abort (s : State) (k : State → Run Unit) : (Run.abort s).andThen k = .abort s := rfl
@[simp] theorem Run.andThen_stuck (f : Fault) (k : State → Run Unit) : (Run.stuck f).andThen k = .stuck f := rfl

@[simp] theorem Run.post_raise (step : BitVec 8) (e : Err) (detail : BitVec 8) (info : Nat) (s : State) :
    (raise step e detail info s : Run α).Post P Q ↔ Q (raised step e detail info s) := Iff.rfl

@[simp] theorem Run.ends_raise (step : BitVec 8) (e : Err) (detail : BitVec 8) (info : Nat) (s : State) :
    (raise step e detail info s : Run α).Ends := trivial

theorem Run.Post.bind {P' : State → Prop} {r : Run α} {k : α → State → Run β} (h : r.Post P Q)
    (hk : ∀ a s, P s → (k a s).Post P' Q) : (r.bind k).Post P' Q := by
  cases r with
  | ok a s => exact hk a s h
  | abort s => exact h
  | stuck f => trivial

theorem Run.Post.andThen {P' : State → Prop} {r : Run Unit} {k : State → Run Unit} (h : r.Post P Q)
    (hk : ∀ s, P s → (k s).Post P' Q) : (r.andThen k).Post P' Q := h.bind fun _ s => hk s

theorem Run.Post.mono {P' Q' : State → Prop} {r : Run α} (h : r.Post P Q) (hP : ∀ s, P s → P' s)
    (hQ : ∀ s, Q s → Q' s) : r.Post P' Q' := by
  cases r with
  | ok a s => exact hP s h
  | abort s => exact hQ s h
  | stuck f => trivial

theorem Run.All.mono {P' : State → Prop} {r : Run α} (h : r.All P) (hP : ∀ s, P s → P' s) : r.All P' :=
  Run.Post.mono h hP hP

theorem Run.Post.and {P' Q' : State → Prop} {r : Run α} (h : r.Post P Q) (h' : r.Post P' Q') :
    r.Post (fun s => P s ∧ P' s) fun s => Q s ∧ Q' s := by
  cases r with
  | ok a s => exact ⟨h, h'⟩
  | abort s => exact ⟨h, h'⟩
  | stuck f => trivial

end

/-- While BUSY = 1 or ERR = 1 a command does nothing (R165, R196). -/
theorem runCommand_ignored {body : State → Run Unit} {s : State} (h : ignoresCommands s = true) :
    runCommand body s = .next s := by
  simp [runCommand, h]

theorem Ready.not_ignores {s : State} (h : Ready s) : ignoresCommands s = false := by
  simp [ignoresCommands, h.1, h.2]

/-- A command that starts runs its pseudocode from the started state (R160). -/
theorem runCommand_ready {body : State → Run Unit} {s : State} (h : Ready s) :
    runCommand body s =
      match body (started s) with
      | .ok _ t => .next (finished t)
      | .abort t => .next t
      | .stuck f => .fault f := by
  unfold runCommand
  rw [Ready.not_ignores h]
  cases body (started s) <;> rfl

theorem runCommand_of_ok {body : State → Run Unit} {s t : State} (h : Ready s) (hb : body (started s) = .ok () t) :
    runCommand body s = .next (finished t) := by
  rw [runCommand_ready h, hb]

theorem runCommand_of_abort {body : State → Run Unit} {s t : State} (h : Ready s) (hb : body (started s) = .abort t) :
    runCommand body s = .next t := by
  rw [runCommand_ready h, hb]

/-- All that issuing a command can do. -/
theorem runCommand_cases {body : State → Run Unit} {s t : State} (h : runCommand body s = .next t) :
    (ignoresCommands s = true ∧ t = s) ∨
      (Ready s ∧ ((∃ u, body (started s) = .ok () u ∧ t = finished u) ∨ body (started s) = .abort t)) := by
  unfold runCommand at h
  split at h
  · next hi => exact .inl ⟨hi, by simpa using h.symm⟩
  · next hi =>
    have hr : Ready s := by simpa [ignoresCommands] using hi
    refine .inr ⟨hr, ?_⟩
    split at h
    · next u hu => exact .inl ⟨u, hu, by simpa using h.symm⟩
    · next u hu => exact .inr (by rw [hu]; simpa using h)
    · simp at h

/-- What every state that the pseudocode may leave keeps, the command keeps. -/
theorem runCommand_keeps {γ : Type} {body : State → Run Unit} (F : State → γ) (hs : ∀ s, F (started s) = F s)
    (hf : ∀ s, F (finished s) = F s) (hb : ∀ s, (body s).All fun t => F t = F s) {s t : State}
    (h : runCommand body s = .next t) : F t = F s := by
  obtain ⟨-, rfl⟩ | ⟨-, ⟨u, hu, rfl⟩ | hu⟩ := runCommand_cases h
  · rfl
  · have := hb (started s)
    rw [hu] at this
    exact (hf u).trans (Eq.trans this (hs s))
  · have := hb (started s)
    rw [hu] at this
    exact Eq.trans this (hs s)

/-- A command whose pseudocode ends has a next state. -/
theorem runCommand_next_of_ends {body : State → Run Unit} {s : State} (h : (body (started s)).Ends) :
    ∃ t, runCommand body s = .next t := by
  unfold runCommand
  split
  · exact ⟨s, rfl⟩
  · split
    · exact ⟨_, rfl⟩
    · exact ⟨_, rfl⟩
    · next f hf => rw [hf] at h; exact h.elim

/-- A finished command leaves what R160 and R161 say, and the rest as its pseudocode left it. -/
theorem finished_started (s : State) : finished (started s) = completed s := rfl

theorem raised_started (step : BitVec 8) (e : Err) (detail : BitVec 8) (info : Nat) (s : State) :
    raised step e detail info (started s) = aborted (errCodeOf e) detail step info s := rfl

end Sys2Proof.Machine
end

