-- ==== Sys2Proof/Laws/Counter.lean ====
section
/-!
SUPPORT. COUNT (R80 to R86): its loop counts the whole bytes one after the other.
-/

namespace Sys2Proof.Machine

/-- `FREQ[sym]` of a byte symbol is the stored count. -/
theorem freqAt_of_lt {s : State} {i : Nat} (h : i < 256) : freqAt s i = s.freq[i] := by
  simp [freqAt, Config.eofSym, h, Nat.ne_of_lt h]

@[simp] theorem freqAt_eof (s : State) : freqAt s Config.eofSym = 1#32 := by simp [freqAt]

/-- The state after the bytes listed were read and counted. -/
def counted : List Byte → State → State
  | [], s => s
  | b :: bs, s => counted bs (countByte b.toNat (advance 8 s))

/-- Counting bytes changes FREQ, COUNT_TOTAL and IN_POS only (R86). -/
theorem counted_eq (bs : List Byte) (s : State) :
    counted bs s =
      { s with freq := (counted bs s).freq, countTotal := s.countTotal + BitVec.ofNat 32 bs.length,
               inPos := s.inPos + BitVec.ofNat 64 (8 * bs.length) } := by
  induction bs generalizing s with
  | nil => simp [counted]
  | cons b bs ih =>
    rw [counted, ih]
    simp only [countByte, setFreq, advance, List.length_cons, BitVec.add_assoc, ← BitVec.ofNat_add, Nat.mul_add,
      Nat.add_comm]

theorem counted_inBits (bs : List Byte) (s : State) : (counted bs s).inBits = s.inBits := by rw [counted_eq]

theorem counted_countTotal (bs : List Byte) (s : State) :
    (counted bs s).countTotal = s.countTotal + BitVec.ofNat 32 bs.length := by rw [counted_eq]

theorem counted_inPos (bs : List Byte) (s : State) :
    (counted bs s).inPos = s.inPos + BitVec.ofNat 64 (8 * bs.length) := by rw [counted_eq]

/-- One byte counted adds 1 to its own entry (R84). -/
theorem countByte_freq_getElem (r : Nat) (s : State) (i : Nat) (hi : i < 256) :
    (countByte r s).freq[i] = if r = i then s.freq[i] + 1#32 else s.freq[i] := by
  have h : (countByte r s).freq[i] = (s.freq.setIfInBounds r (freqAt s r + 1#32))[i] := rfl
  rw [h, Vector.getElem_setIfInBounds]
  split
  · next hr => subst hr; rw [freqAt_of_lt hi]
  · rfl

/-- `FREQ[i]` grows by the number of bytes equal to `i` (R84). -/
theorem counted_freq (bs : List Byte) (s : State) (i : Nat) (hi : i < 256) :
    (counted bs s).freq[i] = s.freq[i] + BitVec.ofNat 32 (bs.count (BitVec.ofNat 8 i)) := by
  induction bs generalizing s with
  | nil => simp [counted]
  | cons b bs ih =>
    rw [counted, ih, countByte_freq_getElem _ _ _ hi, List.count_cons]
    have hs : (advance 8 s).freq[i] = s.freq[i] := rfl
    rw [hs]
    by_cases h : b.toNat = i
    · have hbi : b = BitVec.ofNat 8 i := by rw [← h]; simp
      simp [hbi, hi, BitVec.ofNat_add, BitVec.add_assoc, BitVec.add_comm]
      ac_rfl
    · have hbi : b ≠ BitVec.ofNat 8 i := by
        rintro rfl
        exact h (by simp [Nat.mod_eq_of_lt hi])
      simp [h, hbi]

theorem counted_portOk {bs : List Byte} {s : State} {rest : Bits} (hp : PortOk s)
    (hr : remaining s = bytesToBits bs ++ rest) : PortOk (counted bs s) ∧ remaining (counted bs s) = rest := by
  have hn : 8 * bs.length ≤ bitsLeft s := by rw [← length_remaining, hr]; simp
  have h1 : (counted bs s).inPos = (advance (8 * bs.length) s).inPos := counted_inPos bs s
  refine ⟨(hp.advance hn).congr (counted_inBits bs s) h1, ?_⟩
  rw [remaining_congr (s := advance (8 * bs.length) s) (counted_inBits bs s) h1]
  exact remaining_advance_append hp hr (by simp)

/-- The loop of COUNT, where whole bytes follow and COUNT_MAX is not exceeded: they are read and counted (R80, R83). -/
theorem countLoop_bytes (bs : List Byte) (k : Nat) (rest : Bits) (s : State) (hp : PortOk s)
    (hr : remaining s = bytesToBits bs ++ rest) (hc : s.countTotal.toNat + bs.length ≤ Config.countMax) :
    countLoop (bs.length + k) s = countLoop k (counted bs s) := by
  induction bs generalizing s with
  | nil => simp [counted]
  | cons b bs ih =>
    rw [bytesToBits_cons, List.append_assoc] at hr
    rw [List.length_cons] at hc
    have hread := readByte_of_append hr
    have hne : (advance 8 s).countTotal.toNat ≠ Config.countMax := by rw [advance_countTotal]; omega
    rw [List.length_cons, Nat.add_right_comm, countLoop, hread]
    simp only [hne, if_false]
    rw [counted, ih]
    · exact (hp.advance_append hr (by simp)).congr rfl rfl
    · exact remaining_advance_append hp hr (by simp)
    · unfold Config.countMax at hc ⊢
      rw [countByte_countTotal, advance_countTotal, BitVec.toNat_add]
      simp only [BitVec.toNat_ofNat, Nat.reducePow, Nat.one_mod]
      omega

/-- COUNT at fewer than 8 bits finds IN exhausted. -/
theorem countLoop_zero (s : State) : countLoop 0 s = countEnd s := rfl

/-- The whole of COUNT's pseudocode on whole bytes and a tail of fewer than 8 bits (R80). -/
theorem countBody_bytes (bs : List Byte) (tail : Bits) (s : State) (hp : PortOk s)
    (hr : remaining s = bytesToBits bs ++ tail) (ht : tail.length < 8) (hc : bs.length ≤ Config.countMax) :
    countBody s = countEnd (counted bs (dropCounts s)) := by
  have hk : bitsLeft s / Config.byteW = bs.length + 0 := by
    rw [← length_remaining, hr]
    simp [Config.byteW]
    omega
  rw [countBody, hk, countLoop_bytes bs 0 tail (dropCounts s) (hp.congr rfl rfl) hr (by simpa using hc), countLoop_zero]

/-- The whole of COUNT's pseudocode where a byte follows the COUNT_MAX-th (R83). -/
theorem countBody_overflow (bs : List Byte) (r : Byte) (rest : Bits) (s : State) (hp : PortOk s)
    (hr : remaining s = bytesToBits bs ++ (spell 8 r.toNat ++ rest)) (hc : bs.length = Config.countMax) :
    countBody s =
      raise (opcode .count) .countOverflow 0#8 r.toNat (advance 8 (counted bs (dropCounts s))) := by
  have hk : ∃ k, bitsLeft s / Config.byteW = bs.length + (k + 1) := by
    refine ⟨bitsLeft s / Config.byteW - bs.length - 1, ?_⟩
    have : bs.length + 1 ≤ bitsLeft s / Config.byteW := by
      rw [← length_remaining, hr]
      simp [Config.byteW]
      omega
    omega
  obtain ⟨k, hk⟩ := hk
  have hp0 : PortOk (dropCounts s) := hp.congr rfl rfl
  have hr0 : remaining (dropCounts s) = bytesToBits bs ++ (spell 8 r.toNat ++ rest) := hr
  rw [countBody, hk, countLoop_bytes bs (k + 1) _ (dropCounts s) hp0 hr0 (by simp [hc]), countLoop,
    readByte_of_append (counted_portOk hp0 hr0).2]
  have h : (advance 8 (counted bs (dropCounts s))).countTotal.toNat = Config.countMax := by
    rw [advance_countTotal, counted_countTotal, hc]
    simp [Config.countMax]
  simp only [h, if_true]

/-- The errors of COUNT, with their DETAIL (R163). -/
abbrev countErrors : List (Err × BitVec 8) := [(.readExhausted, 0#8), (.countOverflow, 0#8)]

/-- What reading, counting and raising keep, COUNT keeps (R86). -/
theorem countLoop_all {P Q : State → Prop} (h1 : ∀ s, P s → 8 ≤ bitsLeft s → P (advance 8 s))
    (h2 : ∀ r s, P s → P (countByte r s))
    (h3 : ∀ e ∈ countErrors, ∀ i s, P s → Q (raised (opcode .count) e.1 e.2 i s)) (k : Nat) (s : State) (h : P s) :
    (countLoop k s).Post P Q := by
  have hend : ∀ s, P s → (countEnd s).Post P Q := by
    intro s h
    unfold countEnd
    split
    · exact h
    · exact h3 (.readExhausted, 0#8) (by simp) _ _ h
  induction k generalizing s with
  | zero => exact hend s h
  | succ k ih =>
    rw [countLoop]
    split
    · exact hend s h
    · next r s1 hread =>
      obtain ⟨hb, -, rfl⟩ := readBits_eq_some_iff.mp hread
      split
      · exact h3 (.countOverflow, 0#8) (by simp) _ _ (h1 _ h hb)
      · exact ih _ (h2 _ _ (h1 _ h hb))

theorem countBody_ends (s : State) : (countBody s).Ends := by
  have hend : ∀ s, (countEnd s).Ends := by
    intro s
    unfold countEnd
    split <;> simp
  have hloop : ∀ k s, (countLoop k s).Ends := by
    intro k
    induction k with
    | zero => exact hend
    | succ k ih =>
      intro s
      rw [countLoop]
      split
      · exact hend s
      · split
        · simp
        · exact ih _
  exact hloop _ _

end Sys2Proof.Machine
end

