-- ==== Sys2Proof/Laws/Tree.lean ====
section
/-!
SUPPORT. Code trees as such, and the trees that the node memory holds (R48): reading a tree, and storing one.
-/

namespace Sys2Proof.Machine

/-! ## Counting -/

/-- The number of nodes on the longest path. -/
def CodeTree.height : CodeTree → Nat
  | .leaf _ _ => 1
  | .node _ l r => 1 + max l.height r.height

@[simp] theorem CodeTree.index_mem (t : CodeTree) : t.index ∈ t.indices := by
  cases t <;> simp [index, indices]

theorem CodeTree.leaves_ne_nil (t : CodeTree) : t.leaves ≠ [] := by
  induction t with
  | leaf => simp [leaves]
  | node i l r ihl ihr => simp [leaves, ihl]

theorem CodeTree.length_leaves_pos (t : CodeTree) : 0 < t.leaves.length :=
  List.length_pos_of_ne_nil t.leaves_ne_nil

@[simp] theorem CodeTree.length_symbols (t : CodeTree) : t.symbols.length = t.leaves.length := by
  simp [symbols]

@[simp] theorem CodeTree.symbols_leaf (i sym : Nat) : (CodeTree.leaf i sym).symbols = [sym] := rfl

@[simp] theorem CodeTree.symbols_node (i : Nat) (l r : CodeTree) :
    (CodeTree.node i l r).symbols = l.symbols ++ r.symbols := by
  simp [symbols, leaves, Function.comp_def]

@[simp] theorem CodeTree.index_leaf (i sym : Nat) : (CodeTree.leaf i sym).index = i := rfl

@[simp] theorem CodeTree.index_node (i : Nat) (l r : CodeTree) : (CodeTree.node i l r).index = i := rfl

/-- A strict binary tree with L leaves has 2L - 1 nodes (R8, R48). -/
theorem CodeTree.length_indices (t : CodeTree) : t.indices.length + 1 = 2 * t.leaves.length := by
  induction t with
  | leaf => simp [indices, leaves]
  | node i l r ihl ihr => simp [indices, leaves]; omega

/-- A header with L leaves is 11L - 1 bits long (R102). -/
theorem CodeTree.length_header (t : CodeTree) : t.header.length + 1 = 11 * t.leaves.length := by
  induction t with
  | leaf => simp [header, leaves, Config.symW]
  | node i l r ihl ihr => simp [header, leaves]; omega

/-- A leaf's depth is at most L - 1 (R8). -/
theorem CodeTree.length_path_lt {t : CodeTree} {p : Nat × Bits} (h : p ∈ t.leaves) : p.2.length < t.leaves.length := by
  induction t generalizing p with
  | leaf => simp_all [leaves]
  | node i l r ihl ihr =>
    have hl := l.length_leaves_pos
    have hr := r.length_leaves_pos
    simp only [leaves, List.mem_append, List.mem_map] at h
    rcases h with ⟨q, hq, rfl⟩ | ⟨q, hq, rfl⟩
    · have := ihl hq; simp [leaves]; omega
    · have := ihr hq; simp [leaves]; omega

theorem CodeTree.height_le_length_leaves (t : CodeTree) : t.height ≤ t.leaves.length := by
  induction t with
  | leaf => simp [height, leaves]
  | node i l r ihl ihr =>
    have hl := l.length_leaves_pos
    have hr := r.length_leaves_pos
    simp [height, leaves]
    omega

theorem CodeTree.height_pos (t : CodeTree) : 0 < t.height := by
  cases t <;> simp [height]

/-- Distinct symbols in 0..256 are at most 257. -/
theorem length_le_of_nodup_of_le {l : List Nat} (hn : l.Nodup) (h : ∀ x ∈ l, x ≤ Config.eofSym) : l.length ≤ Config.nsym := by
  have hs : l ⊆ List.range 257 := by
    intro x hx
    have := h x hx
    simp [Config.eofSym] at this ⊢
    omega
  have := (List.subperm_of_subset hn hs).length_le
  simpa [Config.nsym] using this

/-! ## Renumbering in preorder (R105) -/

@[simp] theorem CodeTree.index_preorder (i : Nat) (t : CodeTree) : (t.preorder i).index = i := by
  cases t <;> rfl

@[simp] theorem CodeTree.leaves_preorder (i : Nat) (t : CodeTree) : (t.preorder i).leaves = t.leaves := by
  induction t generalizing i with
  | leaf => rfl
  | node j l r ihl ihr => simp [preorder, leaves, ihl, ihr]

@[simp] theorem CodeTree.symbols_preorder (i : Nat) (t : CodeTree) : (t.preorder i).symbols = t.symbols := by
  simp [symbols]

@[simp] theorem CodeTree.header_preorder (i : Nat) (t : CodeTree) : (t.preorder i).header = t.header := by
  induction t generalizing i with
  | leaf => rfl
  | node j l r ihl ihr => simp [preorder, header, ihl, ihr]

@[simp] theorem CodeTree.height_preorder (i : Nat) (t : CodeTree) : (t.preorder i).height = t.height := by
  induction t generalizing i with
  | leaf => rfl
  | node j l r ihl ihr => simp [preorder, height, ihl, ihr]

/-- Preorder numbering names the indices in order. -/
theorem CodeTree.indices_preorder (i : Nat) (t : CodeTree) :
    (t.preorder i).indices = List.range' i t.indices.length := by
  induction t generalizing i with
  | leaf => rfl
  | node j l r ihl ihr =>
    simp only [preorder, indices, ihl, ihr, List.length_cons, List.length_append]
    rw [List.range'_succ, ← List.range'_append_1]

/-! ## The tree that the node memory holds -/

/-- Following LEFT and RIGHT from the tree's root gives the tree. -/
def Holds (s : State) : CodeTree → Prop
  | .leaf i sym => ∃ n, nodeAt s i = some n ∧ n.isLeaf = true ∧ n.symbol.toNat = sym
  | .node i l r =>
    ∃ n, nodeAt s i = some n ∧ n.isLeaf = false ∧ n.left.toNat = l.index ∧ n.right.toNat = r.index ∧
      Holds s l ∧ Holds s r

theorem Holds.congr {s s' : State} {t : CodeTree} (h : Holds s t) (hn : ∀ i ∈ t.indices, nodeAt s' i = nodeAt s i) :
    Holds s' t := by
  induction t with
  | leaf i sym =>
    obtain ⟨n, h1, h2⟩ := h
    exact ⟨n, by rw [hn i (by simp [CodeTree.indices]), h1], h2⟩
  | node i l r ihl ihr =>
    obtain ⟨n, h1, h2, h3, h4, h5, h6⟩ := h
    refine ⟨n, by rw [hn i (by simp [CodeTree.indices]), h1], h2, h3, h4, ihl h5 ?_, ihr h6 ?_⟩
    · intro j hj; exact hn j (by simp [CodeTree.indices, hj])
    · intro j hj; exact hn j (by simp [CodeTree.indices, hj])

theorem Holds.of_nodes_eq {s s' : State} {t : CodeTree} (h : Holds s t) (hn : s'.nodes = s.nodes) : Holds s' t :=
  h.congr fun i _ => by simp [nodeAt, hn]

theorem readTree_of_holds {s : State} {t : CodeTree} {d : Nat} (h : Holds s t) (hd : t.height ≤ d) :
    readTree s d t.index = some t := by
  induction t generalizing d with
  | leaf i sym =>
    obtain ⟨n, h1, h2, h3⟩ := h
    obtain ⟨d, rfl⟩ : ∃ e, d = e + 1 := ⟨d - 1, by simp [CodeTree.height] at hd; omega⟩
    simp [readTree, h1, h2, h3]
  | node i l r ihl ihr =>
    obtain ⟨n, h1, h2, h3, h4, h5, h6⟩ := h
    obtain ⟨d, rfl⟩ : ∃ e, d = e + 1 := ⟨d - 1, by simp [CodeTree.height] at hd; omega⟩
    have hl : l.height ≤ d := by simp [CodeTree.height] at hd; omega
    have hr : r.height ≤ d := by simp [CodeTree.height] at hd; omega
    simp [readTree, h1, h2, h3, h4, ihl h5 hl, ihr h6 hr]

theorem holds_of_readTree {s : State} {t : CodeTree} {d i : Nat} (h : readTree s d i = some t) :
    Holds s t ∧ t.index = i ∧ t.height ≤ d := by
  induction d generalizing i t with
  | zero => simp [readTree] at h
  | succ d ih =>
    rw [readTree] at h
    split at h
    · simp at h
    · next n hn =>
      split at h
      · next hl =>
        obtain rfl := by simpa using h
        exact ⟨⟨n, hn, hl, rfl⟩, rfl, by simp [CodeTree.height]⟩
      · next hl =>
        split at h
        · next l r hl' hr' =>
          obtain rfl := by simpa using h
          obtain ⟨a1, a2, a3⟩ := ih hl'
          obtain ⟨b1, b2, b3⟩ := ih hr'
          refine ⟨⟨n, hn, by simpa using hl, a2.symm, b2.symm, a1, b1⟩, rfl, ?_⟩
          simp [CodeTree.height]
          omega
        · simp at h

/-- The tree of a state depends on NODE and ROOT and NODE_COUNT only. -/
theorem readTree_congr {s s' : State} (h : s'.nodes = s.nodes) (d i : Nat) : readTree s' d i = readTree s d i := by
  induction d generalizing i with
  | zero => rfl
  | succ d ih => simp only [readTree, nodeAt, h, ih]

theorem TreeIs.congr {s s' : State} {t : CodeTree} (h : TreeIs s t) (hn : s'.nodes = s.nodes) (hr : s'.root = s.root)
    (hc : s'.nodeCount = s.nodeCount) : TreeIs s' t := by
  obtain ⟨h1, h2, h3, h4⟩ := h
  exact ⟨by rw [readTree_congr hn, hr]; exact h1, by rw [hc]; exact h2, h3, h4⟩

theorem TableIs.congr {s s' : State} {t : CodeTree} (h : TableIs s t) (hc : s'.codes = s.codes) : TableIs s' t := by
  intro sym hs
  rw [← h sym hs]
  simp [codeAt, hc]

/-- The tree is determined by the state. -/
theorem TreeIs.unique {s : State} {t u : CodeTree} (ht : TreeIs s t) (hu : TreeIs s u) : t = u := by
  have := ht.1.symm.trans hu.1
  simpa using this

theorem TreeIs.holds {s : State} {t : CodeTree} (h : TreeIs s t) : Holds s t := (holds_of_readTree h.1).1

theorem TreeIs.index {s : State} {t : CodeTree} (h : TreeIs s t) : t.index = s.root.toNat := (holds_of_readTree h.1).2.1

theorem TreeIs.height {s : State} {t : CodeTree} (h : TreeIs s t) : t.height ≤ Config.nodeCap := (holds_of_readTree h.1).2.2

theorem TreeIs.length_leaves {s : State} {t : CodeTree} (h : TreeIs s t) : t.leaves.length ≤ Config.nsym := by
  rw [← CodeTree.length_symbols]
  exact length_le_of_nodup_of_le h.2.2.1 h.2.2.2

/-- NODE_COUNT = 2L - 1 (R48). -/
theorem TreeIs.nodeCount {s : State} {t : CodeTree} (h : TreeIs s t) :
    s.nodeCount.toNat + 1 = 2 * t.leaves.length := by
  rw [← t.length_indices, h.2.1.length_eq, List.length_range]

/-- A code is at most 256 bits long (R8, R121). -/
theorem TreeIs.length_path {s : State} {t : CodeTree} (h : TreeIs s t) {p : Nat × Bits} (hp : p ∈ t.leaves) :
    p.2.length ≤ Config.maxCodeLen := by
  have h1 := CodeTree.length_path_lt hp
  have h2 := h.length_leaves
  simp [Config.nsym, Config.maxCodeLen] at *
  omega

theorem TreeIs.symbol_lt {s : State} {t : CodeTree} (h : TreeIs s t) {p : Nat × Bits} (hp : p ∈ t.leaves) :
    p.1 < Config.nsym := by
  have := h.2.2.2 p.1 (List.mem_map_of_mem hp)
  simp [Config.nsym, Config.eofSym] at *
  omega

/-! ## Storing a tree -/

theorem leafNode_symbol {sym : Nat} (h : sym ≤ Config.eofSym) (w : Word) : (leafNode sym w).symbol.toNat = sym := by
  simp [leafNode, Config.eofSym] at *
  omega

theorem Stores.congr {s s' : State} {w : CodeTree → Word} {t : CodeTree} (h : Stores s w t)
    (hn : ∀ i ∈ t.indices, nodeAt s' i = nodeAt s i) : Stores s' w t := by
  induction t with
  | leaf i sym =>
    rw [Stores, hn i (by simp [CodeTree.indices])]
    exact h
  | node i l r ihl ihr =>
    obtain ⟨h1, h2, h3⟩ := h
    refine ⟨by rw [hn i (by simp [CodeTree.indices]), h1], ihl h2 ?_, ihr h3 ?_⟩
    · intro j hj; exact hn j (by simp [CodeTree.indices, hj])
    · intro j hj; exact hn j (by simp [CodeTree.indices, hj])

theorem Stores.holds {s : State} {w : CodeTree → Word} {t : CodeTree} (h : Stores s w t)
    (hi : ∀ i ∈ t.indices, i < 1024) (hs : ∀ sym ∈ t.symbols, sym ≤ Config.eofSym) : Holds s t := by
  induction t with
  | leaf i sym => exact ⟨_, h, rfl, leafNode_symbol (hs sym (by simp)) _⟩
  | node i l r ihl ihr =>
    obtain ⟨h1, h2, h3⟩ := h
    have hil : ∀ j ∈ l.indices, j < 1024 := fun j hj => hi j (by simp [CodeTree.indices, hj])
    have hir : ∀ j ∈ r.indices, j < 1024 := fun j hj => hi j (by simp [CodeTree.indices, hj])
    refine ⟨_, h1, rfl, ?_, ?_, ihl h2 hil fun x hx => hs x (by simp [hx]), ihr h3 hir fun x hx => hs x (by simp [hx])⟩
    · simp [innerNode, Nat.mod_eq_of_lt (hil _ l.index_mem)]
    · simp [innerNode, Nat.mod_eq_of_lt (hir _ r.index_mem)]

/-- No leaf's path is the beginning of another's (R126). -/
theorem leaves_prefixFree {t : CodeTree} (hn : t.symbols.Nodup) :
    ∀ p ∈ t.leaves, ∀ q ∈ t.leaves, p.1 ≠ q.1 → ¬ p.2 <+: q.2 := by
  induction t with
  | leaf i sym => simp [CodeTree.leaves]
  | node i l r ihl ihr =>
    have hsym : (CodeTree.node i l r).symbols = l.symbols ++ r.symbols := by
      simp [CodeTree.symbols, CodeTree.leaves, Function.comp_def]
    rw [hsym, List.nodup_append] at hn
    intro p hp q hq hne
    simp only [CodeTree.leaves, List.mem_append, List.mem_map] at hp hq
    rcases hp with ⟨p', hp', rfl⟩ | ⟨p', hp', rfl⟩ <;> rcases hq with ⟨q', hq', rfl⟩ | ⟨q', hq', rfl⟩ <;>
      simp [List.cons_prefix_cons]
    · exact ihl hn.1 p' hp' q' hq' hne
    · exact ihr hn.2.1 p' hp' q' hq' hne

end Sys2Proof.Machine
end

