-- ==== Sys2Proof/Laws/Walks.lean ====
section
/-!
SUPPORT. The two walks over a stored tree: SERIALIZE writes its header (R101, R102), GEN_TABLE stores its paths (R120, R121).
-/

namespace Sys2Proof.Machine

@[simp] theorem writeSeq_nil (s : State) : writeSeq [] s = s := by simp [writeSeq]

@[simp] theorem writeSeq_writeSeq (b c : Bits) (s : State) : writeSeq c (writeSeq b s) = writeSeq (b ++ c) s := by
  simp [writeSeq]

theorem writeBits_eq (n v : Nat) (s : State) (w : FieldWidth n) : writeBits n v s w = writeSeq (spell n v) s := rfl

@[simp] theorem nodeAt_writeSeq (b : Bits) (s : State) (i : Nat) : nodeAt (writeSeq b s) i = nodeAt s i := rfl

@[simp] theorem nodeAt_advance (n : Nat) (s : State) (i : Nat) : nodeAt (advance n s) i = nodeAt s i := rfl

@[simp] theorem nodeAt_setCode (sym : Nat) (c : Code) (s : State) (i : Nat) : nodeAt (setCode sym c s) i = nodeAt s i := rfl

/-! ## SERIALIZE -/

/-- `Ser` of a stored tree writes the tree's header and changes nothing else (R101, R102). -/
theorem serNode_of_holds {t : CodeTree} {s : State} {d : Nat} (h : Holds s t) (hd : t.height ≤ d) :
    serNode d t.index s = .ok () (writeSeq t.header s) := by
  induction t generalizing s d with
  | leaf i sym =>
    obtain ⟨n, h1, h2, h3⟩ := h
    obtain ⟨d, rfl⟩ : ∃ e, d = e + 1 := ⟨d - 1, by simp [CodeTree.height] at hd; omega⟩
    simp [serNode, h1, h2, h3, CodeTree.header, writeBits_eq, spell]
  | node i l r ihl ihr =>
    obtain ⟨n, h1, h2, h3, h4, h5, h6⟩ := h
    obtain ⟨d, rfl⟩ : ∃ e, d = e + 1 := ⟨d - 1, by simp [CodeTree.height] at hd; omega⟩
    have hl : l.height ≤ d := by simp [CodeTree.height] at hd; omega
    have hr : r.height ≤ d := by simp [CodeTree.height] at hd; omega
    have h5' : Holds (writeBits 1 0 s) l := h5.of_nodes_eq rfl
    have h6' : Holds (writeSeq l.header (writeBits 1 0 s)) r := h6.of_nodes_eq rfl
    simp only [serNode, CodeTree.index_node, h1, h2, h3, h4, Bool.false_eq_true, if_false]
    rw [ihl h5' hl, Run.andThen_ok, ihr h6' hr]
    simp [writeBits_eq, spell, CodeTree.header]

/-- The whole of SERIALIZE's pseudocode while TREE_VALID = 1 (R101). -/
theorem serializeBody_of_tree {s : State} {t : CodeTree} (hv : s.treeValid = true) (h : TreeIs s t) :
    serializeBody s = .ok () (writeSeq t.header s) := by
  rw [serializeBody, if_pos hv, ← h.index, serNode_of_holds h.holds h.height]

theorem serNode_all {P Q : State → Prop} (hw : ∀ b s, P s → P (writeSeq b s)) (d i : Nat) (s : State) (h : P s) :
    (serNode d i s).Post P Q := by
  induction d generalizing i s with
  | zero => trivial
  | succ d ih =>
    rw [serNode]
    split
    · trivial
    · split
      · exact hw _ _ (hw _ _ h)
      · exact (ih _ _ (hw _ _ h)).andThen fun u hu => ih _ _ hu

/-! ## GEN_TABLE -/

/-- The code table entries of the leaves listed are written, each path behind a path of `len` bits and value `val`. -/
def storeLeaves (len val : Nat) (ls : List (Nat × Bits)) (s : State) : State :=
  ls.foldl (fun u p => setCode p.1 ⟨true, BitVec.ofNat 9 (len + p.2.length),
    BitVec.ofNat 256 (val * 2 ^ p.2.length + bitsValue p.2)⟩ u) s

theorem storeLeaves_append (len val : Nat) (ls ms : List (Nat × Bits)) (s : State) :
    storeLeaves len val (ls ++ ms) s = storeLeaves len val ms (storeLeaves len val ls s) := by
  simp [storeLeaves]

theorem storeLeaves_cons_bit (len val : Nat) (b : Bool) (ls : List (Nat × Bits)) (s : State) :
    storeLeaves len val (ls.map fun p => (p.1, b :: p.2)) s = storeLeaves (len + 1) (2 * val + b.toNat) ls s := by
  unfold storeLeaves
  rw [List.foldl_map]
  congr 1
  funext u p
  simp only [bitsValue_cons, List.length_cons]
  congr 3
  · omega
  · ring

/-- Storing codes changes CODE only (R120). -/
theorem storeLeaves_eq (len val : Nat) (ls : List (Nat × Bits)) (s : State) :
    storeLeaves len val ls s = { s with codes := (storeLeaves len val ls s).codes } := by
  induction ls generalizing s with
  | nil => rfl
  | cons p ls ih =>
    have h : ∀ u, storeLeaves len val (p :: ls) u = storeLeaves len val ls (setCode p.1 ⟨true, BitVec.ofNat 9 (len + p.2.length),
      BitVec.ofNat 256 (val * 2 ^ p.2.length + bitsValue p.2)⟩ u) := fun _ => rfl
    rw [h, ih]
    rfl

/-- `Walk` of a stored tree writes the entries of its leaves and changes nothing else (R120, R121). -/
theorem walkNode_of_holds {t : CodeTree} {s : State} {d len val : Nat} (h : Holds s t) (hd : t.height ≤ d)
    (hlen : ∀ p ∈ t.leaves, len + p.2.length ≤ Config.maxCodeLen) (hsym : ∀ p ∈ t.leaves, p.1 < Config.nsym) :
    walkNode d t.index len val s = .ok () (storeLeaves len val t.leaves s) := by
  induction t generalizing s d len val with
  | leaf i sym =>
    obtain ⟨n, h1, h2, h3⟩ := h
    obtain ⟨d, rfl⟩ : ∃ e, d = e + 1 := ⟨d - 1, by simp [CodeTree.height] at hd; omega⟩
    have a1 : len ≤ Config.maxCodeLen := by simpa [CodeTree.leaves] using hlen (sym, []) (by simp [CodeTree.leaves])
    have a2 : sym < Config.nsym := hsym (sym, []) (by simp [CodeTree.leaves])
    simp [walkNode, h1, h2, h3, a1, a2, CodeTree.leaves, storeLeaves]
  | node i l r ihl ihr =>
    obtain ⟨n, h1, h2, h3, h4, h5, h6⟩ := h
    obtain ⟨d, rfl⟩ : ∃ e, d = e + 1 := ⟨d - 1, by simp [CodeTree.height] at hd; omega⟩
    have hl : l.height ≤ d := by simp [CodeTree.height] at hd; omega
    have hr : r.height ≤ d := by simp [CodeTree.height] at hd; omega
    have hlenl : ∀ p ∈ l.leaves, len + 1 + p.2.length ≤ Config.maxCodeLen := by
      intro p hp
      have := hlen (p.1, false :: p.2) (by simp only [CodeTree.leaves, List.mem_append, List.mem_map]; exact .inl ⟨p, hp, rfl⟩)
      simp at this; omega
    have hlenr : ∀ p ∈ r.leaves, len + 1 + p.2.length ≤ Config.maxCodeLen := by
      intro p hp
      have := hlen (p.1, true :: p.2) (by simp only [CodeTree.leaves, List.mem_append, List.mem_map]; exact .inr ⟨p, hp, rfl⟩)
      simp at this; omega
    have hsyml : ∀ p ∈ l.leaves, p.1 < Config.nsym := by
      intro p hp
      exact hsym (p.1, false :: p.2) (by simp only [CodeTree.leaves, List.mem_append, List.mem_map]; exact .inl ⟨p, hp, rfl⟩)
    have hsymr : ∀ p ∈ r.leaves, p.1 < Config.nsym := by
      intro p hp
      exact hsym (p.1, true :: p.2) (by simp only [CodeTree.leaves, List.mem_append, List.mem_map]; exact .inr ⟨p, hp, rfl⟩)
    have h6' : Holds (storeLeaves (len + 1) (2 * val) l.leaves s) r := by
      rw [storeLeaves_eq]
      exact h6.of_nodes_eq rfl
    simp only [walkNode, CodeTree.index_node, h1, h2, h3, h4, Bool.false_eq_true, if_false]
    rw [ihl h5 hl hlenl hsyml, Run.andThen_ok, ihr h6' hr hlenr hsymr, CodeTree.leaves, storeLeaves_append,
      storeLeaves_cons_bit, storeLeaves_cons_bit]
    rfl

theorem walkNode_all {P Q : State → Prop} (hw : ∀ sym c s, P s → P (setCode sym c s)) (d i len val : Nat) (s : State)
    (h : P s) : (walkNode d i len val s).Post P Q := by
  induction d generalizing i len val s with
  | zero => trivial
  | succ d ih =>
    rw [walkNode]
    split
    · trivial
    · split
      · split
        · exact hw _ _ _ h
        · trivial
      · exact (ih _ _ _ _ h).andThen fun u hu => ih _ _ _ _ hu

theorem codeAt_setCode (sym : Nat) (c : Code) (s : State) (j : Nat) (hs : sym < Config.nsym) :
    codeAt (setCode sym c s) j = if sym = j then c else codeAt s j := by
  have h257 : sym < 257 := hs
  rw [codeAt, setCode_codes, Vector.getElem?_setIfInBounds]
  split
  · next h => subst h; simp
  · rfl

/-- The entry of a symbol after codes are stored: the last stored, or the one before. -/
theorem codeAt_storeLeaves {ls : List (Nat × Bits)} (hn : (ls.map (·.1)).Nodup) (hs : ∀ p ∈ ls, p.1 < Config.nsym)
    (len val : Nat) (s : State) (j : Nat) :
    codeAt (storeLeaves len val ls s) j =
      match ls.lookup j with
      | some p => ⟨true, BitVec.ofNat 9 (len + p.length), BitVec.ofNat 256 (val * 2 ^ p.length + bitsValue p)⟩
      | none => codeAt s j := by
  induction ls generalizing s with
  | nil => rfl
  | cons q ls ih =>
    have h : storeLeaves len val (q :: ls) s = storeLeaves len val ls (setCode q.1 ⟨true, BitVec.ofNat 9 (len + q.2.length),
      BitVec.ofNat 256 (val * 2 ^ q.2.length + bitsValue q.2)⟩ s) := rfl
    simp only [List.map_cons, List.nodup_cons] at hn
    rw [h, ih hn.2 fun p hp => hs p (by simp [hp])]
    rw [codeAt_setCode _ _ _ _ (hs q (by simp)), List.lookup_cons]
    by_cases hj : j = q.1
    · subst hj
      have : ls.lookup q.1 = none := by
        rw [List.lookup_eq_none_iff]
        intro p hp
        simp only [bne_iff_ne, ne_eq]
        intro hq
        exact hn.1 (hq ▸ List.mem_map_of_mem hp)
      simp [this]
    · have hb : (j == q.1) = false := by simpa using hj
      simp only [hb, Ne.symm hj, if_false]

/-- The whole of GEN_TABLE's pseudocode while TREE_VALID = 1 (R120). -/
theorem genTableBody_of_tree {s : State} {t : CodeTree} (hv : s.treeValid = true) (h : TreeIs s t) :
    genTableBody s =
      .ok () { storeLeaves 0 0 t.leaves { s with codes := Vector.replicate 257 Code.none } with tableValid := true } := by
  have h' : TreeIs { s with codes := Vector.replicate 257 Code.none } t := h.congr rfl rfl rfl
  rw [genTableBody, if_pos hv, ← h.index, walkNode_of_holds h'.holds h.height, Run.andThen_ok]
  · intro p hp
    simpa using h.length_path hp
  · intro p hp
    exact h.symbol_lt hp

/-- The codes that GEN_TABLE stores are those of the tree (R49, R121). -/
theorem tableIs_storeLeaves {s : State} {t : CodeTree} (h : TreeIs s t) :
    TableIs (storeLeaves 0 0 t.leaves { s with codes := Vector.replicate 257 Code.none }) t := by
  intro j hj
  rw [codeAt_storeLeaves h.2.2.1 fun p hp => h.symbol_lt hp]
  unfold codeOf CodeTree.path
  cases t.leaves.lookup j with
  | some p => simp
  | none =>
    have h257 : j < 257 := hj
    simp [codeAt, h257]

end Sys2Proof.Machine
end

