-- ==== Sys2Proof/Laws/Encoder.lean ====
section
/-!
SUPPORT. ENCODE (R123 to R127): its loop writes the codes of the whole bytes one after the other.
-/

namespace Sys2Proof.Machine

@[simp] theorem codeAt_writeSeq (b : Bits) (s : State) (i : Nat) : codeAt (writeSeq b s) i = codeAt s i := rfl

@[simp] theorem codeAt_advance (n : Nat) (s : State) (i : Nat) : codeAt (advance n s) i = codeAt s i := rfl

theorem advance_writeSeq (n : Nat) (b : Bits) (s : State) : advance n (writeSeq b s) = writeSeq b (advance n s) := rfl

@[simp] theorem codesOf_nil (s : State) : codesOf s [] = [] := rfl

@[simp] theorem codesOf_cons (s : State) (b : Byte) (bs : List Byte) :
    codesOf s (b :: bs) = (codeAt s b.toNat).bits ++ codesOf s bs := rfl

/-- The loop of ENCODE, where whole bytes with codes follow: their codes are written (R123). -/
theorem encodeLoop_bytes (bs : List Byte) (k : Nat) (rest : Bits) (s : State) (hp : PortOk s)
    (hr : remaining s = bytesToBits bs ++ rest) (hv : ∀ b ∈ bs, (codeAt s b.toNat).valid = true) :
    encodeLoop (bs.length + k) s = encodeLoop k (writeSeq (codesOf s bs) (advance (8 * bs.length) s)) := by
  induction bs generalizing s with
  | nil => simp [advance_zero]
  | cons b bs ih =>
    rw [bytesToBits_cons, List.append_assoc] at hr
    have hread := readByte_of_append hr
    have hb : (codeAt (advance 8 s) b.toNat).valid = true := hv b (by simp)
    rw [List.length_cons, Nat.add_right_comm, encodeLoop, hread]
    simp only [encodeSymbol, hb, if_true, Run.andThen_ok]
    rw [ih]
    · rw [advance_writeSeq, advance_advance, writeSeq_writeSeq]
      rw [show 8 + 8 * bs.length = 8 * (bs.length + 1) by ring]
      rfl
    · exact (hp.advance_append hr (by simp)).congr rfl rfl
    · exact remaining_advance_append hp hr (by simp)
    · intro c hc
      exact hv c (by simp [hc])

/-- After the whole bytes, with fewer than 8 bits left. -/
theorem after_bytes {bs : List Byte} {s : State} {rest b : Bits} (hp : PortOk s)
    (hr : remaining s = bytesToBits bs ++ rest) :
    PortOk (writeSeq b (advance (8 * bs.length) s)) ∧ remaining (writeSeq b (advance (8 * bs.length) s)) = rest ∧
      bitsLeft (writeSeq b (advance (8 * bs.length) s)) = rest.length := by
  have h : remaining (writeSeq b (advance (8 * bs.length) s)) = rest := remaining_advance_append hp hr (by simp)
  exact ⟨(hp.advance_append hr (by simp)).congr rfl rfl, h, by rw [← length_remaining, h]⟩

theorem bitsLeft_div_byteW {bs : List Byte} {s : State} {tail : Bits} (hr : remaining s = bytesToBits bs ++ tail)
    (ht : tail.length < 8) : bitsLeft s / Config.byteW = bs.length := by
  rw [← length_remaining, hr]
  simp [Config.byteW]
  omega

/-- The whole of ENCODE's pseudocode on whole bytes that all have codes (R123). -/
theorem encodeBody_bytes {bs : List Byte} {s : State} (hv : s.tableValid = true) (hp : PortOk s)
    (hr : remaining s = bytesToBits bs) (hc : ∀ b ∈ bs, (codeAt s b.toNat).valid = true)
    (he : (codeAt s Config.eofSym).valid = true) :
    encodeBody s =
      .ok () (writeSeq (codesOf s bs ++ (codeAt s Config.eofSym).bits) (advance (8 * bs.length) s)) := by
  have hr' : remaining s = bytesToBits bs ++ [] := by simpa using hr
  have h3 : bitsLeft (writeSeq (codesOf s bs) (advance (8 * bs.length) s)) = 0 := (after_bytes hp hr').2.2
  have he' : (codeAt (writeSeq (codesOf s bs) (advance (8 * bs.length) s)) Config.eofSym).valid = true := he
  rw [encodeBody, if_pos hv, bitsLeft_div_byteW hr' (by simp), ← Nat.add_zero bs.length,
    encodeLoop_bytes bs 0 [] s hp hr' hc, encodeLoop, encodeEnd, if_pos h3, encodeSymbol, if_pos he', writeSeq_writeSeq]
  rfl

/-- ENCODE on whole bytes with codes and 1 to 7 bits more (R125). -/
theorem encodeBody_partial {bs : List Byte} {s : State} {tail : Bits} (hv : s.tableValid = true) (hp : PortOk s)
    (hr : remaining s = bytesToBits bs ++ tail) (hc : ∀ b ∈ bs, (codeAt s b.toNat).valid = true)
    (h0 : tail ≠ []) (h8 : tail.length < 8) :
    encodeBody s =
      raise (opcode .encode) .readExhausted 0#8 tail.length (writeSeq (codesOf s bs) (advance (8 * bs.length) s)) := by
  obtain ⟨-, -, h3⟩ := after_bytes (b := codesOf s bs) hp hr
  have hne : ¬ (bitsLeft (writeSeq (codesOf s bs) (advance (8 * bs.length) s)) = 0) := by
    rw [h3]
    simpa using h0
  rw [encodeBody, if_pos hv, bitsLeft_div_byteW hr h8, ← Nat.add_zero bs.length,
    encodeLoop_bytes bs 0 tail s hp hr hc, encodeLoop, encodeEnd, if_neg hne, h3]
  rfl

/-- ENCODE at a byte that has no code (R124). -/
theorem encodeBody_missing {bs : List Byte} {r : Byte} {s : State} {rest : Bits} (hv : s.tableValid = true)
    (hp : PortOk s) (hr : remaining s = bytesToBits bs ++ (spell 8 r.toNat ++ rest))
    (hc : ∀ b ∈ bs, (codeAt s b.toNat).valid = true) (hm : (codeAt s r.toNat).valid = false) :
    encodeBody s =
      raise (opcode .encode) .internalConsistency 0#8 r.toNat
        (writeSeq (codesOf s bs) (advance (8 * (bs.length + 1)) s)) := by
  obtain ⟨k, hk⟩ : ∃ k, bitsLeft s / Config.byteW = bs.length + (k + 1) := by
    refine ⟨bitsLeft s / Config.byteW - bs.length - 1, ?_⟩
    have : bs.length + 1 ≤ bitsLeft s / Config.byteW := by
      rw [← length_remaining, hr]
      simp [Config.byteW]
      omega
    omega
  obtain ⟨h1, h2, -⟩ := after_bytes (b := codesOf s bs) hp hr
  have hm' : ¬ (codeAt (advance 8 (writeSeq (codesOf s bs) (advance (8 * bs.length) s))) r.toNat).valid = true := by
    have : codeAt (advance 8 (writeSeq (codesOf s bs) (advance (8 * bs.length) s))) r.toNat = codeAt s r.toNat := rfl
    simp [this, hm]
  rw [encodeBody, if_pos hv, hk, encodeLoop_bytes bs (k + 1) _ s hp hr hc, encodeLoop, readByte_of_append h2]
  simp only
  rw [encodeSymbol, if_neg hm', advance_writeSeq, advance_advance, show 8 * bs.length + 8 = 8 * (bs.length + 1) by ring]
  rfl

/-- ENCODE at the end of the bytes where EOF has no code (R124). -/
theorem encodeBody_missing_eof {bs : List Byte} {s : State} (hv : s.tableValid = true) (hp : PortOk s)
    (hr : remaining s = bytesToBits bs) (hc : ∀ b ∈ bs, (codeAt s b.toNat).valid = true)
    (he : (codeAt s Config.eofSym).valid = false) :
    encodeBody s =
      raise (opcode .encode) .internalConsistency 0#8 Config.eofSym
        (writeSeq (codesOf s bs) (advance (8 * bs.length) s)) := by
  have hr' : remaining s = bytesToBits bs ++ [] := by simpa using hr
  have h3 : bitsLeft (writeSeq (codesOf s bs) (advance (8 * bs.length) s)) = 0 := (after_bytes hp hr').2.2
  have he' : ¬ (codeAt (writeSeq (codesOf s bs) (advance (8 * bs.length) s)) Config.eofSym).valid = true := by
    have : codeAt (writeSeq (codesOf s bs) (advance (8 * bs.length) s)) Config.eofSym = codeAt s Config.eofSym := rfl
    simp [this, he]
  rw [encodeBody, if_pos hv, bitsLeft_div_byteW hr' (by simp), ← Nat.add_zero bs.length,
    encodeLoop_bytes bs 0 [] s hp hr' hc, encodeLoop, encodeEnd, if_pos h3, encodeSymbol, if_neg he']
  rfl

/-- The errors of ENCODE with a table, with their DETAIL (R163). -/
abbrev encodeErrors : List (Err × BitVec 8) := [(.internalConsistency, 0#8), (.readExhausted, 0#8)]

theorem encodeLoop_all {P Q : State → Prop} (h1 : ∀ s, P s → 8 ≤ bitsLeft s → P (advance 8 s))
    (h2 : ∀ b s, P s → P (writeSeq b s))
    (h3 : ∀ e ∈ encodeErrors, ∀ i s, P s → Q (raised (opcode .encode) e.1 e.2 i s)) (k : Nat) (s : State) (h : P s) :
    (encodeLoop k s).Post P Q := by
  have hsym : ∀ sym s, P s → (encodeSymbol sym s).Post P Q := by
    intro sym s h
    unfold encodeSymbol
    split
    · exact h2 _ _ h
    · exact h3 (.internalConsistency, 0#8) (by simp) _ _ h
  have hend : ∀ s, P s → (encodeEnd s).Post P Q := by
    intro s h
    unfold encodeEnd
    split
    · exact hsym _ _ h
    · exact h3 (.readExhausted, 0#8) (by simp) _ _ h
  induction k generalizing s with
  | zero => exact hend s h
  | succ k ih =>
    rw [encodeLoop]
    split
    · exact hend s h
    · next r s1 hread =>
      obtain ⟨hb, -, rfl⟩ := readBits_eq_some_iff.mp hread
      exact (hsym _ _ (h1 _ h hb)).andThen fun u hu => ih _ hu

theorem encodeBody_ends (s : State) : (encodeBody s).Ends := by
  have hsym : ∀ sym s, (encodeSymbol sym s).Ends := by
    intro sym s
    unfold encodeSymbol
    split <;> simp
  have hend : ∀ s, (encodeEnd s).Ends := by
    intro s
    unfold encodeEnd
    split
    · exact hsym _ _
    · simp
  have hloop : ∀ k s, (encodeLoop k s).Ends := by
    intro k
    induction k with
    | zero => exact hend
    | succ k ih =>
      intro s
      rw [encodeLoop]
      split
      · exact hend s
      · unfold encodeSymbol
        split
        · exact ih _
        · exact trivial
  unfold encodeBody
  split
  · exact hloop _ _
  · exact trivial

/-! ## The codes of a tree -/

theorem path_mem {t : CodeTree} {sym : Nat} {p : Bits} (h : t.path sym = some p) : (sym, p) ∈ t.leaves := by
  unfold CodeTree.path at h
  rw [List.lookup_eq_some_iff] at h
  obtain ⟨l1, l2, h1, -⟩ := h
  simp [h1]

theorem path_of_mem {t : CodeTree} (hn : t.symbols.Nodup) {p : Nat × Bits} (h : p ∈ t.leaves) : t.path p.1 = some p.2 := by
  have key : ∀ ls : List (Nat × Bits), (ls.map (·.1)).Nodup → p ∈ ls → ls.lookup p.1 = some p.2 := by
    intro ls hn hp
    induction ls with
    | nil => simp at hp
    | cons q ls ih =>
      simp only [List.map_cons, List.nodup_cons] at hn
      rcases List.mem_cons.mp hp with rfl | hp
      · rw [List.lookup_cons, beq_self_eq_true]
      · have : (p.1 == q.1) = false := by
          simp only [beq_eq_false_iff_ne, ne_eq]
          intro hq
          exact hn.1 (hq ▸ List.mem_map_of_mem hp)
        rw [List.lookup_cons, this]
        exact ih hn.2 hp
  exact key _ hn h

/-- A symbol has a path exactly when the tree has a leaf of it. -/
theorem path_isSome_iff {t : CodeTree} {sym : Nat} : (t.path sym).isSome = true ↔ sym ∈ t.symbols := by
  constructor
  · intro h
    obtain ⟨p, hp⟩ := Option.isSome_iff_exists.mp h
    exact List.mem_map_of_mem (path_mem hp)
  · intro h
    by_contra hc
    have : t.leaves.lookup sym = none := by
      unfold CodeTree.path at hc
      rwa [Option.not_isSome_iff_eq_none] at hc
    rw [List.lookup_eq_none_iff] at this
    obtain ⟨p, hp, rfl⟩ := List.mem_map.mp h
    have hne := this p hp
    simp at hne

/-- The stored code of a symbol spells its path (R43, R121). -/
theorem codeOf_bits {t : CodeTree} {sym : Nat} {p : Bits} (h : t.path sym = some p)
    (hl : p.length ≤ Config.maxCodeLen) : (codeOf t sym).bits = p ∧ (codeOf t sym).valid = true := by
  have h1 : p.length < 2 ^ 9 := by simp [Config.maxCodeLen] at hl; omega
  have h2 : bitsValue p < 2 ^ 256 :=
    lt_of_lt_of_le (bitsValue_lt p) (Nat.pow_le_pow_right (by norm_num) (by simpa [Config.maxCodeLen] using hl))
  simp only [codeOf, h, Code.bits, BitVec.toNat_ofNat, Nat.mod_eq_of_lt h1, Nat.mod_eq_of_lt h2, spell_bitsValue, and_self]

/-- Under R49 the code table gives every leaf's symbol its path. -/
theorem TableIs.code {s : State} {t : CodeTree} (ht : TreeIs s t) (h : TableIs s t) {p : Nat × Bits}
    (hp : p ∈ t.leaves) : (codeAt s p.1).valid = true ∧ (codeAt s p.1).bits = p.2 := by
  rw [h p.1 (ht.symbol_lt hp)]
  have := codeOf_bits (path_of_mem ht.2.2.1 hp) (ht.length_path hp)
  exact ⟨this.2, this.1⟩

end Sys2Proof.Machine
end

