-- ==== Sys2Proof/Laws/Decoder.lean ====
section
/-!
SUPPORT. DECODE (R130 to R136): along a path the cursor comes to its leaf; codes one after the other give their bytes.
-/

namespace Sys2Proof.Machine

@[simp] theorem pathsOf_nil (t : CodeTree) : pathsOf t [] = [] := rfl

@[simp] theorem pathsOf_cons (t : CodeTree) (b : Byte) (bs : List Byte) :
    pathsOf t (b :: bs) = (t.path b.toNat).getD [] ++ pathsOf t bs := rfl

theorem readBit_cons {s : State} {b : Bool} {rest : Bits} (h : remaining s = b :: rest) :
    readBits 1 s = some (b.toNat, advance 1 s) := by
  rw [readBits_of_append (n := 1) (b := [b]) (rest := rest) (by simpa using h) rfl]
  simp [bitsValue_cons]

/-- A bit sequence at a tree's root either begins with the path of a leaf or ends before any leaf. -/
theorem CodeTree.path_or_prefix (t : CodeTree) (b : Bits) :
    (∃ p ∈ t.leaves, ∃ rest, b = p.2 ++ rest) ∨ (∃ p ∈ t.leaves, ∃ q, q ≠ [] ∧ p.2 = b ++ q) := by
  induction t generalizing b with
  | leaf i sym => exact .inl ⟨(sym, []), by simp [leaves], b, rfl⟩
  | node i l r ihl ihr =>
    cases b with
    | nil =>
      refine .inr ?_
      obtain ⟨p, hp⟩ := List.exists_mem_of_ne_nil _ l.leaves_ne_nil
      refine ⟨(p.1, false :: p.2), ?_, false :: p.2, by simp, rfl⟩
      simp only [leaves, List.mem_append, List.mem_map]
      exact .inl ⟨p, hp, rfl⟩
    | cons x b =>
      cases x with
      | false =>
        rcases ihl b with ⟨p, hp, rest, h⟩ | ⟨p, hp, q, hq, h⟩
        · refine .inl ⟨(p.1, false :: p.2), ?_, rest, by simp [h]⟩
          simp only [leaves, List.mem_append, List.mem_map]
          exact .inl ⟨p, hp, rfl⟩
        · refine .inr ⟨(p.1, false :: p.2), ?_, q, hq, by simp [h]⟩
          simp only [leaves, List.mem_append, List.mem_map]
          exact .inl ⟨p, hp, rfl⟩
      | true =>
        rcases ihr b with ⟨p, hp, rest, h⟩ | ⟨p, hp, q, hq, h⟩
        · refine .inl ⟨(p.1, true :: p.2), ?_, rest, by simp [h]⟩
          simp only [leaves, List.mem_append, List.mem_map]
          exact .inr ⟨p, hp, rfl⟩
        · refine .inr ⟨(p.1, true :: p.2), ?_, q, hq, by simp [h]⟩
          simp only [leaves, List.mem_append, List.mem_map]
          exact .inr ⟨p, hp, rfl⟩

/-- One bit read at an internal node moves the cursor to the child it names (R130). -/
theorem decodeLoop_bit {s : State} {i k em : Nat} {l r : CodeTree} {x : Bool} {b : Bits}
    (h : Holds s (.node i l r)) (hr : remaining s = x :: b) :
    decodeLoop (k + 1) i em s =
      match (if x then r else l) with
      | .leaf _ sym =>
        if sym = Config.eofSym then .ok () (advance 1 s)
        else decodeLoop k s.root.toNat (em + 1) (writeSeq (spell 8 sym) (advance 1 s))
      | .node j _ _ => decodeLoop k j em (advance 1 s) := by
  obtain ⟨n, h1, h2, h3, h4, h5, h6⟩ := h
  rw [decodeLoop, readBit_cons hr]
  simp only [nodeAt_advance, h1]
  cases x
  · simp only [Bool.toNat_false, if_true, h3, Bool.false_eq_true, if_false]
    cases l with
    | leaf j sym =>
      obtain ⟨m, m1, m2, m3⟩ := h5
      simp only [CodeTree.index_leaf, m1, m2, m3, if_true]
      rfl
    | node j l' r' =>
      obtain ⟨m, m1, m2, -⟩ := h5
      simp only [CodeTree.index_node, m1, m2, Bool.false_eq_true, if_false]
  · simp only [Bool.toNat_true, Nat.one_ne_zero, if_true, h4, if_false]
    cases r with
    | leaf j sym =>
      obtain ⟨m, m1, m2, m3⟩ := h6
      simp only [CodeTree.index_leaf, m1, m2, m3, if_true]
      rfl
    | node j l' r' =>
      obtain ⟨m, m1, m2, -⟩ := h6
      simp only [CodeTree.index_node, m1, m2, Bool.false_eq_true, if_false]

/-- A leaf of an internal node is a leaf of the child that its path's first bit names. -/
theorem mem_leaves_node {i : Nat} {l r : CodeTree} {sym : Nat} {p : Bits} (h : (sym, p) ∈ (CodeTree.node i l r).leaves) :
    ∃ x q, p = x :: q ∧ (sym, q) ∈ (if x then r else l).leaves := by
  simp only [CodeTree.leaves, List.mem_append, List.mem_map, Prod.mk.injEq] at h
  rcases h with ⟨q, hq, rfl, rfl⟩ | ⟨q, hq, rfl, rfl⟩
  · exact ⟨false, q.2, rfl, by simpa using hq⟩
  · exact ⟨true, q.2, rfl, by simpa using hq⟩

theorem Holds.child {s : State} {i : Nat} {l r : CodeTree} (h : Holds s (.node i l r)) (x : Bool) :
    Holds s (if x then r else l) := by
  obtain ⟨n, -, -, -, -, h5, h6⟩ := h
  cases x
  · simpa using h5
  · simpa using h6

/-- Along the path of a leaf the cursor comes to the leaf (R130). -/
theorem decodeLoop_path {t : CodeTree} {s : State} {sym : Nat} {p rest : Bits} {k em : Nat} (h : Holds s t)
    (hm : (sym, p) ∈ t.leaves) (hne : p ≠ []) (hp : PortOk s) (hr : remaining s = p ++ rest) :
    decodeLoop (p.length + k) t.index em s =
      if sym = Config.eofSym then .ok () (advance p.length s)
      else decodeLoop k s.root.toNat (em + 1) (writeSeq (spell 8 sym) (advance p.length s)) := by
  induction t generalizing s p with
  | leaf i sym' =>
    simp only [CodeTree.leaves, List.mem_singleton, Prod.mk.injEq] at hm
    exact absurd hm.2 hne
  | node i l r ihl ihr =>
    obtain ⟨x, q, rfl, hq⟩ := mem_leaves_node hm
    have hc := h.child x
    have hr' : remaining (advance 1 s) = q ++ rest := remaining_advance_append (b := [x]) hp (by simpa using hr) rfl
    have hp' : PortOk (advance 1 s) := hp.advance_append (b := [x]) (rest := q ++ rest) (by simpa using hr) rfl
    have ih : ∀ {s : State} {p : Bits}, Holds s (if x then r else l) → (sym, p) ∈ (if x then r else l).leaves → p ≠ [] →
        PortOk s → remaining s = p ++ rest → decodeLoop (p.length + k) (if x then r else l).index em s =
          if sym = Config.eofSym then .ok () (advance p.length s)
          else decodeLoop k s.root.toNat (em + 1) (writeSeq (spell 8 sym) (advance p.length s)) := by
      cases x
      · exact ihl
      · exact ihr
    rw [List.length_cons, Nat.add_right_comm, CodeTree.index_node, decodeLoop_bit h (by simpa using hr)]
    revert hc hq ih
    generalize (if x then r else l) = c
    intro hq hc ih
    cases c with
    | leaf j sym' =>
      simp only [CodeTree.leaves, List.mem_singleton, Prod.mk.injEq] at hq
      obtain ⟨rfl, rfl⟩ := hq
      simp
    | node j l' r' =>
      have hqne : q ≠ [] := by
        obtain ⟨x', q', rfl, -⟩ := mem_leaves_node hq
        simp
      have hc' : Holds (advance 1 s) (.node j l' r') := hc.of_nodes_eq rfl
      have := ih hc' hq hqne hp' hr'
      rw [CodeTree.index_node] at this
      simp only [this, advance_advance, advance_root, Nat.add_comm 1 q.length]

/-- Where IN ends inside a path, DECODE is truncated (R132). -/
theorem decodeLoop_prefix {t : CodeTree} {s : State} {sym : Nat} {b q : Bits} {em : Nat} (h : Holds s t)
    (hm : (sym, b ++ q) ∈ t.leaves) (hq : q ≠ []) (hp : PortOk s) (hr : remaining s = b) :
    decodeLoop b.length t.index em s = truncated em (advance b.length s) := by
  induction t generalizing s b with
  | leaf i sym' =>
    simp only [CodeTree.leaves, List.mem_singleton, Prod.mk.injEq, List.append_eq_nil_iff] at hm
    exact absurd hm.2.2 hq
  | node i l r ihl ihr =>
    cases b with
    | nil => rw [List.length_nil, decodeLoop, advance_zero]
    | cons x b =>
      obtain ⟨x', q', hxq, hm'⟩ := mem_leaves_node hm
      obtain ⟨rfl, rfl⟩ := by simpa using hxq
      have hc := h.child x
      have hr' : remaining (advance 1 s) = b := remaining_advance_append (b := [x]) hp (by simpa using hr) rfl
      have hp' : PortOk (advance 1 s) := hp.advance_append (b := [x]) (rest := b) (by simpa using hr) rfl
      have ih : ∀ {s : State} {b : Bits}, Holds s (if x then r else l) → (sym, b ++ q) ∈ (if x then r else l).leaves →
          PortOk s → remaining s = b → decodeLoop b.length (if x then r else l).index em s =
            truncated em (advance b.length s) := by
        cases x
        · exact fun h hm => ihl h hm
        · exact fun h hm => ihr h hm
      rw [List.length_cons, CodeTree.index_node, decodeLoop_bit h hr]
      revert hc hm' ih
      generalize (if x then r else l) = c
      intro hm' hc ih
      cases c with
      | leaf j sym' =>
        simp only [CodeTree.leaves, List.mem_singleton, Prod.mk.injEq, List.append_eq_nil_iff] at hm'
        exact absurd hm'.2.2 hq
      | node j l' r' =>
        have hc' : Holds (advance 1 s) (.node j l' r') := hc.of_nodes_eq rfl
        have := ih hc' hm' hp' hr'
        rw [CodeTree.index_node] at this
        simp only [this, advance_advance, Nat.add_comm 1 b.length]

/-- The loop of DECODE at the root of a tree with two leaves or more, where the codes of bytes follow (R130). -/
theorem decodeLoop_bytes {i : Nat} {l r : CodeTree} (bs : List Byte) (k em : Nat) (rest : Bits) (s : State)
    (h : TreeIs s (.node i l r)) (hb : ∀ b ∈ bs, b.toNat ∈ (CodeTree.node i l r).symbols) (hp : PortOk s)
    (hr : remaining s = pathsOf (.node i l r) bs ++ rest) :
    decodeLoop ((pathsOf (.node i l r) bs).length + k) i em s =
      decodeLoop k i (em + bs.length)
        (writeSeq (bytesToBits bs) (advance (pathsOf (.node i l r) bs).length s)) := by
  induction bs generalizing s em with
  | nil => simp [advance_zero]
  | cons b bs ih =>
    obtain ⟨p, hpath⟩ := Option.isSome_iff_exists.mp (path_isSome_iff.mpr (hb b (by simp)))
    have hmem := path_mem hpath
    have hne : p ≠ [] := by
      obtain ⟨x, q, rfl, -⟩ := mem_leaves_node hmem
      simp
    simp only [pathsOf_cons, hpath, Option.getD_some, List.append_assoc] at hr ⊢
    have hroot : s.root.toNat = i := h.index.symm
    have hsym : b.toNat ≠ Config.eofSym := by
      have := b.isLt
      simp [Config.eofSym]
      omega
    have step := decodeLoop_path (k := (pathsOf (.node i l r) bs).length + k) (em := em) h.holds hmem hne hp hr
    rw [CodeTree.index_node, if_neg hsym, hroot] at step
    rw [List.length_append, Nat.add_assoc, step, ih]
    · rw [advance_writeSeq, advance_advance, writeSeq_writeSeq, List.length_cons, Nat.add_assoc, Nat.add_comm 1]
      rfl
    · exact h.congr rfl rfl rfl
    · exact fun c hc => hb c (by simp [hc])
    · exact (hp.advance_append hr rfl).congr rfl rfl
    · exact remaining_advance_append hp hr rfl

/-- DECODE where the codes of bytes and the code of EOF follow (R130, R135). -/
theorem decodeBody_stream {i : Nat} {l r : CodeTree} {bs : List Byte} {e rest : Bits} {s : State}
    (hv : s.treeValid = true) (h : TreeIs s (.node i l r)) (hb : ∀ b ∈ bs, b.toNat ∈ (CodeTree.node i l r).symbols)
    (he : (CodeTree.node i l r).path Config.eofSym = some e) (hp : PortOk s)
    (hr : remaining s = pathsOf (.node i l r) bs ++ (e ++ rest)) :
    decodeBody s =
      .ok () (writeSeq (bytesToBits bs) (advance ((pathsOf (.node i l r) bs).length + e.length) s)) := by
  have hroot : s.root.toNat = i := h.index.symm
  obtain ⟨n, h1, h2, -⟩ := h.holds
  have hmem := path_mem he
  have hne : e ≠ [] := by
    obtain ⟨x, q, rfl, -⟩ := mem_leaves_node hmem
    simp
  have hlen : bitsLeft s = (pathsOf (.node i l r) bs).length + (e.length + rest.length) := by
    rw [← length_remaining, hr]
    simp
  have hr' : remaining (writeSeq (bytesToBits bs) (advance (pathsOf (.node i l r) bs).length s)) = e ++ rest :=
    remaining_advance_append hp hr rfl
  have hp' : PortOk (writeSeq (bytesToBits bs) (advance (pathsOf (.node i l r) bs).length s)) :=
    (hp.advance_append hr rfl).congr rfl rfl
  have h' : TreeIs (writeSeq (bytesToBits bs) (advance (pathsOf (.node i l r) bs).length s)) (.node i l r) :=
    h.congr rfl rfl rfl
  have step := decodeLoop_path (k := rest.length) (em := 0 + bs.length) h'.holds hmem hne hp' hr'
  rw [CodeTree.index_node, if_pos rfl] at step
  simp only [decodeBody, hv, if_true, hroot, h1, h2, Bool.false_eq_true, if_false]
  rw [hlen, decodeLoop_bytes bs _ 0 _ s h hb hp hr, step, advance_writeSeq, advance_advance]

/-- DECODE where the codes of bytes and then less than a code follow (R132, R136). -/
theorem decodeBody_truncated {i : Nat} {l r : CodeTree} {bs : List Byte} {sym : Nat} {b q : Bits} {s : State}
    (hv : s.treeValid = true) (h : TreeIs s (.node i l r)) (hb : ∀ b ∈ bs, b.toNat ∈ (CodeTree.node i l r).symbols)
    (hm : (sym, b ++ q) ∈ (CodeTree.node i l r).leaves) (hq : q ≠ []) (hp : PortOk s)
    (hr : remaining s = pathsOf (.node i l r) bs ++ b) :
    decodeBody s =
      truncated bs.length (writeSeq (bytesToBits bs) (advance ((pathsOf (.node i l r) bs).length + b.length) s)) := by
  have hroot : s.root.toNat = i := h.index.symm
  obtain ⟨n, h1, h2, -⟩ := h.holds
  have hlen : bitsLeft s = (pathsOf (.node i l r) bs).length + b.length := by
    rw [← length_remaining, hr]
    simp
  have hr' : remaining (writeSeq (bytesToBits bs) (advance (pathsOf (.node i l r) bs).length s)) = b :=
    remaining_advance_append hp hr rfl
  have hp' : PortOk (writeSeq (bytesToBits bs) (advance (pathsOf (.node i l r) bs).length s)) :=
    (hp.advance_append hr rfl).congr rfl rfl
  have h' : TreeIs (writeSeq (bytesToBits bs) (advance (pathsOf (.node i l r) bs).length s)) (.node i l r) :=
    h.congr rfl rfl rfl
  have step := decodeLoop_prefix (em := 0 + bs.length) h'.holds hm hq hp' hr'
  rw [CodeTree.index_node] at step
  simp only [decodeBody, hv, if_true, hroot, h1, h2, Bool.false_eq_true, if_false]
  rw [hlen, decodeLoop_bytes bs _ 0 _ s h hb hp hr, step, advance_writeSeq, advance_advance, Nat.zero_add]

/-- Every bit sequence is the codes of bytes, and then the code of EOF and more, or less than a code (R134, R135). -/
theorem decode_parse {i : Nat} {l r : CodeTree} (hs : ∀ sym ∈ (CodeTree.node i l r).symbols, sym ≤ Config.eofSym)
    (hn : (CodeTree.node i l r).symbols.Nodup) (b : Bits) :
    ∃ bs : List Byte, (∀ c ∈ bs, c.toNat ∈ (CodeTree.node i l r).symbols) ∧
      ((∃ e rest, (CodeTree.node i l r).path Config.eofSym = some e ∧ b = pathsOf (.node i l r) bs ++ (e ++ rest)) ∨
        (∃ sym q q', q' ≠ [] ∧ (sym, q ++ q') ∈ (CodeTree.node i l r).leaves ∧ b = pathsOf (.node i l r) bs ++ q)) := by
  induction hlen : b.length using Nat.strong_induction_on generalizing b with
  | _ n ih =>
    subst hlen
    rcases (CodeTree.node i l r).path_or_prefix b with ⟨p, hp, rest, hb⟩ | ⟨p, hp, q, hq, hb⟩
    · have hpath := path_of_mem hn hp
      by_cases he : p.1 = Config.eofSym
      · exact ⟨[], by simp, .inl ⟨p.2, rest, by rw [← he, hpath], by simpa using hb⟩⟩
      · have hlt : p.1 < 256 := by
          have := hs p.1 (List.mem_map_of_mem hp)
          simp [Config.eofSym] at *
          omega
        have hpos : 0 < p.2.length := by
          obtain ⟨x, q, hx, -⟩ := mem_leaves_node (sym := p.1) (p := p.2) hp
          simp [hx]
        obtain ⟨bs, hbs, h⟩ := ih rest.length (by rw [hb, List.length_append]; omega) rest rfl
        have hnat : (BitVec.ofNat 8 p.1).toNat = p.1 := by simp; omega
        have hcons : pathsOf (.node i l r) (BitVec.ofNat 8 p.1 :: bs) = p.2 ++ pathsOf (.node i l r) bs := by
          simp [hnat, hpath]
        refine ⟨BitVec.ofNat 8 p.1 :: bs, ?_, ?_⟩
        · intro c hc
          rcases List.mem_cons.mp hc with rfl | hc
          · rw [hnat]; exact List.mem_map_of_mem hp
          · exact hbs c hc
        · rw [hcons]
          rcases h with ⟨e, rest', h1, h2⟩ | ⟨sym, q, q', h1, h2, h3⟩
          · exact .inl ⟨e, rest', h1, by rw [hb, h2, List.append_assoc]⟩
          · exact .inr ⟨sym, q, q', h1, h2, by rw [hb, h3, List.append_assoc]⟩
    · exact ⟨[], by simp, .inr ⟨p.1, b, q, hq, by rw [← hb]; exact hp, by simp⟩⟩

/-- DECODE of a tree always ends (R135, R203). -/
theorem decodeBody_ends {s : State} (hp : PortOk s) (ht : s.treeValid = true → ∃ t, TreeIs s t) :
    (decodeBody s).Ends := by
  by_cases hv : s.treeValid = true
  · obtain ⟨t, h⟩ := ht hv
    cases t with
    | leaf i sym =>
      obtain ⟨n, h1, h2, h3⟩ := h.holds
      have hroot : s.root.toNat = i := h.index.symm
      simp only [decodeBody, hv, if_true, hroot, h1, h2]
      split
      · exact trivial
      · exact trivial
    | node i l r =>
      obtain ⟨bs, hb, ⟨e, rest, he, hr⟩ | ⟨sym, q, q', hq, hm, hr⟩⟩ := decode_parse h.2.2.2 h.2.2.1 (remaining s)
      · rw [decodeBody_stream hv h hb he hp hr]
        exact trivial
      · rw [decodeBody_truncated hv h hb hm hq hp hr]
        exact trivial
  · rw [decodeBody, if_neg hv]
    exact trivial

/-- The errors of the loop of DECODE, with their DETAIL (R163). -/
abbrev decodeErrors : List (Err × BitVec 8) := [(.truncatedStream, 0#8)]

theorem decodeLoop_all {P Q : State → Prop} (h1 : ∀ s, P s → 1 ≤ bitsLeft s → P (advance 1 s))
    (h2 : ∀ b s, P s → P (writeSeq b s))
    (h3 : ∀ e ∈ decodeErrors, ∀ i s, P s → Q (raised (opcode .decode) e.1 e.2 i s)) (k c em : Nat) (s : State) (h : P s) :
    (decodeLoop k c em s).Post P Q := by
  induction k generalizing c em s with
  | zero => exact h3 (.truncatedStream, 0#8) (by simp) _ _ h
  | succ k ih =>
    rw [decodeLoop]
    split
    · exact h3 (.truncatedStream, 0#8) (by simp) _ _ h
    · next b s1 hread =>
      obtain ⟨hb, -, rfl⟩ := readBits_eq_some_iff.mp hread
      split
      · trivial
      · dsimp only
        split
        · trivial
        · split
          · split
            · exact h1 _ h hb
            · exact ih _ _ _ (h2 _ _ (h1 _ h hb))
          · exact ih _ _ _ (h1 _ h hb)

end Sys2Proof.Machine
end

