-- ==== Sys2Proof/Laws/Header.lean ====
section
/-!
SUPPORT. DESERIALIZE (R104 to R112): reading back what the grammar of R102 derives, and where a header is broken off.
-/

namespace Sys2Proof.Machine

/-! ## The node memory under the writes of DESERIALIZE -/

theorem nodeCount_succ {s : State} (h : s.nodeCount.toNat < Config.nodeCap) :
    (s.nodeCount + 1#10).toNat = s.nodeCount.toNat + 1 := by
  simp [Config.nodeCap] at h
  simp [BitVec.toNat_add]
  omega

theorem nodeAt_pushNode {s : State} (h : s.nodeCount.toNat < Config.nodeCap) (n : Node) (j : Nat) :
    nodeAt (pushNode n s) j = if j = s.nodeCount.toNat then some n else nodeAt s j := by
  have h' : s.nodeCount.toNat < 513 := h
  rw [nodeAt, pushNode_nodes, Vector.getElem?_setIfInBounds, nodeAt]
  by_cases hj : s.nodeCount.toNat = j
  · subst hj; simp [h']
  · simp [hj, Ne.symm hj]

theorem nodeAt_setNode {s : State} {i : Nat} (hi : i < Config.nodeCap) (n : Node) (j : Nat) :
    nodeAt (setNode i n s) j = if j = i then some n else nodeAt s j := by
  have h' : i < 513 := hi
  rw [nodeAt, setNode_nodes, Vector.getElem?_setIfInBounds, nodeAt]
  by_cases hj : i = j
  · subst hj; simp [h']
  · simp [hj, Ne.symm hj]

theorem setLeft_of_nodeAt {s : State} {i : Nat} {n : Node} (h : nodeAt s i = some n) (l : Nat) :
    setLeft i l s = setNode i { n with left := BitVec.ofNat 10 l } s := by
  simp [setLeft, h]

theorem setRight_of_nodeAt {s : State} {i : Nat} {n : Node} (h : nodeAt s i = some n) (r : Nat) :
    setRight i r s = setNode i { n with right := BitVec.ofNat 10 r } s := by
  simp [setRight, h]

/-- The node memory of `s` with other contents, some nodes more, and the cursor moved: all that DESERIALIZE's recursion
does (R104). -/
def grown (N : Vector Node 513) (c p : Nat) (s : State) : State :=
  { s with nodes := N, nodeCount := s.nodeCount + BitVec.ofNat 10 c, inPos := s.inPos + BitVec.ofNat 64 p }

@[simp] theorem grown_nodes (N : Vector Node 513) (c p : Nat) (s : State) : (grown N c p s).nodes = N := rfl
@[simp] theorem grown_nodeCount (N : Vector Node 513) (c p : Nat) (s : State) :
    (grown N c p s).nodeCount = s.nodeCount + BitVec.ofNat 10 c := rfl
@[simp] theorem grown_inPos (N : Vector Node 513) (c p : Nat) (s : State) :
    (grown N c p s).inPos = s.inPos + BitVec.ofNat 64 p := rfl
@[simp] theorem grown_inBits (N : Vector Node 513) (c p : Nat) (s : State) : (grown N c p s).inBits = s.inBits := rfl

theorem grown_grown (N M : Vector Node 513) (c c' p p' : Nat) (s : State) :
    grown M c' p' (grown N c p s) = grown M (c + c') (p + p') s := by
  simp [grown, BitVec.ofNat_add, BitVec.add_assoc]

theorem setNode_grown (N : Vector Node 513) (c p i : Nat) (n : Node) (s : State) :
    setNode i n (grown N c p s) = grown (N.setIfInBounds i n) c p s := rfl

theorem grown_nodeCount_toNat {N : Vector Node 513} {c p : Nat} {s : State}
    (h : s.nodeCount.toNat + c ≤ Config.nodeCap) : (grown N c p s).nodeCount.toNat = s.nodeCount.toNat + c := by
  simp [Config.nodeCap] at h
  rw [grown_nodeCount, BitVec.toNat_add, BitVec.toNat_ofNat, Nat.mod_eq_of_lt (a := c) (by omega),
    Nat.mod_eq_of_lt (by omega)]

theorem grown_port {N : Vector Node 513} {c p : Nat} {s : State} {b rest : Bits} (hp : PortOk s)
    (hr : remaining s = b ++ rest) (hb : b.length = p) : PortOk (grown N c p s) ∧ remaining (grown N c p s) = rest :=
  ⟨(hp.advance_append hr hb).congr rfl rfl,
    (remaining_congr (s := advance p s) rfl rfl).trans (remaining_advance_append hp hr hb)⟩

theorem pushNode_advance (n : Node) (p : Nat) (s : State) :
    pushNode n (advance p s) = grown (s.nodes.setIfInBounds s.nodeCount.toNat n) 1 p s := rfl

/-! ## Reading a header -/

/-- One turn of `Des` at an internal node, where there is room for it (R104). -/
theorem desNode_inner {d : Nat} {seen : List Nat} {s : State} {rest : Bits} (hr : remaining s = false :: rest)
    (hc : s.nodeCount.toNat < Config.nodeCap) :
    desNode (d + 1) seen s =
      (desNode d seen (pushNode (innerNode 0 0 0#32) (advance 1 s))).bind fun (l, seen1) s2 =>
        (desNode d seen1 (setLeft s.nodeCount.toNat l s2)).bind fun (r, seen2) s3 =>
          .ok (s.nodeCount.toNat, seen2) (setRight s.nodeCount.toNat r s3) := by
  have hne : ¬ (advance 1 s).nodeCount.toNat = Config.nodeCap := by rw [advance_nodeCount]; omega
  rw [desNode, readBit_cons hr]
  simp only [Bool.toNat_false, Nat.zero_ne_one, if_false]
  rw [if_neg hne]
  rfl

/-- One turn of `Des` at a leaf (R104). -/
theorem desNode_leaf {d : Nat} {seen : List Nat} {s : State} {rest : Bits} (hr : remaining s = true :: rest) :
    desNode (d + 1) seen s = desLeaf seen (advance 1 s) := by
  rw [desNode, readBit_cons hr]
  simp

/-- The nodes of indices below `c` are untouched. -/
theorem nodeAt_grown_push {s : State} (h : s.nodeCount.toNat < Config.nodeCap) (n : Node) (p j : Nat) :
    nodeAt (pushNode n (advance p s)) j = if j = s.nodeCount.toNat then some n else nodeAt s j :=
  nodeAt_pushNode (s := advance p s) h n j

/-- `Des` at a header that the grammar derives, with room and new symbols: the tree in preorder, its bits consumed
(R104, R105, R110, R112). -/
theorem desNode_header {t : CodeTree} {d : Nat} {seen : List Nat} {s : State} {rest : Bits} (hp : PortOk s)
    (hr : remaining s = t.header ++ rest) (hc : s.nodeCount.toNat + t.indices.length ≤ Config.nodeCap)
    (hs : ∀ x ∈ t.symbols, x ≤ Config.eofSym) (hn : t.symbols.Nodup) (hnew : ∀ x ∈ t.symbols, x ∉ seen)
    (hd : t.height ≤ d) :
    ∃ seen' N, desNode d seen s = .ok (s.nodeCount.toNat, seen') (grown N t.indices.length t.header.length s) ∧
      (∀ x, x ∈ seen' ↔ x ∈ seen ∨ x ∈ t.symbols) ∧ (∀ j < s.nodeCount.toNat, N[j]? = nodeAt s j) ∧
      Stores (grown N t.indices.length t.header.length s) (fun _ => 0#32) (t.preorder s.nodeCount.toNat) := by
  induction t generalizing d seen s rest with
  | leaf i sym =>
    obtain ⟨d, rfl⟩ : ∃ e, d = e + 1 := ⟨d - 1, by simp [CodeTree.height] at hd; omega⟩
    have hcap : s.nodeCount.toNat < Config.nodeCap := by simp [CodeTree.indices] at hc; omega
    have hsym : sym ≤ Config.eofSym := hs sym (by simp)
    have h9 : sym < 2 ^ 9 := by simp [Config.eofSym] at hsym; omega
    rw [CodeTree.header, List.cons_append] at hr
    have hr' : remaining (advance 1 s) = spell Config.symW sym ++ rest :=
      remaining_advance_append (b := [true]) hp (by simpa using hr) rfl
    have hval : bitsValue (spell Config.symW sym) = sym := by rw [bitsValue_spell, Config.symW, Nat.mod_eq_of_lt h9]
    have hread := readBits_of_append (n := Config.symW) hr' (by simp)
    rw [hval] at hread
    have hne : ¬ (advance Config.symW (advance 1 s)).nodeCount.toNat = Config.nodeCap := by
      simp only [advance_nodeCount]; omega
    refine ⟨sym :: seen, s.nodes.setIfInBounds s.nodeCount.toNat (leafNode sym 0#32), ?_, ?_, ?_, ?_⟩
    · rw [desNode_leaf hr, desLeaf, hread]
      simp only [Nat.not_lt.mpr hsym, if_false, hnew sym (by simp), hne]
      congr 1
      rw [advance_advance, pushNode_advance]
      rfl
    · intro x
      simp only [List.mem_cons, CodeTree.symbols_leaf, List.not_mem_nil, or_false]
      tauto
    · intro j hj
      rw [Vector.getElem?_setIfInBounds_ne (by omega)]
      rfl
    · have : s.nodeCount.toNat < 513 := hcap
      simp [CodeTree.preorder, Stores, nodeAt, this]
  | node i l r ihl ihr =>
    obtain ⟨d, rfl⟩ : ∃ e, d = e + 1 := ⟨d - 1, by simp [CodeTree.height] at hd; omega⟩
    have hdl : l.height ≤ d := by simp [CodeTree.height] at hd; omega
    have hdr : r.height ≤ d := by simp [CodeTree.height] at hd; omega
    simp only [CodeTree.indices, List.length_cons, List.length_append] at hc
    simp only [CodeTree.symbols_node, List.nodup_append, List.mem_append] at hs hn hnew
    have hcap : s.nodeCount.toNat < Config.nodeCap := by omega
    have hcap' : s.nodeCount.toNat < 513 := hcap
    have hcapE : Config.nodeCap = 513 := rfl
    rw [CodeTree.header, List.cons_append, List.append_assoc] at hr
    -- after the flag bit
    set s1 := pushNode (innerNode 0 0 0#32) (advance 1 s) with hs1
    have hs1g : s1 = grown (s.nodes.setIfInBounds s.nodeCount.toNat (innerNode 0 0 0#32)) 1 1 s := rfl
    obtain ⟨hp1, hr1⟩ := grown_port (N := s.nodes.setIfInBounds s.nodeCount.toNat (innerNode 0 0 0#32)) (c := 1)
      (p := 1) (b := [false]) hp (by simpa using hr) rfl
    rw [← hs1g] at hp1 hr1
    have hc1 : s1.nodeCount.toNat = s.nodeCount.toNat + 1 := by rw [hs1g, grown_nodeCount_toNat (by omega)]
    -- the left subtree
    obtain ⟨seen1, N1, hdes1, hseen1, hlow1, hst1⟩ := ihl (seen := seen) hp1 hr1 (by omega) (fun x hx => hs x (.inl hx)) hn.1
      (fun x hx => hnew x (.inl hx)) hdl
    have hi1 : nodeAt (grown N1 l.indices.length l.header.length s1) s.nodeCount.toNat = some (innerNode 0 0 0#32) := by
      show N1[s.nodeCount.toNat]? = _
      rw [hlow1 _ (by omega), hs1, nodeAt_grown_push hcap, if_pos rfl]
    set m : Node := { innerNode 0 0 0#32 with left := BitVec.ofNat 10 s1.nodeCount.toNat } with hm
    have hset1 : setLeft s.nodeCount.toNat s1.nodeCount.toNat (grown N1 l.indices.length l.header.length s1) =
        grown (N1.setIfInBounds s.nodeCount.toNat m) l.indices.length l.header.length s1 := by
      rw [setLeft_of_nodeAt hi1, setNode_grown]
    set s2 := grown (N1.setIfInBounds s.nodeCount.toNat m) l.indices.length l.header.length s1 with hs2
    obtain ⟨hp2, hr2⟩ := grown_port (N := N1.setIfInBounds s.nodeCount.toNat m) (c := l.indices.length)
      (p := l.header.length) hp1 hr1 rfl
    rw [← hs2] at hp2 hr2
    have hc2 : s2.nodeCount.toNat = s.nodeCount.toNat + 1 + l.indices.length := by
      rw [hs2, grown_nodeCount_toNat (by omega), hc1]
    -- the right subtree
    obtain ⟨seen2, N2, hdes2, hseen2, hlow2, hst2⟩ := ihr (seen := seen1) hp2 hr2 (by omega) (fun x hx => hs x (.inr hx)) hn.2.1
      (fun x hx h => (hseen1 x).mp h |>.elim (hnew x (.inr hx)) fun h' => hn.2.2 x h' x hx rfl) hdr
    have hi2 : nodeAt (grown N2 r.indices.length r.header.length s2) s.nodeCount.toNat = some m := by
      show N2[s.nodeCount.toNat]? = _
      rw [hlow2 _ (by omega), hs2, ← setNode_grown, nodeAt_setNode hcap, if_pos rfl]
    set m' : Node := { m with right := BitVec.ofNat 10 s2.nodeCount.toNat } with hm'
    have hset2 : setRight s.nodeCount.toNat s2.nodeCount.toNat (grown N2 r.indices.length r.header.length s2) =
        grown (N2.setIfInBounds s.nodeCount.toNat m') r.indices.length r.header.length s2 := by
      rw [setRight_of_nodeAt hi2, setNode_grown]
    have hfin : grown (N2.setIfInBounds s.nodeCount.toNat m') r.indices.length r.header.length s2 =
        grown (N2.setIfInBounds s.nodeCount.toNat m') (CodeTree.node i l r).indices.length
          (CodeTree.node i l r).header.length s := by
      rw [hs2, grown_grown, hs1g, grown_grown]
      simp only [CodeTree.indices, CodeTree.header, List.length_cons, List.length_append]
      congr 1 <;> omega
    have hmi : m' = innerNode s1.nodeCount.toNat s2.nodeCount.toNat 0#32 := rfl
    refine ⟨seen2, N2.setIfInBounds s.nodeCount.toNat m', ?_, ?_, ?_, ?_⟩
    · rw [desNode_inner (rest := l.header ++ (r.header ++ rest)) hr hcap, ← hs1, hdes1, Run.bind_ok]
      simp only [hset1]
      rw [hdes2, Run.bind_ok]
      simp only [hset2, hfin]
    · intro x
      rw [hseen2, hseen1, CodeTree.symbols_node, List.mem_append]
      tauto
    · intro j hj
      rw [Vector.getElem?_setIfInBounds_ne (by omega), hlow2 j (by omega), hs2, ← setNode_grown, nodeAt_setNode hcap,
        if_neg (by omega)]
      show N1[j]? = _
      rw [hlow1 j (by omega), hs1, nodeAt_grown_push hcap, if_neg (by omega)]
    · rw [← hfin, ← setNode_grown]
      refine ⟨?_, ?_, ?_⟩
      · rw [nodeAt_setNode hcap, if_pos rfl, hmi]
        simp only [CodeTree.index_preorder, hc1, hc2]
      · rw [hc1] at hst1
        refine hst1.congr ?_
        intro j hj
        rw [CodeTree.indices_preorder, List.mem_range'_1] at hj
        rw [nodeAt_setNode hcap, if_neg (by omega)]
        show N2[j]? = _
        rw [hlow2 j (by omega), hs2, ← setNode_grown, nodeAt_setNode hcap, if_neg (by omega)]
      · rw [hc2] at hst2
        refine hst2.congr ?_
        intro j hj
        rw [CodeTree.indices_preorder, List.mem_range'_1] at hj
        rw [nodeAt_setNode hcap, if_neg (by omega)]

/-! ## Every end of DESERIALIZE -/

/-- The errors of DESERIALIZE, with their DETAIL (R163). -/
abbrev headerErrors : List (Err × BitVec 8) :=
  [(.malformedHeader, 1#8), (.malformedHeader, 2#8), (.malformedHeader, 3#8), (.malformedHeader, 4#8)]

theorem desLeaf_all {P Q : State → Prop} (h1 : ∀ n s, P s → n ≤ bitsLeft s → P (advance n s))
    (h2 : ∀ n s, P s → P (pushNode n s))
    (h3 : ∀ e ∈ headerErrors, ∀ i s, P s → Q (raised (opcode .deserialize) e.1 e.2 i s)) (seen : List Nat) (s : State)
    (h : P s) : (desLeaf seen s).Post P Q := by
  unfold desLeaf
  split
  · exact h3 (.malformedHeader, 1#8) (by simp) _ _ h
  · next sym s1 hread =>
    obtain ⟨hb, -, rfl⟩ := readBits_eq_some_iff.mp hread
    split
    · exact h3 (.malformedHeader, 2#8) (by simp) _ _ (h1 _ _ h hb)
    · split
      · exact h3 (.malformedHeader, 3#8) (by simp) _ _ (h1 _ _ h hb)
      · split
        · exact h3 (.malformedHeader, 4#8) (by simp) _ _ (h1 _ _ h hb)
        · exact h2 _ _ (h1 _ _ h hb)

theorem desNode_all {P Q : State → Prop} (h1 : ∀ n s, P s → n ≤ bitsLeft s → P (advance n s))
    (h2 : ∀ n s, P s → P (pushNode n s))
    (h3 : ∀ e ∈ headerErrors, ∀ i s, P s → Q (raised (opcode .deserialize) e.1 e.2 i s))
    (h4 : ∀ i n s, P s → P (setNode i n s)) (d : Nat) (seen : List Nat) (s : State) (h : P s) : (desNode d seen s).Post P Q := by
  have hl : ∀ i l s, P s → P (setLeft i l s) := by
    intro i l s h
    unfold setLeft
    split
    · exact h4 _ _ _ h
    · exact h
  have hr : ∀ i l s, P s → P (setRight i l s) := by
    intro i l s h
    unfold setRight
    split
    · exact h4 _ _ _ h
    · exact h
  induction d generalizing seen s with
  | zero => trivial
  | succ d ih =>
    rw [desNode]
    split
    · exact h3 (.malformedHeader, 1#8) (by simp) _ _ h
    · next f s1 hread =>
      obtain ⟨hb, -, rfl⟩ := readBits_eq_some_iff.mp hread
      split
      · exact desLeaf_all h1 h2 h3 _ _ (h1 _ _ h hb)
      · split
        · exact h3 (.malformedHeader, 4#8) (by simp) _ _ (h1 _ _ h hb)
        · exact (ih _ _ (h2 _ _ (h1 _ _ h hb))).bind fun a u hu => (ih _ _ (hl _ _ _ hu)).bind fun b v hv => hr _ _ _ hv

/-- NODE_COUNT after `Des` ends normally, and that it ends, where the recursion is allowed one level more than there is
room for nodes (R108, R203). -/
theorem desNode_room (d : Nat) (seen : List Nat) (s : State) (hc : s.nodeCount.toNat ≤ Config.nodeCap)
    (hd : Config.nodeCap + 1 ≤ d + s.nodeCount.toNat) :
    (desNode d seen s).Ends ∧ ∀ a u, desNode d seen s = .ok a u →
      s.nodeCount.toNat ≤ u.nodeCount.toNat ∧ u.nodeCount.toNat ≤ Config.nodeCap := by
  induction d generalizing seen s with
  | zero => omega
  | succ d ih =>
    rw [desNode]
    split
    · exact ⟨trivial, by simp [malformed, raise]⟩
    · next f s1 hread =>
      obtain ⟨-, -, rfl⟩ := readBits_eq_some_iff.mp hread
      split
      · unfold desLeaf
        split
        · exact ⟨trivial, by simp [malformed, raise]⟩
        · next sym s2 hread2 =>
          obtain ⟨-, -, rfl⟩ := readBits_eq_some_iff.mp hread2
          split
          · exact ⟨trivial, by simp [malformed, raise]⟩
          · split
            · exact ⟨trivial, by simp [malformed, raise]⟩
            · split
              · exact ⟨trivial, by simp [malformed, raise]⟩
              · next hne =>
                simp only [advance_nodeCount] at hne
                refine ⟨trivial, ?_⟩
                rintro a u h
                simp only [Run.ok.injEq] at h
                rw [← h.2]
                simp only [pushNode_nodeCount, advance_nodeCount]
                rw [nodeCount_succ (by omega)]
                omega
      · split
        · exact ⟨trivial, by simp [malformed, raise]⟩
        · next hne =>
          simp only [advance_nodeCount] at hne
          have hsl : ∀ i l u, (setLeft i l u).nodeCount = u.nodeCount := by
            intro i l u
            unfold setLeft
            split <;> rfl
          have hsr : ∀ i l u, (setRight i l u).nodeCount = u.nodeCount := by
            intro i l u
            unfold setRight
            split <;> rfl
          have hc1 : (pushNode (innerNode 0 0 0#32) (advance 1 s)).nodeCount.toNat = s.nodeCount.toNat + 1 := by
            simp only [pushNode_nodeCount, advance_nodeCount]
            exact nodeCount_succ (by omega)
          obtain ⟨e1, f1⟩ := ih seen (pushNode (innerNode 0 0 0#32) (advance 1 s)) (by omega) (by omega)
          cases h1 : desNode d seen (pushNode (innerNode 0 0 0#32) (advance 1 s)) with
          | stuck f => rw [h1] at e1; exact e1.elim
          | abort u => exact ⟨trivial, by simp⟩
          | ok a u =>
            have g1 := f1 a u h1
            have hcu : (setLeft s.nodeCount.toNat a.1 u).nodeCount.toNat = u.nodeCount.toNat := by rw [hsl]
            obtain ⟨e2, f2⟩ := ih a.2 (setLeft s.nodeCount.toNat a.1 u) (by omega) (by omega)
            simp only [Run.bind_ok, advance_nodeCount]
            cases h2 : desNode d a.2 (setLeft s.nodeCount.toNat a.1 u) with
            | stuck f => rw [h2] at e2; exact e2.elim
            | abort v => exact ⟨trivial, by simp⟩
            | ok b v =>
              have g2 := f2 b v h2
              refine ⟨trivial, ?_⟩
              rintro c w h
              simp only [Run.bind_ok, Run.ok.injEq] at h
              rw [← h.2, hsr]
              omega

/-- DESERIALIZE always ends (R203). -/
theorem deserializeBody_ends (s : State) : (deserializeBody s).Ends := by
  have h := (desNode_room (Config.nodeCap + 1) [] (dropTree s) (by simp) (by simp)).1
  unfold deserializeBody
  cases h1 : desNode (Config.nodeCap + 1) [] (dropTree s) with
  | ok a u => exact trivial
  | abort u => exact trivial
  | stuck f => rw [h1] at h; exact h.elim

/-- Where `Des` ends normally, a header stood at IN_POS (R112). -/
theorem header_of_desNode {d : Nat} {seen : List Nat} {s u : State} {a : Nat × List Nat} (hp : PortOk s)
    (hc : s.nodeCount.toNat ≤ Config.nodeCap) (h : desNode d seen s = .ok a u) :
    ∃ (t : CodeTree) (rest : Bits), remaining s = t.header ++ rest ∧ s.nodeCount.toNat + t.indices.length ≤ Config.nodeCap ∧
      (∀ x ∈ t.symbols, x ≤ Config.eofSym) ∧ t.symbols.Nodup ∧ (∀ x ∈ t.symbols, x ∉ seen) ∧ t.height ≤ d := by
  induction d generalizing seen s u a with
  | zero => simp [desNode] at h
  | succ d ih =>
    rw [desNode] at h
    split at h
    · simp [malformed, raise] at h
    · next f s1 hread =>
      have hlt := readBits_lt hread
      obtain ⟨hn, hf, rfl⟩ := readBits_eq_some_iff.mp hread
      obtain ⟨x, rest, hr⟩ : ∃ x rest, remaining s = x :: rest := by
        cases hrem : remaining s with
        | nil => rw [← length_remaining, hrem] at hn; simp at hn
        | cons x rest => exact ⟨x, rest, rfl⟩
      have hfx : f = x.toNat := by rw [hf, hr]; simp [bitsValue_cons]
      have hp1 : PortOk (advance 1 s) := hp.advance hn
      have hr1 : remaining (advance 1 s) = rest := remaining_advance_append (b := [x]) hp (by simpa using hr) rfl
      split at h
      · next h1 =>
        have hx : x = true := by
          cases x
          · simp [hfx] at h1
          · rfl
        subst hx
        unfold desLeaf at h
        split at h
        · simp [malformed, raise] at h
        · next sym s2 hread2 =>
          obtain ⟨hn2, hsym, rfl⟩ := readBits_eq_some_iff.mp hread2
          split at h
          · simp [malformed, raise] at h
          · next h256 =>
            split at h
            · simp [malformed, raise] at h
            · next hseen =>
              split at h
              · simp [malformed, raise] at h
              · next hcap =>
                simp only [advance_nodeCount] at hcap
                refine ⟨.leaf 0 sym, rest.drop Config.symW, ?_, ?_, ?_, ?_, ?_, ?_⟩
                · have hlen : (rest.take Config.symW).length = Config.symW := by
                    rw [← length_remaining, hr1] at hn2
                    simpa using hn2
                  have hsp : spell Config.symW sym = rest.take Config.symW := by
                    have := spell_bitsValue (rest.take Config.symW)
                    rw [hlen] at this
                    rw [hsym, hr1, this]
                  rw [hr, CodeTree.header, hsp, List.cons_append, List.take_append_drop]
                · simp [CodeTree.indices]; omega
                · simpa using h256
                · simp
                · simpa using hseen
                · simp [CodeTree.height]
      · next h0 =>
        have hx : x = false := by
          cases x
          · rfl
          · simp [hfx] at h0
        subst hx
        split at h
        · simp [malformed, raise] at h
        · next hcap =>
          simp only [advance_nodeCount] at hcap h
          have hcap' : s.nodeCount.toNat < Config.nodeCap := by omega
          have hcapE : Config.nodeCap = 513 := rfl
          have hc1 : (pushNode (innerNode 0 0 0#32) (advance 1 s)).nodeCount.toNat = s.nodeCount.toNat + 1 := by
            simp only [pushNode_nodeCount, advance_nodeCount]
            exact nodeCount_succ hcap'
          have hp2 : PortOk (pushNode (innerNode 0 0 0#32) (advance 1 s)) := hp1.congr rfl rfl
          cases h1 : desNode d seen (pushNode (innerNode 0 0 0#32) (advance 1 s)) with
          | stuck f => rw [h1] at h; simp at h
          | abort v => rw [h1] at h; simp at h
          | ok b v =>
            obtain ⟨l, rest1, e1, e2, e3, e4, e5, e6⟩ := ih hp2 (by omega) h1
            obtain ⟨seen1, N1, g1, g2, g3, -⟩ := desNode_header hp2 e1 e2 e3 e4 e5 e6
            rw [h1] at g1
            simp only [Run.ok.injEq] at g1
            obtain ⟨rfl, rfl⟩ := g1
            rw [h1] at h
            simp only [Run.bind_ok] at h
            obtain ⟨hp3, hr3⟩ := grown_port (N := N1) (c := l.indices.length) hp2 e1 rfl
            have hc3 := grown_nodeCount_toNat (N := N1) (p := l.header.length) e2
            set v := grown N1 l.indices.length l.header.length (pushNode (innerNode 0 0 0#32) (advance 1 s)) with hv
            have hset : ∃ M, setLeft s.nodeCount.toNat (pushNode (innerNode 0 0 0#32) (advance 1 s)).nodeCount.toNat v =
                { v with nodes := M } := by
              unfold setLeft
              split
              · exact ⟨_, rfl⟩
              · exact ⟨v.nodes, rfl⟩
            obtain ⟨M, hM⟩ := hset
            rw [hM] at h
            have hp4 : PortOk { v with nodes := M } := hp3.congr rfl rfl
            cases h2 : desNode d seen1 { v with nodes := M } with
            | stuck f => rw [h2] at h; simp at h
            | abort w => rw [h2] at h; simp at h
            | ok b' w =>
              have hcv : ({ v with nodes := M } : State).nodeCount.toNat = s.nodeCount.toNat + 1 + l.indices.length := by
                rw [show ({ v with nodes := M } : State).nodeCount = v.nodeCount from rfl, hc3, hc1]
              obtain ⟨r, rest2, k1, k2, k3, k4, k5, k6⟩ := ih hp4 (by omega) h2
              have hrem : remaining ({ v with nodes := M } : State) = rest1 := hr3
              rw [hrem] at k1
              have hr2 : remaining (pushNode (innerNode 0 0 0#32) (advance 1 s)) = rest := hr1
              rw [hr2] at e1
              refine ⟨.node 0 l r, rest2, ?_, ?_, ?_, ?_, ?_, ?_⟩
              · rw [hr, e1, k1, CodeTree.header, List.cons_append, List.append_assoc]
              · simp only [CodeTree.indices, List.length_cons, List.length_append]; omega
              · intro x hx
                rw [CodeTree.symbols_node, List.mem_append] at hx
                exact hx.elim (e3 x) (k3 x)
              · rw [CodeTree.symbols_node, List.nodup_append]
                refine ⟨e4, k4, ?_⟩
                rintro x hx y hy rfl
                exact k5 x hy ((g2 x).mpr (.inr hx))
              · intro x hx
                rw [CodeTree.symbols_node, List.mem_append] at hx
                exact hx.elim (e5 x) fun hx' hs => k5 x hx' ((g2 x).mpr (.inl hs))
              · simp only [CodeTree.height]; omega

/-! ## The whole of DESERIALIZE -/

/-- A tree of symbols in range and without repetition fits the node memory (R8, R108). -/
theorem length_indices_le {t : CodeTree} (hn : t.symbols.Nodup) (hs : ∀ x ∈ t.symbols, x ≤ Config.eofSym) :
    t.indices.length ≤ Config.nodeCap := by
  have h1 := t.length_indices
  have h2 := length_le_of_nodup_of_le hn hs
  rw [CodeTree.length_symbols] at h2
  simp [Config.nsym, Config.nodeCap] at *
  omega

/-- A tree stored in preorder from 0 is the tree of the state as R48 has it. -/
theorem treeIs_preorder {s : State} {t : CodeTree} {w : CodeTree → Word} (h : Stores s w (t.preorder 0))
    (hroot : s.root = 0#10) (hc : s.nodeCount.toNat = t.indices.length) (hn : t.symbols.Nodup)
    (hs : ∀ x ∈ t.symbols, x ≤ Config.eofSym) : TreeIs s (t.preorder 0) := by
  have hlen := length_indices_le hn hs
  have hlen' : t.indices.length ≤ 513 := hlen
  have hidx : (t.preorder 0).indices = List.range t.indices.length := by
    rw [CodeTree.indices_preorder, List.range_eq_range']
  have hholds : Holds s (t.preorder 0) := by
    refine h.holds ?_ (by simpa using hs)
    intro i hi
    rw [hidx, List.mem_range] at hi
    omega
  refine ⟨?_, ?_, by simpa using hn, by simpa using hs⟩
  · have := readTree_of_holds (d := Config.nodeCap) hholds (by
      rw [CodeTree.height_preorder]
      have h1 := t.height_le_length_leaves
      have h2 := t.length_indices
      have h3 := t.length_leaves_pos
      simp [Config.nodeCap]
      omega)
    rw [CodeTree.index_preorder] at this
    rw [hroot]
    exact this
  · rw [hidx, hc]

/-- DESERIALIZE at a header (R104, R105, R110, R112). -/
theorem deserializeBody_header {t : CodeTree} {s : State} {rest : Bits} (hp : PortOk s)
    (hr : remaining s = t.header ++ rest) (hs : ∀ x ∈ t.symbols, x ≤ Config.eofSym) (hn : t.symbols.Nodup) :
    ∃ u N, deserializeBody s = .ok () u ∧
      u = { s with nodes := N, nodeCount := BitVec.ofNat 10 t.indices.length, root := 0#10, treeValid := true,
                   tableValid := false, inPos := s.inPos + BitVec.ofNat 64 t.header.length } ∧
      Stores u (fun _ => 0#32) (t.preorder 0) ∧ TreeIs u (t.preorder 0) := by
  have hlen := length_indices_le hn hs
  have hh : t.height ≤ Config.nodeCap + 1 := by
    have h1 := t.height_le_length_leaves
    have h2 := t.length_indices
    have h3 := t.length_leaves_pos
    omega
  obtain ⟨seen', N, h1, -, -, h4⟩ := desNode_header (s := dropTree s) (seen := []) (hp.congr rfl rfl) hr (by simpa using hlen)
    hs hn (by simp) hh
  have hu : ({ grown N t.indices.length t.header.length (dropTree s) with root := 0#10, treeValid := true } : State) =
      { s with nodes := N, nodeCount := BitVec.ofNat 10 t.indices.length, root := 0#10, treeValid := true,
               tableValid := false, inPos := s.inPos + BitVec.ofNat 64 t.header.length } := by
    simp [grown, dropTree]
  refine ⟨_, N, ?_, hu, h4.congr fun _ _ => rfl, ?_⟩
  · rw [deserializeBody, h1]
    rfl
  · refine treeIs_preorder (w := fun _ => 0#32) (h4.congr fun _ _ => rfl) rfl ?_ hn hs
    simp only [grown_nodeCount, dropTree_nodeCount, BitVec.zero_add, BitVec.toNat_ofNat]
    simp [Config.nodeCap] at hlen
    exact Nat.mod_eq_of_lt (by omega)

/-- Where DESERIALIZE completes, a header stood at IN_POS (R112). -/
theorem header_of_deserializeBody {s u : State} (hp : PortOk s) (h : deserializeBody s = .ok () u) :
    ∃ (t : CodeTree) (rest : Bits), remaining s = t.header ++ rest ∧ (∀ x ∈ t.symbols, x ≤ Config.eofSym) ∧ t.symbols.Nodup := by
  unfold deserializeBody at h
  cases h1 : desNode (Config.nodeCap + 1) [] (dropTree s) with
  | stuck f => rw [h1] at h; simp at h
  | abort v => rw [h1] at h; simp at h
  | ok a v =>
    obtain ⟨t, rest, e1, -, e3, e4, -⟩ := header_of_desNode (s := dropTree s) (hp.congr rfl rfl) (by simp) h1
    exact ⟨t, rest, e1, e3, e4⟩

/-! ## The header's own facts (R102, R105) -/

/-- A header is self-delimiting: two trees whose headers begin the same bits have the same shape and symbols (R102, R112). -/
theorem header_inj {t u : CodeTree} {x y : Bits} (ht : ∀ sym ∈ t.symbols, sym ≤ Config.eofSym)
    (hu : ∀ sym ∈ u.symbols, sym ≤ Config.eofSym) (h : t.header ++ x = u.header ++ y) (k : Nat) :
    t.preorder k = u.preorder k ∧ x = y := by
  induction t generalizing u x y k with
  | leaf i a =>
    cases u with
    | node j l r => simp [CodeTree.header] at h
    | leaf j b =>
      simp only [CodeTree.header, List.cons_append, List.cons.injEq, true_and] at h
      have h' := List.append_inj h (by simp)
      have ha := ht a (by simp [CodeTree.symbols, CodeTree.leaves])
      have hb := hu b (by simp [CodeTree.symbols, CodeTree.leaves])
      have hE : Config.eofSym = 256 := rfl
      have e := spell_inj (n := Config.symW) (by simp [Config.symW]; omega) (by simp [Config.symW]; omega) h'.1
      exact ⟨by rw [CodeTree.preorder, CodeTree.preorder, e], h'.2⟩
  | node i l r ihl ihr =>
    cases u with
    | leaf j b => simp [CodeTree.header] at h
    | node j l' r' =>
      have hs : ∀ (i : Nat) (l r : CodeTree), (CodeTree.node i l r).symbols = l.symbols ++ r.symbols := fun i l r => by
        simp [CodeTree.symbols, CodeTree.leaves, Function.comp_def]
      simp only [hs, List.mem_append] at ht hu
      simp only [CodeTree.header, List.cons_append, List.cons.injEq, true_and, List.append_assoc] at h
      have h1 := fun k => ihl (fun s hs => ht s (.inl hs)) (fun s hs => hu s (.inl hs)) h k
      have h2 := fun k => ihr (fun s hs => ht s (.inr hs)) (fun s hs => hu s (.inr hs)) (h1 0).2 k
      have hlen : l.indices.length = l'.indices.length := by
        have a1 := congrArg (fun t => t.indices.length) (h1 0).1
        simpa [CodeTree.indices_preorder] using a1
      exact ⟨by rw [CodeTree.preorder, CodeTree.preorder, (h1 _).1, hlen, (h2 _).1], (h2 0).2⟩

/-- In preorder numbering the left child of a node is the next node (R105). -/
theorem preorder_node {s : State} {t : CodeTree} {k : Nat} (h : Stores s (fun _ => 0#32) (t.preorder k))
    (hc : k + t.indices.length ≤ 1023) : ∀ i, k ≤ i → i < k + t.indices.length →
      ∃ n, nodeAt s i = some n ∧ n.weight = 0#32 ∧ (n.isLeaf = false → n.left.toNat = i + 1) := by
  induction t generalizing k with
  | leaf j a =>
    intro i h1 h2
    simp only [CodeTree.indices, List.length_singleton] at h2
    obtain rfl : i = k := by omega
    exact ⟨_, h, rfl, by simp [leafNode]⟩
  | node j l r ihl ihr =>
    intro i h1 h2
    obtain ⟨e1, e2, e3⟩ := h
    simp only [CodeTree.indices, List.length_cons, List.length_append] at h2 hc
    by_cases hk : i = k
    · subst hk
      refine ⟨_, e1, rfl, fun _ => ?_⟩
      simp only [innerNode, CodeTree.index_preorder, BitVec.toNat_ofNat]
      exact Nat.mod_eq_of_lt (by omega)
    · by_cases hl : i < k + 1 + l.indices.length
      · exact ihl e2 (by omega) i (by omega) hl
      · exact ihr e3 (by omega) i (by omega) (by omega)

end Sys2Proof.Machine
end

