-- ==== Sys2Proof/Laws/Builder.lean ====
section
/-!
SUPPORT. BUILD (R90 to R97): the leaves it places, the two nodes of least key that every merge takes, and the tree that is left.
-/

namespace Sys2Proof.Machine

/-! ## The priority collection (R91) -/

theorem KeyLe.refl (s : State) (i : Nat) : KeyLe s i i := .inr ⟨rfl, le_rfl⟩

theorem KeyLe.trans {s : State} {i j k : Nat} (h : KeyLe s i j) (h' : KeyLe s j k) : KeyLe s i k := by
  unfold KeyLe at *
  omega

theorem keyLess_eq_true_iff {s : State} {i j : Nat} : keyLess s i j = true ↔ ¬ KeyLe s j i := by
  simp only [keyLess, KeyLe, Bool.or_eq_true, decide_eq_true_eq, Bool.and_eq_true, beq_iff_eq]
  omega

theorem argmin_mem (s : State) (i : Nat) (q : List Nat) : argmin s i q ∈ i :: q := by
  induction q generalizing i with
  | nil => simp [argmin]
  | cons j q ih =>
    rw [argmin]
    have := ih (if keyLess s j i then j else i)
    split at this
    · next h => rw [if_pos h]; simp only [List.mem_cons] at this ⊢; tauto
    · next h => rw [if_neg h]; simp only [List.mem_cons] at this ⊢; tauto

theorem argmin_le (s : State) (i : Nat) (q : List Nat) : ∀ j ∈ i :: q, KeyLe s (argmin s i q) j := by
  induction q generalizing i with
  | nil => simp [argmin, KeyLe.refl]
  | cons j q ih =>
    rw [argmin]
    by_cases h : keyLess s j i = true
    · rw [if_pos h]
      intro k hk
      have hj := ih j j (by simp)
      rcases List.mem_cons.mp hk with rfl | hk
      · refine hj.trans ?_
        have := keyLess_eq_true_iff.mp h
        unfold KeyLe at *
        omega
      · exact ih j k hk
    · rw [if_neg h]
      intro k hk
      have hi := ih i i (by simp)
      rcases List.mem_cons.mp hk with rfl | hk
      · exact hi
      · rcases List.mem_cons.mp hk with rfl | hk
        · refine hi.trans ?_
          rw [keyLess_eq_true_iff, not_not] at h
          exact h
        · exact ih i k (by simp [hk])

/-- Extraction takes a node of least key and leaves the others (R91). -/
theorem extractMin_spec {s : State} {q q' : List Nat} {a : Nat} (h : extractMin s q = some (a, q')) :
    q.Perm (a :: q') ∧ ∀ j ∈ q, KeyLe s a j := by
  cases q with
  | nil => simp [extractMin] at h
  | cons i q =>
    simp only [extractMin, Option.some.injEq, Prod.mk.injEq] at h
    obtain ⟨rfl, rfl⟩ := h
    exact ⟨List.perm_cons_erase (argmin_mem s i q), argmin_le s i q⟩

theorem extractMin_eq_none_iff {s : State} {q : List Nat} : extractMin s q = none ↔ q = [] := by
  cases q <;> simp [extractMin]

/-! ## The leaves (R92) -/

/-- The leaves that are placed for the entries listed, numbered from `c` on. -/
def leavesFrom (c : Nat) : List (Word × Nat) → List CodeTree
  | [] => []
  | (count, sym) :: es => if count = 0#32 then leavesFrom c es else .leaf c sym :: leavesFrom (c + 1) es

theorem leavesFrom_indices (c : Nat) (es : List (Word × Nat)) :
    (leavesFrom c es).map CodeTree.index = List.range' c (leavesFrom c es).length ∧
      (leavesFrom c es).flatMap CodeTree.indices = List.range' c (leavesFrom c es).length := by
  induction es generalizing c with
  | nil => simp [leavesFrom]
  | cons e es ih =>
    rw [leavesFrom]
    split
    · exact ih c
    · obtain ⟨h1, h2⟩ := ih (c + 1)
      simp only [List.map_cons, CodeTree.index_leaf, h1, List.length_cons, List.range'_succ, List.flatMap_cons,
        CodeTree.indices, h2, List.cons_append, List.nil_append, and_self]

theorem leavesFrom_symbols (c : Nat) (es : List (Word × Nat)) :
    (leavesFrom c es).flatMap CodeTree.symbols = (es.filter fun e => e.1 ≠ 0#32).map (·.2) := by
  induction es generalizing c with
  | nil => rfl
  | cons e es ih =>
    rw [leavesFrom]
    by_cases h : e.1 = 0#32
    · rw [if_pos h, ih, List.filter_cons_of_neg (by simp [h])]
    · rw [if_neg h, List.flatMap_cons, ih, List.filter_cons_of_pos (by simp [h])]
      rfl

theorem leavesFrom_length (c : Nat) (es : List (Word × Nat)) :
    (leavesFrom c es).length = (es.filter fun e => e.1 ≠ 0#32).length := by
  induction es generalizing c with
  | nil => rfl
  | cons e es ih =>
    rw [leavesFrom]
    by_cases h : e.1 = 0#32
    · rw [if_pos h, ih, List.filter_cons_of_neg (by simp [h])]
    · rw [if_neg h, List.length_cons, ih, List.filter_cons_of_pos (by simp [h])]
      rfl

theorem leavesFrom_isLeaf {c : Nat} {es : List (Word × Nat)} {t : CodeTree} (h : t ∈ leavesFrom c es) :
    ∃ i sym, t = .leaf i sym := by
  induction es generalizing c with
  | nil => simp [leavesFrom] at h
  | cons e es ih =>
    rw [leavesFrom] at h
    split at h
    · exact ih h
    · rcases List.mem_cons.mp h with rfl | h
      · exact ⟨_, _, rfl⟩
      · exact ih h

/-- The weight that node memory entries of a tree have under the counts `wt` (R94). -/
def weightWord (wt : Nat → Nat) (t : CodeTree) : Word := BitVec.ofNat 32 (t.weight wt)

/-- Placing the leaves: their indices join Q in ascending order, and the node memory holds them (R92). -/
theorem placeLeaves_spec (wt : Nat → Nat) (es : List (Word × Nat)) (q : List Nat) (s : State)
    (hw : ∀ e ∈ es, e.1 = BitVec.ofNat 32 (wt e.2))
    (hc : s.nodeCount.toNat + (leavesFrom s.nodeCount.toNat es).length ≤ Config.nodeCap) :
    ∃ N, placeLeaves es q s = (q ++ (leavesFrom s.nodeCount.toNat es).map CodeTree.index,
        grown N (leavesFrom s.nodeCount.toNat es).length 0 s) ∧
      (∀ j, j < s.nodeCount.toNat ∨ s.nodeCount.toNat + (leavesFrom s.nodeCount.toNat es).length ≤ j → N[j]? = nodeAt s j) ∧
      ∀ t ∈ leavesFrom s.nodeCount.toNat es,
        Stores (grown N (leavesFrom s.nodeCount.toNat es).length 0 s) (weightWord wt) t := by
  induction es generalizing q s with
  | nil => exact ⟨s.nodes, by simp [placeLeaves, leavesFrom, grown], fun j _ => rfl, by simp [leavesFrom]⟩
  | cons e es ih =>
    obtain ⟨count, sym⟩ := e
    have hcount : count = BitVec.ofNat 32 (wt sym) := hw (count, sym) (by simp)
    have hw' : ∀ e ∈ es, e.1 = BitVec.ofNat 32 (wt e.2) := fun e he => hw e (by simp [he])
    rw [placeLeaves]
    by_cases h : count = 0#32
    · rw [if_pos h]
      simp only [leavesFrom, if_pos h] at hc ⊢
      exact ih q s hw' hc
    · rw [if_neg h]
      simp only [leavesFrom, if_neg h, List.length_cons] at hc ⊢
      have hcapE : Config.nodeCap = 513 := rfl
      have hcap : s.nodeCount.toNat < Config.nodeCap := by omega
      set s1 := pushNode (leafNode sym count) s with hs1
      have hc1 : s1.nodeCount.toNat = s.nodeCount.toNat + 1 := by rw [hs1, pushNode_nodeCount, nodeCount_succ hcap]
      obtain ⟨N, h1, h2, h3⟩ := ih (q ++ [s.nodeCount.toNat]) s1 hw' (by rw [hc1]; omega)
      rw [hc1] at h1 h2 h3
      have hg : grown N (leavesFrom (s.nodeCount.toNat + 1) es).length 0 s1 =
          grown N ((leavesFrom (s.nodeCount.toNat + 1) es).length + 1) 0 s := by
        simp only [grown, hs1, pushNode]
        rw [BitVec.add_assoc, ← BitVec.ofNat_add, Nat.add_comm 1]
      rw [hg] at h1 h3
      refine ⟨N, ?_, ?_, ?_⟩
      · rw [h1]
        simp
      · intro j hj
        rw [h2 j (by omega), hs1, nodeAt_pushNode hcap, if_neg (by omega)]
      · intro t ht
        rcases List.mem_cons.mp ht with rfl | ht
        · show N[s.nodeCount.toNat]? = _
          rw [h2 _ (by omega), hs1, nodeAt_pushNode hcap, if_pos rfl, hcount]
          rfl
        · exact h3 t ht

/-- `FREQ[0..256]`, listed, gives every symbol its count. -/
theorem freqList_spec (s : State) :
    (freqList s).map (·.2) = List.range Config.nsym ∧ ∀ e ∈ freqList s, e.1 = freqAt s e.2 := by
  constructor
  · have h1 : List.map (fun x : Word × Nat => x.2) s.freq.toList.zipIdx = List.range' 0 256 := by
      rw [List.zipIdx_map_snd]
      simp
    have h2 : List.range Config.nsym = List.range' 0 256 ++ [256] := by
      rw [show Config.nsym = 256 + 1 from rfl, List.range_succ, List.range_eq_range']
    rw [h2]
    simp only [freqList, List.map_append, h1, List.map_cons, List.map_nil, Config.eofSym]
  · intro e he
    rw [freqList, List.mem_append] at he
    rcases he with he | he
    · obtain ⟨c, i⟩ := e
      rw [List.mem_zipIdx_iff_getElem?] at he
      have hi : i < 256 := by
        have := (List.getElem?_eq_some_iff.mp he).1
        simpa using this
      rw [freqAt_of_lt hi]
      simp only [Vector.getElem?_toList] at he
      rw [Vector.getElem?_eq_getElem hi] at he
      simpa using he.symm
    · simp only [List.mem_singleton] at he
      rw [he]

/-! ## Merging (R90, R93, R94) -/

/-- The forest `f` is merged, each time the two of least weight, into the tree `t`. -/
inductive Merges (wt : Nat → Nat) : List CodeTree → CodeTree → Prop
  | single (t : CodeTree) : Merges wt [t] t
  | merge {f g : List CodeTree} {a b t : CodeTree} (i : Nat) (hf : f.Perm (a :: b :: g)) (hab : a.weight wt ≤ b.weight wt)
      (hg : ∀ c ∈ g, b.weight wt ≤ c.weight wt) (h : Merges wt (.node i a b :: g) t) : Merges wt f t

/-- Every internal node's index is greater than both its children's (R97). -/
def CodeTree.Rising : CodeTree → Prop
  | .leaf _ _ => True
  | .node i l r => l.index < i ∧ r.index < i ∧ l.Rising ∧ r.Rising

/-- The nodes of Q are the roots of the forest `f`, which together hold every node made so far. -/
structure Forest (wt : Nat → Nat) (s : State) (q : List Nat) (f : List CodeTree) : Prop where
  queue : q.Perm (f.map CodeTree.index)
  stores : ∀ t ∈ f, Stores s (weightWord wt) t
  bound : ∀ t ∈ f, t.weight wt ≤ Config.weightMax
  indices : (f.flatMap CodeTree.indices).Perm (List.range s.nodeCount.toNat)
  rising : ∀ t ∈ f, t.Rising
  symbols : (f.flatMap CodeTree.symbols).Nodup ∧ ∀ x ∈ f.flatMap CodeTree.symbols, x ≤ Config.eofSym

theorem length_flatMap_indices (f : List CodeTree) :
    (f.flatMap CodeTree.indices).length + f.length = 2 * (f.flatMap CodeTree.symbols).length := by
  induction f with
  | nil => rfl
  | cons t f ih =>
    have := t.length_indices
    simp only [List.flatMap_cons, List.length_append, List.length_cons, CodeTree.length_symbols]
    omega

/-- There is room for a node as long as two trees are left (R8). -/
theorem Forest.room {wt : Nat → Nat} {s : State} {q : List Nat} {f : List CodeTree} (h : Forest wt s q f) :
    s.nodeCount.toNat + f.length ≤ 514 := by
  have h1 := length_flatMap_indices f
  have h2 := length_le_of_nodup_of_le h.symbols.1 h.symbols.2
  have h3 := h.indices.length_eq
  rw [List.length_range] at h3
  simp only [Config.nsym] at h2
  omega

theorem weightAt_of_stores {wt : Nat → Nat} {s : State} {t : CodeTree} (h : Stores s (weightWord wt) t)
    (hb : t.weight wt ≤ Config.weightMax) : weightAt s t.index = t.weight wt := by
  have hlt : t.weight wt < 2 ^ 32 := by simp [Config.weightMax] at hb; omega
  cases t with
  | leaf i sym =>
    have h' : nodeAt s i = some (leafNode sym (weightWord wt (.leaf i sym))) := h
    simp only [weightAt, CodeTree.index_leaf, h', leafNode, weightWord, BitVec.toNat_ofNat, Nat.mod_eq_of_lt hlt]
  | node i l r =>
    obtain ⟨h', -⟩ := h
    simp only [weightAt, CodeTree.index_node, h', innerNode, weightWord, BitVec.toNat_ofNat, Nat.mod_eq_of_lt hlt]

theorem Forest.index_lt {wt : Nat → Nat} {s : State} {q : List Nat} {f : List CodeTree} (h : Forest wt s q f)
    {t : CodeTree} (ht : t ∈ f) {i : Nat} (hi : i ∈ t.indices) : i < s.nodeCount.toNat := by
  have : i ∈ f.flatMap CodeTree.indices := List.mem_flatMap.mpr ⟨t, ht, hi⟩
  simpa using h.indices.mem_iff.mp this

theorem Forest.perm {wt : Nat → Nat} {s : State} {q : List Nat} {f g : List CodeTree} (h : Forest wt s q f)
    (hg : f.Perm g) : Forest wt s q g where
  queue := h.queue.trans (hg.map _)
  stores := fun t ht => h.stores t (hg.mem_iff.mpr ht)
  bound := fun t ht => h.bound t (hg.mem_iff.mpr ht)
  indices := (hg.flatMap_right _).symm.trans h.indices
  rising := fun t ht => h.rising t (hg.mem_iff.mpr ht)
  symbols := ⟨(hg.flatMap_right _).nodup_iff.mp h.symbols.1, fun x hx => h.symbols.2 x ((hg.flatMap_right _).mem_iff.mpr hx)⟩

/-- The element of the collection that is extracted is the root of a tree of the forest. -/
theorem perm_of_queue {q q' : List Nat} {f : List CodeTree} {a : Nat} (hq : q.Perm (f.map CodeTree.index))
    (h : q.Perm (a :: q')) : ∃ t g, f.Perm (t :: g) ∧ t.index = a ∧ q'.Perm (g.map CodeTree.index) := by
  have ha : a ∈ f.map CodeTree.index := hq.mem_iff.mp (h.mem_iff.mpr (by simp))
  obtain ⟨t, ht, rfl⟩ := List.mem_map.mp ha
  obtain ⟨l1, l2, rfl⟩ := List.append_of_mem ht
  refine ⟨t, l1 ++ l2, List.perm_middle, rfl, ?_⟩
  have h1 : (t.index :: q').Perm (t.index :: (l1 ++ l2).map CodeTree.index) := by
    refine h.symm.trans (hq.trans ?_)
    simp
  exact List.Perm.cons_inv h1

/-- One merge keeps the forest (R90, R93). -/
theorem Forest.merge {wt : Nat → Nat} {s : State} {q q' : List Nat} {a b : CodeTree} {g : List CodeTree}
    (h : Forest wt s q (a :: b :: g)) (hq : q'.Perm (g.map CodeTree.index))
    (hw : a.weight wt + b.weight wt ≤ Config.weightMax) :
    Forest wt
      (pushNode (innerNode a.index b.index (BitVec.ofNat 32 (a.weight wt + b.weight wt))) s)
      (q' ++ [s.nodeCount.toNat]) (.node s.nodeCount.toNat a b :: g) := by
  have hroom := h.room
  simp only [List.length_cons] at hroom
  have hcapE : Config.nodeCap = 513 := rfl
  have hcap : s.nodeCount.toNat < Config.nodeCap := by omega
  have hold : ∀ t ∈ a :: b :: g, ∀ i ∈ t.indices,
      nodeAt (pushNode (innerNode a.index b.index (BitVec.ofNat 32 (a.weight wt + b.weight wt))) s) i = nodeAt s i := by
    intro t ht i hi
    rw [nodeAt_pushNode hcap, if_neg (Nat.ne_of_lt (h.index_lt ht hi))]
  refine ⟨?_, ?_, ?_, ?_, ?_, ?_⟩
  · exact List.perm_append_comm.trans (hq.cons _)
  · intro t ht
    rcases List.mem_cons.mp ht with rfl | ht
    · refine ⟨?_, (h.stores a (by simp)).congr (hold a (by simp)), (h.stores b (by simp)).congr (hold b (by simp))⟩
      rw [nodeAt_pushNode hcap, if_pos rfl]
      rfl
    · exact (h.stores t (by simp [ht])).congr (hold t (by simp [ht]))
  · intro t ht
    rcases List.mem_cons.mp ht with rfl | ht
    · exact hw
    · exact h.bound t (by simp [ht])
  · rw [pushNode_nodeCount, nodeCount_succ hcap, List.range_succ]
    refine List.Perm.trans ?_ (List.perm_append_comm (l₁ := [s.nodeCount.toNat]))
    simp only [List.flatMap_cons, CodeTree.indices, List.cons_append, List.nil_append, List.append_assoc]
    refine List.Perm.cons _ ?_
    simpa [List.flatMap_cons] using h.indices
  · intro t ht
    rcases List.mem_cons.mp ht with rfl | ht
    · exact ⟨h.index_lt (t := a) (by simp) (by simp), h.index_lt (t := b) (by simp) (by simp), h.rising a (by simp),
        h.rising b (by simp)⟩
    · exact h.rising t (by simp [ht])
  · simpa [List.flatMap_cons] using h.symbols

theorem totalWeight_perm {wt : Nat → Nat} {f g : List CodeTree} (h : f.Perm g) :
    (f.map (CodeTree.weight wt)).sum = (g.map (CodeTree.weight wt)).sum := (h.map _).sum_eq

/-- What every merge of a collection whose trees are a forest keeps, as far as `P` says. -/
abbrev MergeKeeps (wt : Nat → Nat) (P : State → List Nat → Prop) : Prop :=
  ∀ (s : State) (q q1 q2 : List Nat) (a b : CodeTree) (g : List CodeTree), P s q → Forest wt s q (a :: b :: g) →
    extractMin s q = some (a.index, q1) → extractMin s q1 = some (b.index, q2) →
    a.weight wt + b.weight wt ≤ Config.weightMax → s.nodeCount.toNat < Config.nodeCap →
    P (pushNode (innerNode a.index b.index (BitVec.ofNat 32 (a.weight wt + b.weight wt))) s) (q2 ++ [s.nodeCount.toNat])

/-- The merging loop, from a forest: it merges the forest into one tree, or it raises WEIGHT_OVERFLOW at two nodes whose weights
do not fit together, and then the total weight does not fit (R90, R93, R94). -/
theorem mergeLoop_spec {wt : Nat → Nat} {P : State → List Nat → Prop} (hP : MergeKeeps wt P) (k : Nat) (q : List Nat)
    (s : State) (f : List CodeTree) (h : Forest wt s q f) (h0 : P s q) (hk : q.length ≤ k) (hne : f ≠ []) :
    (∃ t u, mergeLoop k q s = .ok t.index u ∧ Merges wt f t ∧ Forest wt u [t.index] [t] ∧ P u [t.index] ∧
        u = { s with nodes := u.nodes, nodeCount := u.nodeCount } ∧ s.nodeCount.toNat ≤ u.nodeCount.toNat ∧
        (∀ j < s.nodeCount.toNat, nodeAt u j = nodeAt s j) ∧
        (f.map (CodeTree.weight wt)).sum = t.weight wt) ∨
      (∃ u q' a b q1 q2, mergeLoop k q s = raise (opcode .build) .weightOverflow 0#8 u.nodeCount.toNat u ∧ P u q' ∧
        extractMin u q' = some (a, q1) ∧ extractMin u q1 = some (b, q2) ∧
        Config.weightMax < weightAt u a + weightAt u b ∧
        u = { s with nodes := u.nodes, nodeCount := u.nodeCount } ∧ s.nodeCount.toNat ≤ u.nodeCount.toNat ∧
        u.nodeCount.toNat ≤ Config.nodeCap ∧
        (∀ j < s.nodeCount.toNat, nodeAt u j = nodeAt s j) ∧
        Config.weightMax < (f.map (CodeTree.weight wt)).sum) := by
  induction k generalizing q s f with
  | zero =>
    have : q = [] := by simpa using hk
    subst this
    have := h.queue.length_eq
    simp only [List.length_nil, List.length_map] at this
    exact absurd (List.length_eq_zero_iff.mp this.symm) hne
  | succ k ih =>
    have hlen := h.queue.length_eq
    rw [List.length_map] at hlen
    rw [mergeLoop]
    split
    · next hnone =>
      rw [extractMin_eq_none_iff] at hnone
      subst hnone
      exact absurd (List.length_eq_zero_iff.mp hlen.symm) hne
    · next a q1 ha =>
      obtain ⟨p1, m1⟩ := extractMin_spec ha
      obtain ⟨ta, g1, hf1, rfl, hq1⟩ := perm_of_queue h.queue p1
      have hF1 := h.perm hf1
      split
      · next hnone =>
        rw [extractMin_eq_none_iff] at hnone
        subst hnone
        have hg1 : g1 = [] := by simpa using hq1.length_eq.symm
        subst hg1
        have hq : q = [ta.index] := List.perm_singleton.mp p1
        refine .inl ⟨ta, s, rfl, ?_, ?_, ?_, rfl, le_rfl, fun j _ => rfl, ?_⟩
        · rw [List.perm_singleton.mp hf1]
          exact .single ta
        · exact ⟨by simp, hF1.stores, hF1.bound, hF1.indices, hF1.rising, hF1.symbols⟩
        · rw [← hq]
          exact h0
        · rw [totalWeight_perm hf1]
          simp
      · next b q2 hb =>
        obtain ⟨p2, m2⟩ := extractMin_spec hb
        obtain ⟨tb, g2, hf2, rfl, hq2⟩ := perm_of_queue hq1 p2
        have hperm : f.Perm (ta :: tb :: g2) := hf1.trans (hf2.cons _)
        have hF := h.perm hperm
        have wa := weightAt_of_stores (hF.stores ta (by simp)) (hF.bound ta (by simp))
        have wb := weightAt_of_stores (hF.stores tb (by simp)) (hF.bound tb (by simp))
        have hroom := hF.room
        simp only [List.length_cons] at hroom
        have hcapE : Config.nodeCap = 513 := rfl
        have hcap : s.nodeCount.toNat < Config.nodeCap := by omega
        have hsum : (f.map (CodeTree.weight wt)).sum =
            ta.weight wt + (tb.weight wt + (g2.map (CodeTree.weight wt)).sum) := by
          rw [totalWeight_perm hperm]
          simp
        rw [wa, wb]
        split
        · next hover =>
          refine .inr ⟨s, q, _, _, q1, q2, rfl, h0, ha, hb, by rw [wa, wb]; exact hover, rfl, le_rfl, by omega,
            fun j _ => rfl, ?_⟩
          rw [hsum]
          omega
        · next hover =>
          have hF' := hF.merge hq2 (by omega)
          have h0' := hP s q q1 q2 ta tb g2 h0 hF ha hb (by omega) hcap
          have hlen2 : (q2 ++ [s.nodeCount.toNat]).length ≤ k := by
            have e1 := p1.length_eq
            have e2 := p2.length_eq
            simp only [List.length_cons, List.length_append, List.length_nil] at *
            omega
          have hc' : (pushNode (innerNode ta.index tb.index (BitVec.ofNat 32 (ta.weight wt + tb.weight wt))) s).nodeCount.toNat
              = s.nodeCount.toNat + 1 := by rw [pushNode_nodeCount, nodeCount_succ hcap]
          have hkeep : ∀ u : State, (∀ j < (pushNode (innerNode ta.index tb.index
              (BitVec.ofNat 32 (ta.weight wt + tb.weight wt))) s).nodeCount.toNat, nodeAt u j =
              nodeAt (pushNode (innerNode ta.index tb.index (BitVec.ofNat 32 (ta.weight wt + tb.weight wt))) s) j) →
              ∀ j < s.nodeCount.toNat, nodeAt u j = nodeAt s j := by
            intro u hu j hj
            rw [hu j (by rw [hc']; omega), nodeAt_pushNode hcap, if_neg (by omega)]
          have hab : ta.weight wt ≤ tb.weight wt := by
            have := m1 tb.index (p1.mem_iff.mpr (List.mem_cons_of_mem _ (p2.mem_iff.mpr (by simp))))
            unfold KeyLe at this
            omega
          have hbg : ∀ c ∈ g2, tb.weight wt ≤ c.weight wt := by
            intro c hc
            have wc := weightAt_of_stores (hF.stores c (by simp [hc])) (hF.bound c (by simp [hc]))
            have := m2 c.index (p2.mem_iff.mpr (List.mem_cons_of_mem _ (hq2.mem_iff.mpr (List.mem_map_of_mem hc))))
            unfold KeyLe at this
            omega
          have hsum' : (((CodeTree.node s.nodeCount.toNat ta tb) :: g2).map (CodeTree.weight wt)).sum =
              (f.map (CodeTree.weight wt)).sum := by
            rw [hsum]
            simp [CodeTree.weight, Nat.add_assoc]
          rcases ih _ _ _ hF' h0' hlen2 (by simp) with ⟨t, u, e1, e2, e3, p3, e4, e5, e6, e7⟩ |
            ⟨u, q', a', b', q1', q2', e1, e2, x1, x2, x3, e3, e4, e5, e6, e7⟩
          · exact .inl ⟨t, u, e1, .merge _ hperm hab hbg e2, e3, p3, by rw [e4]; rfl, by omega, hkeep u e6,
              by rw [← hsum', e7]⟩
          · exact .inr ⟨u, q', a', b', q1', q2', e1, e2, x1, x2, x3, by rw [e3]; rfl, by omega, e5, hkeep u e6,
              by rw [← hsum']; exact e7⟩

end Sys2Proof.Machine
end

