-- ==== Sys2Proof/Laws/BuildTree.lean ====
section
/-!
SUPPORT. BUILD as a whole (R90 to R97): when it completes, the tree that is left, and which two nodes every merge took.
-/

namespace Sys2Proof.Machine

/-! ## Which nodes a merge took -/

theorem childOf_congr {s s' : State} {k : Nat} (h : nodeAt s' k = nodeAt s k) (j : Nat) : childOf s' k j = childOf s k j := by
  rw [childOf, childOf, h]

theorem inQ_iff {s : State} {i j : Nat} : inQ s i j = true ↔ j < i ∧ ∀ k < i, childOf s k j = false := by
  simp [inQ]

theorem inQ_congr {s s' : State} {i : Nat} (h : ∀ k < i, nodeAt s' k = nodeAt s k) (j : Nat) : inQ s' i j = inQ s i j := by
  rw [Bool.eq_iff_iff, inQ_iff, inQ_iff]
  refine and_congr_right fun _ => forall₂_congr fun k hk => ?_
  rw [childOf_congr (h k hk)]

theorem weightAt_congr {s s' : State} {k : Nat} (h : nodeAt s' k = nodeAt s k) : weightAt s' k = weightAt s k := by
  rw [weightAt, weightAt, h]

theorem TwoLeast.congr {s s' : State} {i a b : Nat} (h : ∀ k < i, nodeAt s' k = nodeAt s k) (ht : TwoLeast s i a b) :
    TwoLeast s' i a b := by
  obtain ⟨h1, h2, h3, h4⟩ := ht
  refine ⟨by rw [inQ_congr h]; exact h1, by rw [inQ_congr h]; exact h2, h3, fun j hj => ?_⟩
  rw [inQ_congr h] at hj
  have := h4 j hj
  unfold KeyLe at *
  rwa [weightAt_congr (h a (inQ_iff.mp h1).1), weightAt_congr (h b (inQ_iff.mp h2).1), weightAt_congr (h j (inQ_iff.mp hj).1)]

theorem MergedAt.congr {s s' : State} {i : Nat} (h : ∀ k ≤ i, nodeAt s' k = nodeAt s k) (hm : MergedAt s i) :
    MergedAt s' i := by
  obtain ⟨a, b, h1, h2, h3⟩ := hm
  have ha : a < i := (inQ_iff.mp h1.1).1
  have hb : b < i := (inQ_iff.mp h1.2.1).1
  refine ⟨a, b, h1.congr fun k hk => h k hk.le, ?_, ?_⟩
  · rw [weightAt_congr (h a ha.le), weightAt_congr (h b hb.le)]
    exact h2
  · rw [weightAt_congr (h a ha.le), weightAt_congr (h b hb.le), h i le_rfl]
    exact h3

/-- The collection holds the nodes that are no child yet, and every node from `L` on was made as R90 and R91 say. -/
structure History (L : Nat) (s : State) (q : List Nat) : Prop where
  nodup : q.Nodup
  mem : ∀ j, j ∈ q ↔ inQ s s.nodeCount.toNat j = true
  low : ∀ k < s.nodeCount.toNat, ∀ j, childOf s k j = true → j < k
  merged : ∀ i, L ≤ i → i < s.nodeCount.toNat → MergedAt s i

/-- The two nodes that are extracted from such a collection are the two of least key. -/
theorem History.twoLeast {L : Nat} {s : State} {q q1 q2 : List Nat} {a b : Nat} (h : History L s q)
    (ha : extractMin s q = some (a, q1)) (hb : extractMin s q1 = some (b, q2)) :
    TwoLeast s s.nodeCount.toNat a b ∧ q2.Nodup ∧ ∀ j, j ∈ q2 ↔ j ∈ q ∧ j ≠ a ∧ j ≠ b := by
  obtain ⟨p1, m1⟩ := extractMin_spec ha
  obtain ⟨p2, m2⟩ := extractMin_spec hb
  have n1 : (a :: q1).Nodup := p1.nodup_iff.mp h.nodup
  have n2 : (b :: q2).Nodup := p2.nodup_iff.mp (List.nodup_cons.mp n1).2
  have hq1 : ∀ j, j ∈ q ↔ j = a ∨ j ∈ q1 := fun j => by rw [p1.mem_iff, List.mem_cons]
  have hq2 : ∀ j, j ∈ q1 ↔ j = b ∨ j ∈ q2 := fun j => by rw [p2.mem_iff, List.mem_cons]
  have hna : a ∉ q1 := (List.nodup_cons.mp n1).1
  have hnb : b ∉ q2 := (List.nodup_cons.mp n2).1
  have hab : a ≠ b := fun hab => hna ((hq2 a).mpr (.inl hab))
  refine ⟨⟨?_, ?_, hab, ?_⟩, (List.nodup_cons.mp n2).2, ?_⟩
  · rw [← h.mem, hq1]; exact .inl rfl
  · rw [← h.mem, hq1, hq2]; exact .inr (.inl rfl)
  · intro j hj
    rw [← h.mem] at hj
    refine ⟨m1 j hj, fun hja => m2 j ?_⟩
    exact ((hq1 j).mp hj).resolve_left hja
  · intro j
    rw [hq1, hq2]
    constructor
    · intro hj
      exact ⟨.inr (.inr hj), fun hja => hna ((hq2 a).mpr (.inr (hja ▸ hj))), fun hjb => hnb (hjb ▸ hj)⟩
    · rintro ⟨hj | hj | hj, hja, hjb⟩
      · exact absurd hj hja
      · exact absurd hj hjb
      · exact hj

theorem childOf_innerNode {s : State} {c a b : Nat} {w : Word} (h : nodeAt s c = some (innerNode a b w)) (ha : a < 1024)
    (hb : b < 1024) (j : Nat) : childOf s c j = true ↔ j = a ∨ j = b := by
  simp only [childOf, h, innerNode, Bool.not_false, Bool.true_and, Bool.or_eq_true, beq_iff_eq, BitVec.toNat_ofNat]
  rw [Nat.mod_eq_of_lt (by omega), Nat.mod_eq_of_lt (by omega)]
  tauto

/-- A merge keeps the history. -/
theorem History.keeps {wt : Nat → Nat} (L : Nat) : MergeKeeps wt (History L) := by
  intro s q q1 q2 a b g h hF ha hb hw hcap
  obtain ⟨t1, t2, t3⟩ := h.twoLeast ha hb
  have hcapE : Config.nodeCap = 513 := rfl
  have hla : a.index < s.nodeCount.toNat := (inQ_iff.mp t1.1).1
  have hlb : b.index < s.nodeCount.toNat := (inQ_iff.mp t1.2.1).1
  have wa := weightAt_of_stores (hF.stores a (by simp)) (hF.bound a (by simp))
  have wb := weightAt_of_stores (hF.stores b (by simp)) (hF.bound b (by simp))
  set n := innerNode a.index b.index (BitVec.ofNat 32 (a.weight wt + b.weight wt)) with hn
  have hold : ∀ k < s.nodeCount.toNat, nodeAt (pushNode n s) k = nodeAt s k := fun k hk => by
    rw [nodeAt_pushNode hcap, if_neg (by omega)]
  have hnew : nodeAt (pushNode n s) s.nodeCount.toNat = some n := by rw [nodeAt_pushNode hcap, if_pos rfl]
  have hchild := childOf_innerNode (hn ▸ hnew) (by omega) (by omega)
  have hc : (pushNode n s).nodeCount.toNat = s.nodeCount.toNat + 1 := by rw [pushNode_nodeCount, nodeCount_succ hcap]
  refine ⟨?_, ?_, ?_, ?_⟩
  · rw [List.nodup_append]
    refine ⟨t2, by simp, ?_⟩
    intro x hx y hy
    rw [List.mem_singleton] at hy
    have := (inQ_iff.mp ((h.mem x).mp ((t3 x).mp hx).1)).1
    omega
  · intro j
    rw [hc, inQ_iff, List.mem_append, List.mem_singleton, t3, h.mem, inQ_iff]
    constructor
    · rintro (⟨⟨h1, h2⟩, h3, h4⟩ | rfl)
      · refine ⟨by omega, fun k hk => ?_⟩
        rcases Nat.lt_succ_iff_lt_or_eq.mp hk with hk | rfl
        · rw [childOf_congr (hold k hk)]; exact h2 k hk
        · rw [← Bool.not_eq_true, hchild]; tauto
      · refine ⟨by omega, fun k hk => ?_⟩
        rcases Nat.lt_succ_iff_lt_or_eq.mp hk with hk | rfl
        · rw [childOf_congr (hold k hk), ← Bool.not_eq_true]
          intro hcontra
          have := h.low k hk _ hcontra
          omega
        · rw [← Bool.not_eq_true, hchild]; omega
    · rintro ⟨h1, h2⟩
      rcases Nat.lt_succ_iff_lt_or_eq.mp h1 with h1 | rfl
      · refine .inl ⟨⟨h1, fun k hk => ?_⟩, ?_⟩
        · rw [← childOf_congr (hold k hk)]; exact h2 k (by omega)
        · have := h2 s.nodeCount.toNat (by omega)
          rw [← Bool.not_eq_true, hchild] at this
          tauto
      · exact .inr rfl
  · intro k hk j hj
    rw [hc] at hk
    rcases Nat.lt_succ_iff_lt_or_eq.mp hk with hk | rfl
    · rw [childOf_congr (hold k hk)] at hj; exact h.low k hk j hj
    · rcases (hchild j).mp hj with rfl | rfl
      · exact hla
      · exact hlb
  · intro i hLi hi
    rw [hc] at hi
    rcases Nat.lt_succ_iff_lt_or_eq.mp hi with hi | rfl
    · exact (h.merged i hLi hi).congr fun k hk => hold k (by omega)
    · refine ⟨a.index, b.index, t1.congr hold, ?_, ?_⟩
      · rw [weightAt_congr (hold _ hla), weightAt_congr (hold _ hlb), wa, wb]
        exact hw
      · rw [weightAt_congr (hold _ hla), weightAt_congr (hold _ hlb), wa, wb, hnew]

/-- A merge keeps the history and the node memory beyond NODE_COUNT. -/
theorem History.keeps_above {wt : Nat → Nat} (L : Nat) (s0 : State) :
    MergeKeeps wt fun s q => History L s q ∧ ∀ j, s.nodeCount.toNat ≤ j → nodeAt s j = nodeAt s0 j := by
  rintro s q q1 q2 a b g ⟨h, h'⟩ hF ha hb hw hcap
  refine ⟨History.keeps L s q q1 q2 a b g h hF ha hb hw hcap, fun j hj => ?_⟩
  rw [pushNode_nodeCount, nodeCount_succ hcap] at hj
  rw [nodeAt_pushNode hcap, if_neg (by omega), h' j (by omega)]

/-! ## BUILD -/

theorem used_of_freqList (s : State) :
    ((freqList s).filter fun e => e.1 ≠ 0#32).map (·.2) = usedSymbols s := by
  obtain ⟨h1, h2⟩ := freqList_spec s
  rw [usedSymbols, ← h1, List.filter_map]
  congr 1
  refine List.filter_congr fun e he => ?_
  simp only [h2 e he, bne]
  by_cases h : freqAt s e.2 = 0#32 <;> simp [h]

theorem leavesFrom_getElem? (c : Nat) (es : List (Word × Nat)) (i : Nat) :
    (leavesFrom c es)[i]? = ((es.filter fun e => e.1 ≠ 0#32)[i]?).map fun e => .leaf (c + i) e.2 := by
  induction es generalizing c i with
  | nil => simp [leavesFrom]
  | cons e es ih =>
    rw [leavesFrom]
    by_cases h : e.1 = 0#32
    · rw [if_pos h, ih, List.filter_cons_of_neg (by simp [h])]
    · rw [if_neg h, List.filter_cons_of_pos (by simp [h])]
      cases i with
      | zero => simp
      | succ i =>
        rw [List.getElem?_cons_succ, List.getElem?_cons_succ, ih]
        congr 1
        funext e
        rw [Nat.add_assoc, Nat.add_comm 1]

/-- The leaves of BUILD, in ascending order of symbols. -/
def buildLeaves (s : State) : List CodeTree := leavesFrom 0 (freqList s)

theorem buildLeaves_getElem? (s : State) (i : Nat) :
    (buildLeaves s)[i]? = (usedSymbols s)[i]?.map fun sym => .leaf i sym := by
  rw [buildLeaves, leavesFrom_getElem?, ← used_of_freqList, List.getElem?_map]
  simp [Option.map_map, Function.comp_def]

theorem length_buildLeaves (s : State) : (buildLeaves s).length = (usedSymbols s).length := by
  rw [buildLeaves, leavesFrom_length, ← used_of_freqList, List.length_map]

theorem buildLeaves_symbols (s : State) : (buildLeaves s).flatMap CodeTree.symbols = usedSymbols s := by
  rw [buildLeaves, leavesFrom_symbols, used_of_freqList]

theorem usedSymbols_le {s : State} {x : Nat} (h : x ∈ usedSymbols s) : x ≤ Config.eofSym := by
  have := (List.mem_filter.mp h).1
  simp [Config.nsym, Config.eofSym] at *
  omega

theorem freqAt_congr {s s' : State} (h : s'.freq = s.freq) (sym : Nat) : freqAt s' sym = freqAt s sym := by
  unfold freqAt
  rw [h]

theorem usedSymbols_congr {s s' : State} (h : s'.freq = s.freq) : usedSymbols s' = usedSymbols s := by
  simp only [usedSymbols, freqAt_congr h]

theorem countOf_congr {s s' : State} (h : s'.freq = s.freq) : countOf s' = countOf s := by
  funext sym
  rw [countOf, countOf, freqAt_congr h]

theorem totalCount_congr {s s' : State} (h : s'.freq = s.freq) : totalCount s' = totalCount s := by
  rw [totalCount, totalCount, countOf_congr h]

theorem usedSymbols_nodup (s : State) : (usedSymbols s).Nodup := List.nodup_range.filter _

/-- The end-of-stream symbol always has a leaf (R40, R92). -/
theorem eofSym_mem_usedSymbols (s : State) : Config.eofSym ∈ usedSymbols s := by
  simp [usedSymbols, Config.eofSym, Config.nsym, freqAt]

theorem usedSymbols_length_pos (s : State) : 0 < (usedSymbols s).length :=
  List.length_pos_of_mem (eofSym_mem_usedSymbols s)

theorem usedSymbols_length_le (s : State) : (usedSymbols s).length ≤ 257 :=
  length_le_of_nodup_of_le (usedSymbols_nodup s) fun _ hx => usedSymbols_le hx

theorem sum_used (s : State) : ((usedSymbols s).map (countOf s)).sum = totalCount s := by
  rw [usedSymbols, totalCount]
  generalize List.range Config.nsym = l
  induction l with
  | nil => rfl
  | cons x l ih =>
    by_cases h : freqAt s x = 0#32
    · rw [List.filter_cons_of_neg (by simp [h]), ih, List.map_cons, List.sum_cons, countOf, h]
      simp
    · rw [List.filter_cons_of_pos (by simp [h]), List.map_cons, List.sum_cons, ih, List.map_cons, List.sum_cons]

theorem sum_buildLeaves (s : State) : ((buildLeaves s).map (CodeTree.weight (countOf s))).sum = totalCount s := by
  rw [← sum_used, ← buildLeaves_symbols]
  have : ∀ t ∈ buildLeaves s, ∃ i sym, t = .leaf i sym := fun t ht => leavesFrom_isLeaf ht
  generalize buildLeaves s = f at this
  induction f with
  | nil => rfl
  | cons t f ih =>
    obtain ⟨i, sym, rfl⟩ := this t (by simp)
    rw [List.map_cons, List.sum_cons, ih fun u hu => this u (by simp [hu])]
    simp [CodeTree.weight]

theorem index_le_of_rising {t : CodeTree} (h : t.Rising) {j : Nat} (hj : j ∈ t.indices) : j ≤ t.index := by
  induction t with
  | leaf i sym => simp [CodeTree.indices] at hj; simp [hj]
  | node i l r ihl ihr =>
    obtain ⟨h1, h2, h3, h4⟩ := h
    simp only [CodeTree.indices, List.mem_cons, List.mem_append] at hj
    simp only [CodeTree.index_node]
    rcases hj with rfl | hj | hj
    · exact le_rfl
    · exact (ihl h3 hj).trans h1.le
    · exact (ihr h4 hj).trans h2.le

/-- The forest of the leaves that BUILD starts from, and its history. -/
theorem buildLeaves_forest (s : State) :
    ∃ s1, placeLeaves (freqList s) [] (dropTree s) = (List.range (usedSymbols s).length, s1) ∧
      s1 = { dropTree s with nodes := s1.nodes, nodeCount := s1.nodeCount } ∧
      s1.nodeCount.toNat = (usedSymbols s).length ∧ (∀ j, (usedSymbols s).length ≤ j → nodeAt s1 j = nodeAt s j) ∧
      (∀ i (h : i < (usedSymbols s).length), nodeAt s1 i =
        some (leafNode (usedSymbols s)[i] (freqAt s (usedSymbols s)[i]))) ∧
      Forest (countOf s) s1 (List.range (usedSymbols s).length) (buildLeaves s) ∧
      History (usedSymbols s).length s1 (List.range (usedSymbols s).length) := by
  have hw : ∀ e ∈ freqList s, e.1 = BitVec.ofNat 32 (countOf s e.2) := by
    intro e he
    rw [(freqList_spec s).2 e he, countOf]
    simp
  have hlen := length_buildLeaves s
  have h257 := usedSymbols_length_le s
  have hcapE : Config.nodeCap = 513 := rfl
  have hc0 : (dropTree s).nodeCount.toNat = 0 := rfl
  obtain ⟨N, h1, h2, h3⟩ := placeLeaves_spec (countOf s) (freqList s) [] (dropTree s) hw
    (by rw [hc0]; show 0 + (buildLeaves s).length ≤ _; omega)
  rw [hc0] at h1 h2 h3
  change _ = (_ ++ (buildLeaves s).map _, grown N (buildLeaves s).length 0 _) at h1
  change ∀ t ∈ buildLeaves s, Stores (grown N (buildLeaves s).length 0 _) _ t at h3
  have hidx : (buildLeaves s).map CodeTree.index = List.range (usedSymbols s).length := by
    rw [← hlen, List.range_eq_range']
    exact (leavesFrom_indices 0 (freqList s)).1
  have hind : (buildLeaves s).flatMap CodeTree.indices = List.range (usedSymbols s).length := by
    rw [← hlen, List.range_eq_range']
    exact (leavesFrom_indices 0 (freqList s)).2
  change ∀ j, j < 0 ∨ 0 + (buildLeaves s).length ≤ j → _ at h2
  rw [hidx, hlen, List.nil_append] at h1
  rw [hlen] at h2
  rw [hlen] at h3
  set s1 := grown N (usedSymbols s).length 0 (dropTree s) with hs1
  have hc1 : s1.nodeCount.toNat = (usedSymbols s).length := by
    rw [hs1, grown_nodeCount_toNat (by rw [hc0]; omega), hc0, Nat.zero_add]
  have hleaf : ∀ i (h : i < (usedSymbols s).length), nodeAt s1 i =
      some (leafNode (usedSymbols s)[i] (freqAt s (usedSymbols s)[i])) := by
    intro i h
    have hget := buildLeaves_getElem? s i
    rw [List.getElem?_eq_getElem h, Option.map_some] at hget
    have := h3 _ (List.mem_of_getElem? hget)
    rw [Stores] at this
    rw [this, weightWord, CodeTree.weight, countOf]
    simp
  refine ⟨s1, h1, ?_, hc1, fun j hj => h2 j (.inr (by omega)), hleaf, ?_, ?_⟩
  · rw [hs1]
    simp [grown]
  · refine ⟨?_, h3, ?_, ?_, ?_, ?_⟩
    · rw [hidx]
    · intro t ht
      obtain ⟨i, sym, rfl⟩ := leavesFrom_isLeaf ht
      have := (freqAt s sym).isLt
      rw [CodeTree.weight, countOf, Config.weightMax]
      omega
    · rw [hind, hc1]
    · intro t ht
      obtain ⟨i, sym, rfl⟩ := leavesFrom_isLeaf ht
      trivial
    · rw [buildLeaves_symbols]
      exact ⟨usedSymbols_nodup s, fun x hx => usedSymbols_le hx⟩
  · have hno : ∀ k < (usedSymbols s).length, ∀ j, childOf s1 k j = false := by
      intro k hk j
      rw [childOf, hleaf k hk]
      rfl
    refine ⟨List.nodup_range, fun j => ?_, fun k hk j hj => ?_, fun i h1 h2 => ?_⟩
    · rw [hc1, inQ_iff, List.mem_range]
      exact ⟨fun h => ⟨h, fun k hk => hno k hk j⟩, fun h => h.1⟩
    · rw [hc1] at hk
      rw [hno k hk j] at hj
      cases hj
    · omega

/-- Merging keeps the symbols. -/
theorem Merges.symbols {wt : Nat → Nat} {f : List CodeTree} {t : CodeTree} (h : Merges wt f t) :
    t.symbols.Perm (f.flatMap CodeTree.symbols) := by
  induction h with
  | single t => simp
  | merge i hf _ _ _ ih =>
    refine ih.trans (List.Perm.trans ?_ (hf.flatMap_right _).symm)
    simp [List.flatMap_cons]

/-- What BUILD leaves in the node memory in any case: the leaves in ascending order, and behind them only nodes that merge the
two of least key (R90 to R94). -/
structure Built (s u : State) : Prop where
  leaves : ∀ i (h : i < (usedSymbols s).length), nodeAt u i =
    some (leafNode (usedSymbols s)[i] (freqAt s (usedSymbols s)[i]))
  merged : ∀ i, (usedSymbols s).length ≤ i → i < u.nodeCount.toNat → MergedAt u i
  count : (usedSymbols s).length ≤ u.nodeCount.toNat ∧ u.nodeCount.toNat ≤ Config.nodeCap
  above : ∀ j, u.nodeCount.toNat ≤ j → nodeAt u j = nodeAt s j

/-- All that BUILD can do: it completes with one tree over all the leaves, or the two nodes of least key do not fit together
and neither do all the counts. -/
theorem buildBody_spec (s : State) :
    (∃ u t, buildBody s = .ok () u ∧ totalCount s ≤ Config.weightMax ∧
        u = { dropTree s with nodes := u.nodes, nodeCount := u.nodeCount, root := u.root, treeValid := true } ∧
        Built s u ∧ TreeIs u t ∧ Stores u (weightWord (countOf s)) t ∧ t.Rising ∧ t.weight (countOf s) = totalCount s ∧
        Merges (countOf s) (buildLeaves s) t ∧ t.symbols.Perm (usedSymbols s) ∧
        u.nodeCount.toNat = 2 * (usedSymbols s).length - 1 ∧ u.root.toNat = u.nodeCount.toNat - 1) ∨
      (∃ u a b, buildBody s = raise (opcode .build) .weightOverflow 0#8 u.nodeCount.toNat u ∧
        Config.weightMax < totalCount s ∧ u = { dropTree s with nodes := u.nodes, nodeCount := u.nodeCount } ∧
        Built s u ∧ TwoLeast u u.nodeCount.toNat a b ∧ Config.weightMax < weightAt u a + weightAt u b) := by
  obtain ⟨s1, e1, e2, e3, e3', e4, hF, hH⟩ := buildLeaves_forest s
  have hpos := usedSymbols_length_pos s
  have hne : buildLeaves s ≠ [] := by
    rw [← List.length_pos_iff, length_buildLeaves]
    exact hpos
  have hcapE : Config.nodeCap = 513 := rfl
  simp only [buildBody, e1]
  rcases mergeLoop_spec (History.keeps_above _ s) _ _ s1 (buildLeaves s) hF ⟨hH, by rw [e3]; exact e3'⟩ le_rfl hne with
    ⟨t, u, m1, m2, m3, ⟨m4, m4'⟩, m5, m6, m7, m8⟩ | ⟨u, q, a, b, q1, q2, m1, ⟨m2, m2'⟩, m3, m4, m5, m6, m7, m8, m9, m10⟩
  · left
    have hperm : t.symbols.Perm (usedSymbols s) := by
      rw [← buildLeaves_symbols]
      exact m2.symbols
    have hind := m3.indices
    simp only [List.flatMap_cons, List.flatMap_nil, List.append_nil] at hind
    have hlenI := t.length_indices
    rw [hind.length_eq, List.length_range, ← CodeTree.length_symbols, hperm.length_eq] at hlenI
    have h257 := usedSymbols_length_le s
    have hroot : t.index = u.nodeCount.toNat - 1 := by
      have h1 : t.index < u.nodeCount.toNat := m3.index_lt (by simp) t.index_mem
      have h2 : u.nodeCount.toNat - 1 ∈ t.indices := hind.mem_iff.mpr (by simp; omega)
      have := index_le_of_rising (m3.rising t (by simp)) h2
      omega
    have hroot10 : (BitVec.ofNat 10 t.index).toNat = t.index := by
      rw [BitVec.toNat_ofNat, Nat.mod_eq_of_lt (by omega)]
    have hst := m3.stores t (by simp)
    have hsym := m3.symbols
    simp only [List.flatMap_cons, List.flatMap_nil, List.append_nil] at hsym
    have hholds := hst.holds (fun i hi => by have := m3.index_lt (t := t) (by simp) hi; omega) hsym.2
    refine ⟨{ u with root := BitVec.ofNat 10 t.index, treeValid := true }, t, by rw [m1]; rfl, ?_, ?_, ?_, ?_, ?_,
      m3.rising t (by simp), ?_, m2, hperm, ?_, ?_⟩
    · rw [← sum_buildLeaves, m8]
      exact m3.bound t (by simp)
    · rw [m5, e2]
    · refine ⟨fun i hi => ?_, fun i h1 h2 => ?_, ⟨?_, ?_⟩, m4'⟩
      · rw [← e4 i hi]
        exact m7 i (by omega)
      · exact (m4.merged i h1 h2).congr fun k _ => rfl
      · show _ ≤ u.nodeCount.toNat
        omega
      · show u.nodeCount.toNat ≤ _
        omega
    · refine ⟨?_, hind, hsym.1, hsym.2⟩
      show readTree _ _ (BitVec.ofNat 10 t.index).toNat = _
      rw [hroot10]
      refine readTree_of_holds (hholds.of_nodes_eq rfl) ?_
      have := t.height_le_length_leaves
      rw [← CodeTree.length_symbols, hperm.length_eq] at this
      omega
    · exact hst.congr fun i _ => rfl
    · rw [← sum_buildLeaves, m8]
    · show u.nodeCount.toNat = _
      omega
    · show (BitVec.ofNat 10 t.index).toNat = u.nodeCount.toNat - 1
      rw [hroot10, hroot]
  · right
    refine ⟨u, a, b, by rw [m1]; rfl, by rw [← sum_buildLeaves]; exact m10, ?_, ?_, (m2.twoLeast m3 m4).1, m5⟩
    · rw [m6, e2]
    · refine ⟨fun i hi => ?_, m2.merged, ⟨by omega, m8⟩, m2'⟩
      rw [← e4 i hi]
      exact m9 i (by omega)

/-- BUILD ends in every state. -/
theorem buildBody_ends (s : State) : (buildBody s).Ends := by
  rcases buildBody_spec s with ⟨u, t, h, -⟩ | ⟨u, a, b, h, -⟩ <;> rw [h] <;> trivial

/-! ## The result is determined by FREQ (R96) -/

theorem KeyLe.antisymm {s : State} {a b : Nat} (h1 : KeyLe s a b) (h2 : KeyLe s b a) : a = b := by
  unfold KeyLe at *
  omega

/-- The two nodes of least key are determined (R91). -/
theorem TwoLeast.unique {s : State} {i a b a' b' : Nat} (h : TwoLeast s i a b) (h' : TwoLeast s i a' b') :
    a = a' ∧ b = b' := by
  obtain ⟨x1, x2, x3, x4⟩ := h
  obtain ⟨y1, y2, y3, y4⟩ := h'
  have e : a = a' := KeyLe.antisymm (x4 a' y1).1 (y4 a x1).1
  subst e
  exact ⟨rfl, KeyLe.antisymm ((x4 b' y2).2 (Ne.symm y3)) ((y4 b x2).2 (Ne.symm x3))⟩

/-- Two runs of BUILD over the same counts make the same nodes, as far as both get. -/
theorem Built.unique {s s' u u' : State} (hf : s'.freq = s.freq) (h : Built s u) (h' : Built s' u') :
    ∀ i, i < u.nodeCount.toNat → i < u'.nodeCount.toNat → nodeAt u' i = nodeAt u i := by
  have hu := usedSymbols_congr hf
  intro i
  induction i using Nat.strongRecOn with
  | _ i ih =>
    intro h1 h2
    by_cases hl : i < (usedSymbols s).length
    · rw [h.leaves i hl, h'.leaves i (by rw [hu]; exact hl)]
      simp only [hu, freqAt_congr hf]
    · obtain ⟨a, b, t1, -, t3⟩ := h.merged i (by omega) h1
      obtain ⟨a', b', t1', -, t3'⟩ := h'.merged i (by rw [hu]; omega) h2
      have hc : ∀ k < i, nodeAt u' k = nodeAt u k := fun k hk => ih k hk (by omega) (by omega)
      obtain ⟨rfl, rfl⟩ := TwoLeast.unique (t1.congr hc) t1'
      rw [t3, t3', weightAt_congr (hc a (inQ_iff.mp t1.1).1), weightAt_congr (hc b (inQ_iff.mp t1.2.1).1)]

end Sys2Proof.Machine
end

