-- ==== Sys2Proof/Laws/Decode.lean ====
section
/-!
SUPPORT. The command word (R70 to R74): which words decode, and that the decoder and the encoder undo each other.
-/

namespace Sys2Proof

theorem fieldReserved_eq_zero_iff (w : Word) : fieldReserved w = 0#24 ↔ w.toNat / 256 = 0 := by
  rw [fieldReserved, ← BitVec.toNat_inj]
  simp [BitVec.extractLsb'_toNat, Nat.shiftRight_eq_div_pow]
  omega

@[simp] theorem fieldOp_toNat (w : Word) : (fieldOp w).toNat = w.toNat % 256 := by simp [fieldOp]

theorem fieldOp_eq_setWidth (w : Word) : fieldOp w = w.setWidth 8 := by
  rw [← BitVec.toNat_inj]
  simp

/-- A word without reserved bits is its opcode, zero-extended. -/
theorem eq_append_fieldOp {w : Word} (h : fieldReserved w = 0#24) : w = (0#24 ++ fieldOp w : BitVec (24 + 8)) := by
  rw [fieldReserved_eq_zero_iff] at h
  rw [← BitVec.toNat_inj, BitVec.toNat_append]
  simp
  omega

/-- The opcodes of R73 are the ones that the decoder finds in its table. -/
theorem opcodeTable_find?_isSome_iff (o : BitVec 8) :
    (opcodeTable.find? (fun row => row.1 == o)).isSome = true ↔
      o.toNat ∈ [0x00, 0x01, 0x02, 0x03, 0x04, 0x05, 0x06, 0x07, 0x08, 0x09, 0x0A, 0x0B, 0x0C, 0x10, 0x11] := by
  revert o
  decide

/-- A word decodes exactly when its reserved bits are 0 and its opcode is in the table (R71). -/
theorem decode_isOk_iff (w : Word) :
    (∃ i, decode w = .ok i) ↔
      fieldReserved w = 0#24 ∧ (opcodeTable.find? (fun row => row.1 == fieldOp w)).isSome = true := by
  unfold decode
  by_cases h : fieldReserved w = 0#24
  · cases h' : opcodeTable.find? (fun row => row.1 == fieldOp w) <;> simp [h]
  · simp [h]

/-- A word that does not decode is refused for some reason. -/
theorem decode_eq_error {w : Word} (h : ¬ ∃ i, decode w = .ok i) : ∃ e, decode w = .error e := by
  cases hd : decode w with
  | ok i => exact absurd ⟨i, hd⟩ h
  | error e => exact ⟨e, rfl⟩

theorem decode_append_eq_ok_iff (o : BitVec 8) (i : Instr) :
    decode (0#24 ++ o : BitVec (24 + 8)) = .ok i ↔ opcode i = o := by
  revert o
  cases i <;> decide

end Sys2Proof
end

