-- ==== Sys2Proof/Laws/HostBus.lean ====
section
/-!
SUPPORT. The host bus (R23, R58, R59): which register each address reaches, and what a step with a bus action does.
-/

namespace Sys2Proof.Machine

/-! ## Addresses -/

theorem wordAddress_congr {a b : Nat} (h : a % 65536 / 4 = b % 65536 / 4) : wordAddress a = wordAddress b := by
  simp only [wordAddress]
  omega

theorem regOf_congr {a b : Nat} (h : a % 65536 / 4 = b % 65536 / 4) : regOf a = regOf b := by
  rw [regOf, regOf, wordAddress_congr h]

theorem regOf_cmd {a : Nat} (h : a % 65536 / 4 = 1) : regOf a = some .cmd := by
  rw [regOf_congr (b := 4) (by omega)]
  decide

theorem regOf_freq {sym : Nat} (h : sym < 256) : regOf (0x0400 + 4 * sym) = some (.freq sym) := by
  have hw : wordAddress (0x0400 + 4 * sym) = 0x0400 + 4 * sym := by simp only [wordAddress]; omega
  rw [regOf, hw, regAtWord, if_neg (by omega), if_pos (by omega)]
  congr 2
  omega

theorem regOf_nodeA {i : Nat} (h : i < 513) : regOf (0x1000 + 8 * i) = some (.nodeA i) := by
  have hw : wordAddress (0x1000 + 8 * i) = 0x1000 + 8 * i := by simp only [wordAddress]; omega
  rw [regOf, hw, regAtWord, if_neg (by omega), if_neg (by omega), if_neg (by omega), if_neg (by omega), if_pos (by omega),
    if_pos (by omega)]
  congr 2
  omega

theorem regOf_nodeW {i : Nat} (h : i < 513) : regOf (0x1004 + 8 * i) = some (.nodeW i) := by
  have hw : wordAddress (0x1004 + 8 * i) = 0x1004 + 8 * i := by simp only [wordAddress]; omega
  rw [regOf, hw, regAtWord, if_neg (by omega), if_neg (by omega), if_neg (by omega), if_neg (by omega), if_pos (by omega),
    if_neg (by omega)]
  congr 2
  omega

/-- The code window of a symbol, by the offset into its 64 bytes (R44). -/
theorem regOf_code {sym off : Nat} (h : sym < 257) (ho : off < 0x40) :
    regOf (0x4000 + 64 * sym + off) = codeWindowReg sym (off / 4 * 4) := by
  have hw : wordAddress (0x4000 + 64 * sym + off) = 0x4000 + 64 * sym + off / 4 * 4 := by simp only [wordAddress]; omega
  have e1 : (0x4000 + 64 * sym + off / 4 * 4 - 0x4000) / 64 = sym := by omega
  have e2 : (0x4000 + 64 * sym + off / 4 * 4 - 0x4000) % 64 = off / 4 * 4 := by omega
  rw [regOf, hw, regAtWord, if_neg (by omega), if_neg (by omega), if_neg (by omega), if_neg (by omega), if_neg (by omega),
    if_neg (by omega), if_pos (by omega), e1, e2]

theorem regOf_codeLen {sym : Nat} (h : sym < 257) : regOf (0x4000 + 64 * sym) = some (.codeLen sym) :=
  regOf_code (off := 0) h (by omega)

theorem regOf_codeBits {sym w : Nat} (h : sym < 257) (hw : w < 8) :
    regOf (0x4004 + 64 * sym + 4 * w) = some (.codeBits sym w) := by
  have e : 0x4004 + 64 * sym + 4 * w = 0x4000 + 64 * sym + (4 + 4 * w) := by omega
  have e1 : (4 + 4 * w) / 4 * 4 = 4 + 4 * w := by omega
  have e2 : (4 + 4 * w - 4) / 4 = w := by omega
  rw [e, regOf_code h (by omega), e1, codeWindowReg, if_neg (by omega), if_pos (by omega), e2]

/-- The addresses that name no register (R59). -/
theorem regOf_unmapped {a : Nat}
    (h : a % 65536 / 4 * 4 = 0x001C ∨ (0x004C ≤ a % 65536 ∧ a % 65536 < 0x0400) ∨ (0x0804 ≤ a % 65536 ∧ a % 65536 < 0x1000) ∨
      (0x2008 ≤ a % 65536 ∧ a % 65536 < 0x4000) ∨ 0x8040 ≤ a % 65536) : regOf a = none := by
  have hw : wordAddress a = a % 65536 / 4 * 4 := rfl
  rw [regOf, hw]
  generalize hm : a % 65536 = m at h
  have hm' : m < 65536 := by omega
  unfold regAtWord
  by_cases h1 : m / 4 * 4 < 0x0400
  · rw [if_pos h1]
    have hnone : controlRegs.find? (fun row => row.1 == m / 4 * 4) = none := by
      rw [List.find?_eq_none]
      intro row hr
      simp only [controlRegs, List.mem_cons, List.not_mem_nil, or_false] at hr
      simp only [beq_iff_eq]
      rcases hr with rfl | rfl | rfl | rfl | rfl | rfl | rfl | rfl | rfl | rfl | rfl | rfl | rfl | rfl | rfl | rfl | rfl | rfl <;>
        simp only <;> omega
    rw [hnone]
    rfl
  · rw [if_neg h1]
    by_cases h2 : m / 4 * 4 < 0x0800
    · omega
    · rw [if_neg h2, if_neg (by omega)]
      by_cases h3 : m / 4 * 4 < 0x1000
      · rw [if_pos h3]
      · rw [if_neg h3, if_neg (by omega)]
        by_cases h4 : m / 4 * 4 < 0x4000
        · rw [if_pos h4]
        · rw [if_neg h4, if_neg (by omega)]

/-- The address of a register (R23). -/
def regAddress : Reg → Nat
  | .id => 0x0000
  | .cmd => 0x0004
  | .status => 0x0008
  | .errCode => 0x000C
  | .errInfo => 0x0010
  | .ctrl => 0x0014
  | .intEn => 0x0018
  | .inPosLo => 0x0020
  | .inPosHi => 0x0024
  | .inLenLo => 0x0028
  | .inLenHi => 0x002C
  | .outLenLo => 0x0030
  | .outLenHi => 0x0034
  | .nodeCount => 0x0038
  | .root => 0x003C
  | .magic => 0x0040
  | .lastMagic => 0x0044
  | .countTotal => 0x0048
  | .freq sym => 0x0400 + 4 * sym
  | .freqEof => 0x0800
  | .nodeA i => 0x1000 + 8 * i
  | .nodeW i => 0x1004 + 8 * i
  | .codeLen sym => 0x4000 + 64 * sym
  | .codeBits sym w => 0x4004 + 64 * sym + 4 * w

/-- A register of the map is reached at its own address only, and FREQ entries are those of R39. -/
theorem regOf_address {a : Nat} {r : Reg} (h : regOf a = some r) :
    wordAddress a = regAddress r ∧ ∀ sym, r = .freq sym → sym < 256 := by
  have hw : wordAddress a = a % 65536 / 4 * 4 := rfl
  rw [regOf] at h
  rw [hw] at h ⊢
  generalize a % 65536 = m at h ⊢
  unfold regAtWord at h
  by_cases h1 : m / 4 * 4 < 0x0400
  · rw [if_pos h1] at h
    cases hf : controlRegs.find? (fun row => row.1 == m / 4 * 4) with
    | none => rw [hf] at h; simp at h
    | some row =>
      rw [hf] at h
      simp only [Option.map_some, Option.some.injEq] at h
      have hmem := List.mem_of_find?_eq_some hf
      have heq := List.find?_some hf
      simp only [beq_iff_eq] at heq
      simp only [controlRegs, List.mem_cons, List.not_mem_nil, or_false] at hmem
      rcases hmem with rfl | rfl | rfl | rfl | rfl | rfl | rfl | rfl | rfl | rfl | rfl | rfl | rfl | rfl | rfl | rfl | rfl | rfl <;>
        simp only at heq h <;> subst h <;> exact ⟨heq.symm, by simp⟩
  · rw [if_neg h1] at h
    split at h
    · simp only [Option.some.injEq] at h
      subst h
      refine ⟨?_, fun sym hs => ?_⟩
      · simp only [regAddress]
        omega
      · simp only [Reg.freq.injEq] at hs
        omega
    · split at h
      · simp only [Option.some.injEq] at h
        subst h
        simp only [regAddress]
        simp
        omega
      · split at h
        · simp at h
        · split at h
          · split at h <;> simp only [Option.some.injEq] at h <;> subst h <;> simp only [regAddress] <;> simp <;> omega
          · split at h
            · simp at h
            · split at h
              · unfold codeWindowReg at h
                split at h
                · simp only [Option.some.injEq] at h; subst h; simp only [regAddress]; simp; omega
                · split at h
                  · simp only [Option.some.injEq] at h; subst h; simp only [regAddress]; simp; omega
                  · simp at h
              · simp at h

/-- The registers that a write can change anything at, by their addresses (R23). -/
theorem regOf_written {a : Nat} {r : Reg} (h : regOf a = some r) :
    (r = .cmd → a % 65536 / 4 = 1) ∧ (r = .status → a % 65536 / 4 = 2) ∧ (r = .ctrl → a % 65536 / 4 = 5) ∧
      (r = .intEn → a % 65536 / 4 = 6) ∧ (∀ sym, r = .freq sym → 0x0400 ≤ a % 65536 ∧ a % 65536 < 0x0800) := by
  obtain ⟨h1, h2⟩ := regOf_address h
  have hw : wordAddress a = a % 65536 / 4 * 4 := rfl
  rw [hw] at h1
  refine ⟨?_, ?_, ?_, ?_, ?_⟩
  · rintro rfl
    simp only [regAddress] at h1
    omega
  · rintro rfl
    simp only [regAddress] at h1
    omega
  · rintro rfl
    simp only [regAddress] at h1
    omega
  · rintro rfl
    simp only [regAddress] at h1
    omega
  · rintro sym rfl
    have := h2 sym rfl
    simp only [regAddress] at h1
    omega

/-! ## Steps -/

/-- A step carries out the host's next action. -/
theorem step_of_host {s : State} {a : HostAction} {rest : List HostAction} (h : s.host = a :: rest) :
    step s = hostAction a (popAction rest s) := by
  simp [step, h]

@[simp] theorem readReg_popAction (rest : List HostAction) (s : State) (r : Reg) :
    readReg (popAction rest s) r = readReg s r := by
  cases r <;> rfl

@[simp] theorem readAddr_popAction (rest : List HostAction) (s : State) (a : Nat) :
    readAddr a (popAction rest s) = readAddr a s := by
  simp [readAddr]

/-- A read of any address while BUSY = 0. -/
theorem step_memRead {s : State} {a : Nat} {rest : List HostAction} (hb : s.busy = false) (h : s.host = .memRead a :: rest) :
    step s = .next { popAction rest s with reply := .word (readAddr a s) } := by
  simp [step_of_host h, hostAction, memRead, hb]

/-- A write of any address. -/
theorem step_memWrite {s : State} {a : Nat} {v : Word} {rest : List HostAction} (h : s.host = .memWrite a v :: rest) :
    step s = memWrite a v (popAction rest s) := step_of_host h

/-- All that a read can do. -/
theorem step_memRead_cases {s : State} {a : Nat} {rest : List HostAction} (h : s.host = .memRead a :: rest) :
    ∃ v n, step s = .next { popAction rest s with reply := .word v, freeCount := n } := by
  rw [step_of_host h]
  show ∃ v n, Host.Outcome.next (memRead a (popAction rest s)) = _
  unfold memRead
  split
  · exact ⟨_, _, rfl⟩
  · exact ⟨_, s.freeCount, rfl⟩

/-- The length of a port below 2^64 bits (R32, R33). -/
theorem portLength_of_lt {n : Nat} (h : n < 2 ^ 64) : portLength n = BitVec.ofNat 64 n := if_pos h

/-- The two halves of a 64-bit register. -/
theorem extractLsb'_halves (x : BitVec 64) :
    x.extractLsb' 0 32 = BitVec.ofNat 32 x.toNat ∧ x.extractLsb' 32 32 = BitVec.ofNat 32 (x.toNat / 2 ^ 32) := by
  constructor <;> rw [← BitVec.toNat_inj] <;> simp [BitVec.extractLsb'_toNat, Nat.shiftRight_eq_div_pow]

theorem readAddr_of_regOf {a : Nat} {r : Reg} (h : regOf a = some r) (s : State) : readAddr a s = readReg s r := by
  simp [readAddr, h]

theorem readAddr_of_unmapped {a : Nat} (h : regOf a = none) (s : State) : readAddr a s = 0#32 := by
  simp [readAddr, h]

/-- All that a write can do: it reaches a register that is written, or nothing changes. -/
theorem memWrite_eq_next {a : Nat} {v : Word} {s : State} (h1 : a % 65536 / 4 ∉ [1, 2, 5, 6])
    (h2 : ¬ (0x0400 ≤ a % 65536 ∧ a % 65536 < 0x0800)) : memWrite a v s = .next s := by
  unfold memWrite
  cases hr : regOf a with
  | none => rfl
  | some r =>
    obtain ⟨e1, e2, e3, e4, e5⟩ := regOf_written hr
    simp only [List.mem_cons, List.not_mem_nil, or_false, not_or] at h1
    simp only
    split
    · rfl
    · cases r <;> first | rfl | (exact absurd (e1 rfl) h1.1) | (exact absurd (e2 rfl) h1.2.1) |
        (exact absurd (e3 rfl) h1.2.2.1) | (exact absurd (e4 rfl) h1.2.2.2) | (exact absurd (e5 _ rfl) h2)

theorem memWrite_of_regOf {a : Nat} {r : Reg} {v : Word} {s : State} (hb : s.busy = false) (h : regOf a = some r) :
    memWrite a v s = writeReg r v s := by
  simp [memWrite, h, hb]

theorem memWrite_ctrl {v : Word} {s : State} : memWrite 0x0014 v s = .next (writeCtrl v s) := by
  have h : regOf 0x0014 = some .ctrl := by decide
  simp [memWrite, h, writeReg]

theorem memWrite_of_busy {a : Nat} {v : Word} {s : State} (hb : s.busy = true) (h : a % 65536 / 4 ≠ 5) :
    memWrite a v s = .next s := by
  unfold memWrite
  cases hr : regOf a with
  | none => rfl
  | some r =>
    have := (regOf_written hr).2.2.1
    have hne : r ≠ .ctrl := fun e => h (this e)
    simp [hb, hne]

/-- The pseudocode of a command. -/
def bodyOf : Instr → State → Run Unit
  | .nop => nopBody
  | .clear => clearBody
  | .count => countBody
  | .build => buildBody
  | .genTable => genTableBody
  | .writeMagic => writeMagicBody
  | .serialize => serializeBody
  | .encode => encodeBody
  | .checkMagic => checkMagicBody
  | .deserialize => deserializeBody
  | .decode => decodeBody
  | .rewindIn => rewindInBody
  | .flushOut => flushOutBody
  | .compress => compressBody
  | .decompress => decompressBody

/-- Every command is the issue of its pseudocode (R160). -/
theorem exec_eq (i : Instr) (s : State) : exec i s = runCommand (bodyOf i) s := by
  cases i <;> rfl

/-- While BUSY = 1 or ERR = 1 no command does anything. -/
theorem exec_ignored {s : State} (h : ignoresCommands s = true) (i : Instr) : exec i s = .next s := by
  rw [exec_eq, runCommand_ignored h]

/-- A CMD write of a legal word issues the command. -/
theorem memWrite_cmd {a : Nat} {w : Word} {i : Instr} {s : State} (ha : a % 65536 / 4 = 1) (hd : decode w = .ok i) :
    memWrite a w s = exec i s := by
  simp only [memWrite, regOf_cmd ha]
  split
  · next hb =>
    rw [exec_ignored]
    have : s.busy = true := by simpa using hb
    simp [ignoresCommands, this]
  · simp [writeReg, issueWord, hd]

/-- A CMD write of any word, while the block refuses commands, changes nothing. -/
theorem memWrite_cmd_ignored {a : Nat} {w : Word} {s : State} (ha : a % 65536 / 4 = 1) (h : ignoresCommands s = true) :
    memWrite a w s = .next s := by
  simp only [memWrite, regOf_cmd ha, writeReg, issueWord]
  split
  · rfl
  · cases hd : decode w with
    | ok i => exact exec_ignored h i
    | error e => simp [illegalCommand, h]

/-- A CMD write of an illegal word, while the block takes commands. -/
theorem memWrite_cmd_illegal {a : Nat} {w : Word} {s : State} (ha : a % 65536 / 4 = 1) (h : Ready s)
    (hd : ¬ ∃ i, decode w = .ok i) : memWrite a w s = .next (aborted 0x10#8 0#8 (w.setWidth 8) w.toNat s) := by
  obtain ⟨e, he⟩ := decode_eq_error hd
  rw [memWrite_of_regOf h.1 (regOf_cmd ha), writeReg, issueWord, he]
  simp only [illegalCommand, Ready.not_ignores h, fieldOp_eq_setWidth]
  rfl

/-! ## Host programs -/

theorem runActions_succ {k : Nat} {s t : State} (h : step s = .next t) : runActions (k + 1) s = runActions k t := by
  simp only [runActions, h]

theorem lastCommandSetDone_succ {k : Nat} {last : Bool} {s t : State} {a : HostAction} {rest : List HostAction}
    (hh : s.host = a :: rest) (h : step s = .next t) : lastCommandSetDone (k + 1) last s =
      lastCommandSetDone k (if issuesCommand a then !ignoresCommands s && t.done else last) t := by
  rw [lastCommandSetDone, hh, h]

theorem issuesCommand_memWrite (addr : Nat) (v : Word) : issuesCommand (.memWrite addr v) = decide (regOf addr = some .cmd) := by
  rw [issuesCommand, beq_eq_decide]

theorem issuesCommand_issue (i : Instr) : issuesCommand (issue i) = true := by
  rw [issue, issuesCommand_memWrite]
  decide

/-- LOAD (R180). -/
theorem step_load {s : State} {bits : Bits} {rest : List HostAction} (hb : s.busy = false)
    (hl : bits.length < Config.portLimit) (h : s.host = .load bits :: rest) :
    step s = .next { popAction rest s with inBits := bits, inPos := 0#64 } := by
  rw [step_of_host h]
  have h1 : (popAction rest s).busy = false := hb
  have h2 : (HostAction.load bits).wellFormed = true := decide_eq_true hl
  simp only [hostAction, loadIn, h1, h2, if_true, Bool.false_eq_true, if_false]

/-- TAKE (R180). -/
theorem step_take {s : State} {rest : List HostAction} (hb : s.busy = false) (h : s.host = .take :: rest) :
    step s = .next { popAction rest s with reply := .bits s.outBits, outBits := [] } := by
  rw [step_of_host h]
  have h1 : (popAction rest s).busy = false := hb
  simp only [hostAction, takeOut, h1, Bool.false_eq_true, if_false]
  rfl

/-- The pseudo-operation `<MNEMONIC>` (R77, R78). -/
theorem step_issue {s : State} {i : Instr} {rest : List HostAction} (h : s.host = issue i :: rest) :
    step s = exec i (popAction rest s) := by
  rw [step_of_host h]
  show memWrite 0x0004 (encode i) (popAction rest s) = _
  rw [memWrite_cmd (a := 0x0004) (i := i) (by decide) (by cases i <;> decide)]

end Sys2Proof.Machine
end

