-- ==== Sys2Proof/Laws/Frames.lean ====
section
/-!
SUPPORT. Frames: what a command leaves unchanged however it ends. A mask sets to fixed values what a command may write; a command
keeps a state's mask.
-/

namespace Sys2Proof.Machine

/-! ## Masks -/

/-- `s` without the status bits and error registers that every command may write (R160 to R162). -/
def maskStatus (s : State) : State :=
  { s with
    busy := false, done := false, err := false, errCode := 0#8, errDetail := 0#8, errStep := 0#8, errInfo := 0#32 }

/-- `s` without what COUNT writes (R86). -/
def maskCount (s : State) : State :=
  { maskStatus s with freq := Vector.replicate 256 0#32, countTotal := 0#32, inPos := 0#64 }

/-- `s` without what BUILD writes (R90). -/
def maskBuild (s : State) : State :=
  { maskStatus s with
    nodes := Vector.replicate 513 Node.zero, nodeCount := 0#10, root := 0#10, treeValid := false, tableValid := false }

/-- `s` without what DESERIALIZE writes (R104). -/
def maskDeserialize (s : State) : State := { maskBuild s with inPos := 0#64 }

/-- `s` without what GEN_TABLE writes (R120). -/
def maskGenTable (s : State) : State :=
  { maskStatus s with codes := Vector.replicate 257 Code.none, tableValid := false }

/-- `s` without what SERIALIZE, WRITE_MAGIC and FLUSH_OUT write (R100, R101, R143). -/
def maskOut (s : State) : State := { maskStatus s with outBits := [] }

/-- `s` without what ENCODE and DECODE write (R123, R130). -/
def maskStream (s : State) : State := { maskOut s with inPos := 0#64 }

/-- `s` without what CHECK_MAGIC writes (R103). -/
def maskMagic (s : State) : State := { maskStatus s with lastMagic := 0#32, inPos := 0#64 }

/-- `s` without what CLEAR writes (R141). -/
def maskClear (s : State) : State :=
  { maskStatus s with
    freq := Vector.replicate 256 0#32, countTotal := 0#32, nodeCount := 0#10, root := 0#10, lastMagic := 0#32
    treeValid := false, tableValid := false }

/-- `s` without what COMPRESS writes (R144). -/
def maskCompress (s : State) : State :=
  { maskDeserialize s with
    freq := Vector.replicate 256 0#32, countTotal := 0#32, codes := Vector.replicate 257 Code.none, outBits := [] }

/-- `s` without what DECOMPRESS writes (R145). -/
def maskDecompress (s : State) : State := { maskDeserialize s with lastMagic := 0#32, outBits := [] }

/-! ## OUT is appended to -/

/-- The OUT port of `u` is that of `s` and some bits more (R52). -/
def Appends (s u : State) : Prop := ∃ b, u.outBits = s.outBits ++ b

theorem Appends.refl (s : State) : Appends s s := ⟨[], by simp⟩

theorem Appends.writeSeq {s u : State} (h : Appends s u) (b : Bits) : Appends s (writeSeq b u) := by
  obtain ⟨c, hc⟩ := h
  exact ⟨c ++ b, by simp [hc]⟩

theorem Appends.of_eq {s u : State} (h : u.outBits = s.outBits) : Appends s u := ⟨[], by simp [h]⟩

theorem Appends.trans {s t u : State} (h : Appends s t) (h' : Appends t u) : Appends s u := by
  obtain ⟨b, hb⟩ := h
  obtain ⟨c, hc⟩ := h'
  exact ⟨b ++ c, by rw [hc, hb, List.append_assoc]⟩

/-! ## The pseudocode of each command keeps its mask -/

theorem countBody_mask (s : State) : (countBody s).All fun u => maskCount u = maskCount s :=
  countLoop_all (P := fun u => maskCount u = maskCount s) (fun _ h _ => h) (fun _ _ h => h) (fun _ _ _ _ h => h) _ _ rfl

theorem buildBody_mask (s : State) : (buildBody s).All fun u => maskBuild u = maskBuild s := by
  rcases buildBody_spec s with ⟨u, t, h1, -, h3, -⟩ | ⟨u, a, b, h1, -, h3, -⟩ <;> rw [h1]
  · show maskBuild u = maskBuild s
    rw [h3]
    rfl
  · show maskBuild u = maskBuild s
    rw [h3]
    rfl

theorem deserializeBody_mask (s : State) : (deserializeBody s).All fun u => maskDeserialize u = maskDeserialize s :=
  Run.Post.bind (P := fun u => maskDeserialize u = maskDeserialize s)
    (desNode_all (P := fun u => maskDeserialize u = maskDeserialize s) (fun _ _ h _ => h) (fun _ _ h => h)
      (fun _ _ _ _ h => h) (fun _ _ _ h => h) _ _ _ rfl)
    fun _ _ h => h

theorem genTableBody_mask (s : State) : (genTableBody s).All fun u => maskGenTable u = maskGenTable s := by
  unfold genTableBody
  split
  · exact Run.Post.andThen (P := fun u => maskGenTable u = maskGenTable s)
      (walkNode_all (P := fun u => maskGenTable u = maskGenTable s) (fun _ _ _ h => h) _ _ _ _ _ rfl) fun _ h => h
  · rfl

theorem writeMagicBody_mask (s : State) :
    (writeMagicBody s).All fun u => maskOut u = maskOut s ∧ Appends s u :=
  ⟨rfl, (Appends.refl s).writeSeq _⟩

theorem flushOutBody_mask (s : State) : (flushOutBody s).All fun u => maskOut u = maskOut s ∧ Appends s u :=
  ⟨rfl, (Appends.refl s).writeSeq _⟩

theorem serializeBody_mask (s : State) : (serializeBody s).All fun u => maskOut u = maskOut s ∧ Appends s u := by
  unfold serializeBody
  split
  · exact serNode_all (P := fun u => maskOut u = maskOut s ∧ Appends s u) (fun b u h => ⟨h.1, h.2.writeSeq b⟩) _ _ _
      ⟨rfl, .refl s⟩
  · exact ⟨rfl, .of_eq rfl⟩

theorem encodeBody_mask (s : State) : (encodeBody s).All fun u => maskStream u = maskStream s ∧ Appends s u := by
  unfold encodeBody
  split
  · exact encodeLoop_all (P := fun u => maskStream u = maskStream s ∧ Appends s u) (fun _ h _ => h)
      (fun b u h => ⟨h.1, h.2.writeSeq b⟩) (fun _ _ _ _ h => h) _ _ ⟨rfl, .refl s⟩
  · exact ⟨rfl, .of_eq rfl⟩

theorem decodeBody_mask (s : State) : (decodeBody s).All fun u => maskStream u = maskStream s ∧ Appends s u := by
  unfold decodeBody
  split
  · split
    · trivial
    · split
      · split
        · exact ⟨rfl, .refl s⟩
        · exact ⟨rfl, .of_eq rfl⟩
      · exact decodeLoop_all (P := fun u => maskStream u = maskStream s ∧ Appends s u) (fun _ h _ => h)
          (fun b u h => ⟨h.1, h.2.writeSeq b⟩) (fun _ _ _ _ h => h) _ _ _ _ ⟨rfl, .refl s⟩
  · exact ⟨rfl, .of_eq rfl⟩

theorem checkMagicBody_mask (s : State) : (checkMagicBody s).All fun u => maskMagic u = maskMagic s := by
  unfold checkMagicBody
  simp only
  split
  · rfl
  · next v s1 h =>
    obtain ⟨-, -, rfl⟩ := readBits_eq_some_iff.mp h
    split <;> rfl

/-! ## The node memory beyond NODE_COUNT -/

/-- `u` comes from `s` by writing node entries from the old NODE_COUNT up to the new one. -/
structure Above (s u : State) : Prop where
  ge : s.nodeCount.toNat ≤ u.nodeCount.toNat
  cap : u.nodeCount.toNat ≤ Config.nodeCap
  same : ∀ j, u.nodeCount.toNat ≤ j → nodeAt u j = nodeAt s j

theorem Above.trans {s t u : State} (h : Above s t) (h' : Above t u) : Above s u :=
  ⟨h.ge.trans h'.ge, h'.cap, fun j hj => (h'.same j hj).trans (h.same j (h'.ge.trans hj))⟩

theorem Above.of_eq {s u : State} (hc : s.nodeCount.toNat ≤ Config.nodeCap) (h1 : u.nodes = s.nodes)
    (h2 : u.nodeCount = s.nodeCount) : Above s u :=
  ⟨by rw [h2], by rw [h2]; exact hc, fun j _ => by simp [nodeAt, h1]⟩

theorem Above.pushNode {s : State} (h : s.nodeCount.toNat < Config.nodeCap) (n : Node) : Above s (pushNode n s) := by
  have hc : (Machine.pushNode n s).nodeCount.toNat = s.nodeCount.toNat + 1 := by rw [pushNode_nodeCount, nodeCount_succ h]
  refine ⟨by omega, by omega, fun j hj => ?_⟩
  rw [nodeAt_pushNode h, if_neg (by omega)]

theorem Above.setLeft {s : State} {i l : Nat} (hc : s.nodeCount.toNat ≤ Config.nodeCap) (hi : i < s.nodeCount.toNat) :
    Above s (setLeft i l s) := by
  unfold Machine.setLeft
  split
  · refine ⟨le_rfl, hc, fun j hj => ?_⟩
    have hj' : s.nodeCount.toNat ≤ j := hj
    rw [nodeAt_setNode (by omega), if_neg (by omega)]
  · exact .of_eq hc rfl rfl

theorem Above.setRight {s : State} {i l : Nat} (hc : s.nodeCount.toNat ≤ Config.nodeCap) (hi : i < s.nodeCount.toNat) :
    Above s (setRight i l s) := by
  unfold Machine.setRight
  split
  · refine ⟨le_rfl, hc, fun j hj => ?_⟩
    have hj' : s.nodeCount.toNat ≤ j := hj
    rw [nodeAt_setNode (by omega), if_neg (by omega)]
  · exact .of_eq hc rfl rfl

/-- `Des` writes node entries from NODE_COUNT on only, and never more than the node memory has (R104, R108). -/
theorem desNode_above (d : Nat) (seen : List Nat) (s : State) (hc : s.nodeCount.toNat ≤ Config.nodeCap) :
    (desNode d seen s).All (Above s) := by
  induction d generalizing seen s with
  | zero => trivial
  | succ d ih =>
    rw [desNode]
    split
    · exact Above.of_eq hc rfl rfl
    · next f s1 hread =>
      obtain ⟨-, -, rfl⟩ := readBits_eq_some_iff.mp hread
      split
      · unfold desLeaf
        split
        · exact Above.of_eq hc rfl rfl
        · next sym s2 hread2 =>
          obtain ⟨-, -, rfl⟩ := readBits_eq_some_iff.mp hread2
          split
          · exact Above.of_eq hc rfl rfl
          · split
            · exact Above.of_eq hc rfl rfl
            · split
              · exact Above.of_eq hc rfl rfl
              · next hne =>
                simp only [advance_nodeCount] at hne
                have : Above s (advance Config.symW (advance 1 s)) := .of_eq hc rfl rfl
                exact this.trans (.pushNode (by simp only [advance_nodeCount]; omega) _)
      · split
        · exact Above.of_eq hc rfl rfl
        · next hne =>
          simp only [advance_nodeCount] at hne ⊢
          have h0 : Above s (advance 1 s) := .of_eq hc rfl rfl
          have hlt : (advance 1 s).nodeCount.toNat < Config.nodeCap := by simp only [advance_nodeCount]; omega
          have h1 := h0.trans (.pushNode hlt (innerNode 0 0 0#32))
          have hi : s.nodeCount.toNat < (pushNode (innerNode 0 0 0#32) (advance 1 s)).nodeCount.toNat := by
            rw [pushNode_nodeCount, nodeCount_succ hlt]
            simp
          have hsub : (desNode d seen (pushNode (innerNode 0 0 0#32) (advance 1 s))).Post
              (fun u => Above s u ∧ s.nodeCount.toNat < u.nodeCount.toNat) (Above s) :=
            Run.Post.mono (ih seen _ h1.cap) (fun u hu => ⟨h1.trans hu, hi.trans_le hu.ge⟩) fun u hu => h1.trans hu
          refine hsub.bind ?_
          · rintro ⟨l, seen1⟩ u ⟨hu, hiu⟩
            have h2 : Above s (setLeft s.nodeCount.toNat l u) := hu.trans (.setLeft hu.cap hiu)
            have hi2 : s.nodeCount.toNat < (setLeft s.nodeCount.toNat l u).nodeCount.toNat :=
              hiu.trans_le (Above.setLeft hu.cap hiu).ge
            have hsub2 : (desNode d seen1 (setLeft s.nodeCount.toNat l u)).Post
                (fun v => Above s v ∧ s.nodeCount.toNat < v.nodeCount.toNat) (Above s) :=
              Run.Post.mono (ih seen1 _ h2.cap) (fun v hv => ⟨h2.trans hv, hi2.trans_le hv.ge⟩) fun v hv => h2.trans hv
            refine hsub2.bind ?_
            rintro ⟨r, seen2⟩ v ⟨hv, hiv⟩
            exact hv.trans (.setRight hv.cap hiv)

/-- DESERIALIZE, however it ends, writes the entries below the new NODE_COUNT only. -/
theorem deserializeBody_above (s : State) : (deserializeBody s).All (Above (dropTree s)) := by
  refine Run.Post.bind (desNode_above _ _ _ (by simp)) fun _ u hu => ?_
  exact hu.trans (.of_eq hu.cap rfl rfl)

/-- BUILD, however it ends, writes the entries below the new NODE_COUNT only. -/
theorem buildBody_above (s : State) : (buildBody s).All (Above (dropTree s)) := by
  rcases buildBody_spec s with ⟨u, t, h1, -, -, h4, -⟩ | ⟨u, a, b, h1, -, -, h4, -⟩ <;> rw [h1]
  · exact ⟨by simp, h4.count.2, h4.above⟩
  · exact ⟨by simp, h4.count.2, h4.above⟩

/-! ## The composite commands -/

theorem compressBody_mask (s : State) : (compressBody s).All fun u => maskCompress u = maskCompress s ∧ Appends s u := by
  have hc : ∀ {u v : State}, maskCount v = maskCount u → maskCompress v = maskCompress u ∧ v.outBits = u.outBits :=
    fun h => ⟨have e := congrArg maskCompress h; e, have e := congrArg State.outBits h; e⟩
  have hb : ∀ {u v : State}, maskBuild v = maskBuild u → maskCompress v = maskCompress u ∧ v.outBits = u.outBits :=
    fun h => ⟨have e := congrArg maskCompress h; e, have e := congrArg State.outBits h; e⟩
  have hg : ∀ {u v : State}, maskGenTable v = maskGenTable u → maskCompress v = maskCompress u ∧ v.outBits = u.outBits :=
    fun h => ⟨have e := congrArg maskCompress h; e, have e := congrArg State.outBits h; e⟩
  have ho : ∀ {u v : State}, maskOut v = maskOut u → maskCompress v = maskCompress u := fun h => have e := congrArg maskCompress h; e
  have hs : ∀ {u v : State}, maskStream v = maskStream u → maskCompress v = maskCompress u :=
    fun h => have e := congrArg maskCompress h; e
  refine Run.Post.andThen (P := fun u => maskCompress u = maskCompress s ∧ Appends s u) ⟨rfl, .of_eq rfl⟩ fun s1 h1 => ?_
  refine Run.Post.andThen ((countBody_mask s1).mono fun u hu =>
    ⟨(hc hu).1.trans h1.1, h1.2.trans (.of_eq (hc hu).2)⟩) fun s2 h2 => ?_
  refine Run.Post.andThen ((buildBody_mask s2).mono fun u hu =>
    ⟨(hb hu).1.trans h2.1, h2.2.trans (.of_eq (hb hu).2)⟩) fun s3 h3 => ?_
  refine Run.Post.andThen ((genTableBody_mask s3).mono fun u hu =>
    ⟨(hg hu).1.trans h3.1, h3.2.trans (.of_eq (hg hu).2)⟩) fun s4 h4 => ?_
  refine Run.Post.andThen ((writeMagicBody_mask s4).mono fun u hu => ⟨(ho hu.1).trans h4.1, h4.2.trans hu.2⟩) fun s5 h5 => ?_
  refine Run.Post.andThen ((serializeBody_mask s5).mono fun u hu => ⟨(ho hu.1).trans h5.1, h5.2.trans hu.2⟩) fun s6 h6 => ?_
  refine Run.Post.andThen (P := fun u => maskCompress u = maskCompress s ∧ Appends s u) h6 fun s7 h7 => ?_
  refine Run.Post.andThen ((encodeBody_mask s7).mono fun u hu => ⟨(hs hu.1).trans h7.1, h7.2.trans hu.2⟩) fun s8 h8 => ?_
  exact (flushOutBody_mask s8).mono fun u hu => ⟨(ho hu.1).trans h8.1, h8.2.trans hu.2⟩

theorem decompressBody_mask (s : State) :
    (decompressBody s).All fun u => maskDecompress u = maskDecompress s ∧ Appends s u := by
  have hm : ∀ {u v : State}, maskMagic v = maskMagic u → maskDecompress v = maskDecompress u ∧ v.outBits = u.outBits :=
    fun h => ⟨have e := congrArg maskDecompress h; e, have e := congrArg State.outBits h; e⟩
  have hd : ∀ {u v : State}, maskDeserialize v = maskDeserialize u →
      maskDecompress v = maskDecompress u ∧ v.outBits = u.outBits :=
    fun h => ⟨have e := congrArg maskDecompress h; e, have e := congrArg State.outBits h; e⟩
  have hs : ∀ {u v : State}, maskStream v = maskStream u → maskDecompress v = maskDecompress u :=
    fun h => have e := congrArg maskDecompress h; e
  refine Run.Post.andThen (P := fun u => maskDecompress u = maskDecompress s ∧ Appends s u) ⟨rfl, .of_eq rfl⟩ fun s1 h1 => ?_
  refine Run.Post.andThen ((checkMagicBody_mask s1).mono fun u hu =>
    ⟨(hm hu).1.trans h1.1, h1.2.trans (.of_eq (hm hu).2)⟩) fun s2 h2 => ?_
  refine Run.Post.andThen ((deserializeBody_mask s2).mono fun u hu =>
    ⟨(hd hu).1.trans h2.1, h2.2.trans (.of_eq (hd hu).2)⟩) fun s3 h3 => ?_
  exact (decodeBody_mask s3).mono fun u hu => ⟨(hs hu.1).trans h3.1, h3.2.trans hu.2⟩

/-! ## From the pseudocode to the command -/

/-- A command keeps any mask that its pseudocode, its start and its end keep. -/
theorem exec_mask {γ : Type} (F : State → γ) {i : Instr} {s t : State} (hs : ∀ s, F (started s) = F s)
    (hf : ∀ s, F (finished s) = F s) (hb : ∀ s, (bodyOf i s).All fun u => F u = F s) (h : exec i s = .next t) :
    F t = F s := by
  rw [exec_eq] at h
  exact runCommand_keeps F hs hf hb h

/-- A command appends to OUT what its pseudocode appends. -/
theorem exec_appends {i : Instr} {s t : State} (hb : ∀ s, (bodyOf i s).All (Appends s)) (h : exec i s = .next t) :
    Appends s t := by
  rw [exec_eq] at h
  obtain ⟨-, rfl⟩ | ⟨-, ⟨u, hu, rfl⟩ | hu⟩ := runCommand_cases h
  · exact .refl _
  · have := hb (started s)
    rw [hu] at this
    exact this
  · have := hb (started s)
    rw [hu] at this
    exact this

/-- No command writes IN, and OUT is only appended to (R51, R52). -/
theorem exec_ports {i : Instr} {s t : State} (h : exec i s = .next t) : t.inBits = s.inBits ∧ Appends s t := by
  have key : ∀ s, (bodyOf i s).All fun u => u.inBits = s.inBits ∧ Appends s u := by
    intro s
    have hk : ∀ {F : State → State} {r : Run Unit}, (r.All fun u => F u = F s) → (∀ u, (F u).inBits = u.inBits) →
        (∀ u, (F u).outBits = u.outBits) → r.All fun u => u.inBits = s.inBits ∧ Appends s u := by
      intro F r hr h1 h2
      refine hr.mono fun u hu => ⟨?_, .of_eq ?_⟩
      · rw [← h1 u, hu, h1]
      · rw [← h2 u, hu, h2]
    have ho : ∀ {F : State → State} {r : Run Unit}, (r.All fun u => F u = F s ∧ Appends s u) → (∀ u, (F u).inBits = u.inBits) →
        r.All fun u => u.inBits = s.inBits ∧ Appends s u := by
      intro F r hr h1
      exact hr.mono fun u hu => ⟨by rw [← h1 u, hu.1, h1], hu.2⟩
    cases i with
    | nop => exact ⟨rfl, .refl s⟩
    | clear => exact ⟨rfl, .of_eq rfl⟩
    | count => exact hk (countBody_mask s) (fun _ => rfl) fun _ => rfl
    | build => exact hk (buildBody_mask s) (fun _ => rfl) fun _ => rfl
    | genTable => exact hk (genTableBody_mask s) (fun _ => rfl) fun _ => rfl
    | writeMagic => exact ho (writeMagicBody_mask s) fun _ => rfl
    | serialize => exact ho (serializeBody_mask s) fun _ => rfl
    | encode => exact ho (encodeBody_mask s) fun _ => rfl
    | checkMagic => exact hk (checkMagicBody_mask s) (fun _ => rfl) fun _ => rfl
    | deserialize => exact hk (deserializeBody_mask s) (fun _ => rfl) fun _ => rfl
    | decode => exact ho (decodeBody_mask s) fun _ => rfl
    | rewindIn => exact ⟨rfl, .of_eq rfl⟩
    | flushOut => exact ho (flushOutBody_mask s) fun _ => rfl
    | compress => exact ho (compressBody_mask s) fun _ => rfl
    | decompress => exact ho (decompressBody_mask s) fun _ => rfl
  exact ⟨exec_mask State.inBits (fun _ => rfl) (fun _ => rfl) (fun s => (key s).mono fun _ h => h.1) h,
    exec_appends (fun s => (key s).mono fun _ h => h.2) h⟩

/-- BUILD and DESERIALIZE leave the node memory from the new NODE_COUNT on. -/
theorem exec_above {i : Instr} {s t : State} (hb : ∀ s, (bodyOf i s).All (Above (dropTree s))) (h : exec i s = .next t) :
    ∀ j, t.nodeCount.toNat ≤ j → nodeAt t j = nodeAt s j := by
  rw [exec_eq] at h
  obtain ⟨-, rfl⟩ | ⟨-, ⟨u, hu, rfl⟩ | hu⟩ := runCommand_cases h
  · exact fun _ _ => rfl
  · have := hb (started s)
    rw [hu] at this
    exact this.same
  · have := hb (started s)
    rw [hu] at this
    exact this.same

end Sys2Proof.Machine
end

