-- ==== Sys2Proof/Laws/Malformed.lean ====
section
/-!
SUPPORT. DESERIALIZE at a header that is broken off or wrong (R106 to R109): it gets to the node in question with the nodes in
front of it made, and raises there.
-/

namespace Sys2Proof.Machine

/-- The levels of the recursion that the break is below. -/
def OpenHeader.depth : OpenHeader → Nat
  | .here => 0
  | .left o => 1 + o.depth
  | .right l o => 1 + max l.height o.depth

theorem OpenHeader.depth_le_nodes (o : OpenHeader) : o.depth ≤ o.nodes := by
  induction o with
  | here => simp [depth, nodes]
  | left o ih => simp [depth, nodes]; omega
  | right l o ih =>
    have h1 := l.height_le_length_leaves
    have h2 := l.length_indices
    have h3 := l.length_leaves_pos
    simp [depth, nodes]
    omega

theorem OpenStores.congr {s s' : State} {o : OpenHeader} {i : Nat} (h : OpenStores s i o)
    (hn : ∀ j, i ≤ j → j < i + o.nodes → nodeAt s' j = nodeAt s j) : OpenStores s' i o := by
  induction o generalizing i with
  | here => trivial
  | left o ih =>
    simp only [OpenHeader.nodes] at hn
    exact ⟨by rw [hn i le_rfl (by omega)]; exact h.1, ih h.2 fun j h1 h2 => hn j (by omega) (by omega)⟩
  | right l o ih =>
    simp only [OpenHeader.nodes] at hn
    refine ⟨by rw [hn i le_rfl (by omega)]; exact h.1, h.2.1.congr ?_, ih h.2.2 fun j h1 h2 => hn j (by omega) (by omega)⟩
    intro j hj
    rw [CodeTree.indices_preorder, List.mem_range'_1] at hj
    exact hn j (by omega) (by omega)

/-- `Des` gets to the node behind the break, and a raise there is a raise of the whole (R104, R168). -/
theorem desNode_open {o : OpenHeader} {d : Nat} {seen : List Nat} {s : State} {rest : Bits} (hp : PortOk s)
    (hr : remaining s = o.bits ++ rest) (hc : s.nodeCount.toNat + o.nodes ≤ Config.nodeCap)
    (hs : ∀ x ∈ o.symbols, x ≤ Config.eofSym) (hn : o.symbols.Nodup) (hnew : ∀ x ∈ o.symbols, x ∉ seen)
    (hd : o.depth < d) :
    ∃ d' seen' N, (∀ x, x ∈ seen' ↔ x ∈ seen ∨ x ∈ o.symbols) ∧ (∀ j < s.nodeCount.toNat, N[j]? = nodeAt s j) ∧
      OpenStores (grown N o.nodes o.bits.length s) s.nodeCount.toNat o ∧
      ∀ u, desNode (d' + 1) seen' (grown N o.nodes o.bits.length s) = .abort u → desNode d seen s = .abort u := by
  induction o generalizing d seen s rest with
  | here =>
    obtain ⟨d, rfl⟩ : ∃ e, d = e + 1 := ⟨d - 1, by omega⟩
    refine ⟨d, seen, s.nodes, by simp [OpenHeader.symbols], fun j _ => rfl, trivial, ?_⟩
    have : grown s.nodes OpenHeader.here.nodes OpenHeader.here.bits.length s = s := by
      simp [grown, OpenHeader.nodes, OpenHeader.bits]
    rw [this]
    exact fun u h => h
  | left o ih =>
    obtain ⟨d, rfl⟩ : ∃ e, d = e + 1 := ⟨d - 1, by omega⟩
    simp only [OpenHeader.nodes, OpenHeader.bits, OpenHeader.symbols, OpenHeader.depth, List.cons_append] at *
    have hcapE : Config.nodeCap = 513 := rfl
    have hcap : s.nodeCount.toNat < Config.nodeCap := by omega
    set s1 := pushNode (innerNode 0 0 0#32) (advance 1 s) with hs1
    have hs1g : s1 = grown (s.nodes.setIfInBounds s.nodeCount.toNat (innerNode 0 0 0#32)) 1 1 s := rfl
    obtain ⟨hp1, hr1⟩ := grown_port (N := s.nodes.setIfInBounds s.nodeCount.toNat (innerNode 0 0 0#32)) (c := 1)
      (p := 1) (b := [false]) hp (by simpa using hr) rfl
    rw [← hs1g] at hp1 hr1
    have hc1 : s1.nodeCount.toNat = s.nodeCount.toNat + 1 := by rw [hs1g, grown_nodeCount_toNat (by omega)]
    obtain ⟨d', seen', N, h1, h2, h3, h4⟩ := ih (d := d) (seen := seen) hp1 hr1 (by omega) hs hn hnew (by omega)
    have hg : grown N o.nodes o.bits.length s1 = grown N (1 + o.nodes) (o.bits.length + 1) s := by
      rw [hs1g, grown_grown, Nat.add_comm 1 o.bits.length]
    rw [hg] at h3 h4
    refine ⟨d', seen', N, h1, ?_, ⟨?_, by rw [← hc1]; exact h3⟩, ?_⟩
    · intro j hj
      rw [h2 j (by omega), hs1, nodeAt_grown_push hcap, if_neg (by omega)]
    · show N[s.nodeCount.toNat]? = _
      rw [h2 _ (by omega), hs1, nodeAt_grown_push hcap, if_pos rfl]
    · intro u hu
      rw [desNode_inner hr hcap, ← hs1, h4 u hu, Run.bind_abort]
  | right l o ih =>
    obtain ⟨d, rfl⟩ : ∃ e, d = e + 1 := ⟨d - 1, by omega⟩
    simp only [OpenHeader.nodes, OpenHeader.bits, OpenHeader.symbols, OpenHeader.depth, List.cons_append,
      List.append_assoc, List.mem_append, List.nodup_append] at *
    have hcapE : Config.nodeCap = 513 := rfl
    have hcap : s.nodeCount.toNat < Config.nodeCap := by omega
    set s1 := pushNode (innerNode 0 0 0#32) (advance 1 s) with hs1
    have hs1g : s1 = grown (s.nodes.setIfInBounds s.nodeCount.toNat (innerNode 0 0 0#32)) 1 1 s := rfl
    obtain ⟨hp1, hr1⟩ := grown_port (N := s.nodes.setIfInBounds s.nodeCount.toNat (innerNode 0 0 0#32)) (c := 1)
      (p := 1) (b := [false]) hp (by simpa using hr) rfl
    rw [← hs1g] at hp1 hr1
    have hc1 : s1.nodeCount.toNat = s.nodeCount.toNat + 1 := by rw [hs1g, grown_nodeCount_toNat (by omega)]
    obtain ⟨seen1, N1, hdes1, hseen1, hlow1, hst1⟩ := desNode_header (d := d) (seen := seen) hp1 hr1 (by omega)
      (fun x hx => hs x (.inl hx)) hn.1 (fun x hx => hnew x (.inl hx)) (by omega)
    have hi1 : nodeAt (grown N1 l.indices.length l.header.length s1) s.nodeCount.toNat = some (innerNode 0 0 0#32) := by
      show N1[s.nodeCount.toNat]? = _
      rw [hlow1 _ (by omega), hs1, nodeAt_grown_push hcap, if_pos rfl]
    set m : Node := { innerNode 0 0 0#32 with left := BitVec.ofNat 10 s1.nodeCount.toNat } with hm
    have hset1 : setLeft s.nodeCount.toNat s1.nodeCount.toNat (grown N1 l.indices.length l.header.length s1) =
        grown (N1.setIfInBounds s.nodeCount.toNat m) l.indices.length l.header.length s1 := by
      rw [setLeft_of_nodeAt hi1, setNode_grown]
    set s2 := grown (N1.setIfInBounds s.nodeCount.toNat m) l.indices.length l.header.length s1 with hs2
    obtain ⟨hp2, hr2⟩ := grown_port (N := N1.setIfInBounds s.nodeCount.toNat m) (c := l.indices.length)
      (p := l.header.length) hp1 hr1 rfl
    rw [← hs2] at hp2 hr2
    have hc2 : s2.nodeCount.toNat = s.nodeCount.toNat + 1 + l.indices.length := by
      rw [hs2, grown_nodeCount_toNat (by omega), hc1]
    have hi2 : nodeAt s2 s.nodeCount.toNat = some m := by
      rw [hs2, ← setNode_grown, nodeAt_setNode hcap, if_pos rfl]
    obtain ⟨d', seen', N, h1, h2, h3, h4⟩ := ih (seen := seen1) hp2 hr2 (by omega) (fun x hx => hs x (.inr hx)) hn.2.1
      (fun x hx h => (hseen1 x).mp h |>.elim (hnew x (.inr hx)) fun h' => hn.2.2 x h' x hx rfl) (d := d) (by omega)
    have hg : grown N o.nodes o.bits.length s2 =
        grown N (1 + l.indices.length + o.nodes) (l.header ++ o.bits).length.succ s := by
      rw [hs2, grown_grown, hs1g, grown_grown]
      simp only [List.length_append]
      congr 1 <;> omega
    rw [hg] at h3 h4
    refine ⟨d', seen', N, ?_, ?_, ⟨?_, ?_, ?_⟩, ?_⟩
    · intro x
      rw [h1, hseen1]
      tauto
    · intro j hj
      rw [h2 j (by omega), hs2, ← setNode_grown, nodeAt_setNode hcap, if_neg (by omega)]
      show N1[j]? = _
      rw [hlow1 j (by omega), hs1, nodeAt_grown_push hcap, if_neg (by omega)]
    · show N[s.nodeCount.toNat]? = _
      rw [h2 _ (by omega), hi2, hm, hc1]
      rfl
    · rw [hc1] at hst1
      refine hst1.congr ?_
      intro j hj
      rw [CodeTree.indices_preorder, List.mem_range'_1] at hj
      show N[j]? = _
      rw [h2 j (by omega), hs2, ← setNode_grown, nodeAt_setNode hcap, if_neg (by omega)]
    · rw [← hc2]
      exact h3
    · intro u hu
      rw [desNode_inner hr hcap, ← hs1, hdes1, Run.bind_ok]
      simp only [hset1]
      rw [h4 u hu, Run.bind_abort]

/-- The state in which DESERIALIZE stands at the node behind the break. -/
def atBreak (N : Vector Node 513) (o : OpenHeader) (s : State) : State := grown N o.nodes o.bits.length (dropTree s)

/-- What a raise of `Des` behind a break is for DESERIALIZE (R106 to R109, R162). -/
theorem deserializeBody_open {o : OpenHeader} {s : State} {rest : Bits} (hp : PortOk s)
    (hr : remaining s = o.bits ++ rest) (hc : o.nodes ≤ Config.nodeCap) (hs : ∀ x ∈ o.symbols, x ≤ Config.eofSym)
    (hn : o.symbols.Nodup) :
    ∃ d seen N, (∀ x, x ∈ seen ↔ x ∈ o.symbols) ∧ OpenStores (atBreak N o s) 0 o ∧ PortOk (atBreak N o s) ∧
      remaining (atBreak N o s) = rest ∧ (atBreak N o s).nodeCount.toNat = o.nodes ∧
      ∀ u, desNode (d + 1) seen (atBreak N o s) = .abort u → deserializeBody s = .abort u := by
  have hd : o.depth < Config.nodeCap + 1 := Nat.lt_succ_of_le (o.depth_le_nodes.trans hc)
  obtain ⟨d, seen, N, h1, -, h3, h4⟩ := desNode_open (s := dropTree s) (seen := []) (hp.congr rfl rfl) hr
    (by simpa using hc) hs hn (by simp) hd
  obtain ⟨hp', hr'⟩ := grown_port (s := dropTree s) (N := N) (c := o.nodes) (p := o.bits.length) (hp.congr rfl rfl) hr rfl
  refine ⟨d, seen, N, by simpa using h1, h3, hp', hr', ?_, ?_⟩
  · rw [atBreak, grown_nodeCount_toNat (by simpa using hc)]
    simp
  · intro u hu
    rw [deserializeBody, h4 u hu, Run.bind_abort]

/-- IN ends in front of a node's flag bit, or inside a leaf's symbol field (R109). -/
theorem desNode_exhausted {d : Nat} {seen : List Nat} {s : State} {rest : Bits} (hp : PortOk s)
    (hr : remaining s = rest) (h : rest = [] ∨ ∃ short : Bits, rest = true :: short ∧ short.length < Config.symW) :
    desNode (d + 1) seen s = malformed 1#8 s.nodeCount.toNat (advance (min rest.length 1) s) := by
  rcases h with rfl | ⟨short, rfl, hlt⟩
  · have : readBits 1 s = none := by
      rw [readBits_eq_none_iff, ← length_remaining, hr]
      simp
    rw [desNode, this]
    simp [advance_zero]
  · have hr' : remaining (advance 1 s) = short := remaining_advance_append (b := [true]) hp (by simpa using hr) rfl
    have : readBits Config.symW (advance 1 s) = none := by
      rw [readBits_eq_none_iff, ← length_remaining, hr']
      exact hlt
    rw [desNode_leaf hr, desLeaf, this]
    simp

/-- A leaf whose field is no symbol, or is the symbol of an earlier leaf, or for which there is no room (R106 to R108). -/
theorem desNode_bad_leaf {d v : Nat} {seen : List Nat} {s : State} {rest : Bits} (hp : PortOk s) (hv : v < 2 ^ Config.symW)
    (hr : remaining s = true :: (spell Config.symW v ++ rest)) :
    desNode (d + 1) seen s =
      (if v > Config.eofSym then malformed 2#8 v (advance (1 + Config.symW) s)
      else if v ∈ seen then malformed 3#8 v (advance (1 + Config.symW) s)
      else if s.nodeCount.toNat = Config.nodeCap then malformed 4#8 s.nodeCount.toNat (advance (1 + Config.symW) s)
      else .ok (s.nodeCount.toNat, v :: seen) (pushNode (leafNode v 0#32) (advance (1 + Config.symW) s))) := by
  have hr' : remaining (advance 1 s) = spell Config.symW v ++ rest :=
    remaining_advance_append (b := [true]) hp (by simpa using hr) rfl
  rw [desNode_leaf hr, desLeaf, readBits_of_append hr' (by simp), bitsValue_spell, Nat.mod_eq_of_lt hv]
  simp only [advance_advance, advance_nodeCount]

/-- An internal node for which there is no room (R108). -/
theorem desNode_full {d : Nat} {seen : List Nat} {s : State} {rest : Bits} (hr : remaining s = false :: rest)
    (hc : s.nodeCount.toNat = Config.nodeCap) :
    desNode (d + 1) seen s = malformed 4#8 s.nodeCount.toNat (advance 1 s) := by
  rw [desNode, readBit_cons hr]
  simp only [Bool.toNat_false, Nat.zero_ne_one, if_false, advance_nodeCount, hc, if_true]

end Sys2Proof.Machine
end

