-- ==== Sys2Proof/Laws/Commands.lean ====
section
/-!
SUPPORT. From the pseudocode of a command to the command: what `exec` answers once the pseudocode's result is known, and COUNT's
result in closed form (R84).
-/

namespace Sys2Proof.Machine

/-- A command whose pseudocode ends normally completes (R161). -/
theorem exec_of_ok (i : Instr) {s t : State} (h : Ready s) (hb : bodyOf i (started s) = .ok () t) :
    exec i s = .next (finished t) := by
  rw [exec_eq]
  exact runCommand_of_ok h hb

/-- A command whose pseudocode raises aborts (R162). -/
theorem exec_of_abort (i : Instr) {s t : State} (h : Ready s) (hb : bodyOf i (started s) = .abort t) :
    exec i s = .next t := by
  rw [exec_eq]
  exact runCommand_of_abort h hb

/-- All that a command can do that starts. -/
theorem exec_cases {i : Instr} {s t : State} (hr : Ready s) (h : exec i s = .next t) :
    (∃ u, bodyOf i (started s) = .ok () u ∧ t = finished u) ∨ bodyOf i (started s) = .abort t := by
  rw [exec_eq] at h
  obtain ⟨hi, -⟩ | ⟨-, h⟩ := runCommand_cases h
  · rw [Ready.not_ignores hr] at hi
    cases hi
  · exact h

/-! ## COUNT -/

theorem countsOf_getElem (bs : List Byte) (sym : Nat) (h : sym < 256) :
    (countsOf bs)[sym] = BitVec.ofNat 32 (bs.count (BitVec.ofNat 8 sym)) := by
  rw [countsOf, Vector.getElem_ofFn]

theorem counted_dropCounts (bs : List Byte) (s : State) :
    counted bs (dropCounts s) =
      { s with freq := countsOf bs, countTotal := BitVec.ofNat 32 bs.length,
               inPos := s.inPos + BitVec.ofNat 64 (8 * bs.length) } := by
  have hf : (counted bs (dropCounts s)).freq = countsOf bs := by
    apply Vector.ext
    intro i hi
    rw [counted_freq _ _ _ hi, countsOf_getElem _ _ hi, dropCounts_freq, Vector.getElem_replicate, BitVec.zero_add]
  rw [counted_eq, hf]
  simp [dropCounts]

/-- A number below `n` is found once among those below `n`. -/
theorem sum_range_eq_one {n k : Nat} (h : k < n) : ((List.range n).map fun sym => if sym = k then 1 else 0).sum = 1 := by
  induction n with
  | zero => omega
  | succ n ih =>
    rw [List.range_succ, List.map_append, List.sum_append]
    by_cases hk : k = n
    · subst hk
      have h0 : ∀ sym ∈ List.range k, (if sym = k then 1 else 0) = 0 := by
        intro sym hs
        have : sym < k := by simpa using hs
        rw [if_neg (by omega)]
      rw [List.map_congr_left h0]
      simp
    · rw [ih (by omega)]
      simp [Ne.symm hk]

/-- Every byte is counted once, by the number of values that a byte may have (R84). -/
theorem sum_counts_below (n : Nat) (hn : n = 256) (bs : List Byte) :
    ((List.range n).map fun sym => bs.count (BitVec.ofNat 8 sym)).sum = bs.length := by
  induction bs with
  | nil => simp
  | cons b bs ih =>
    have hstep : ∀ sym ∈ List.range n,
        (b :: bs).count (BitVec.ofNat 8 sym) = bs.count (BitVec.ofNat 8 sym) + if sym = b.toNat then 1 else 0 := by
      intro sym hs
      have hs' : sym < n := by simpa using hs
      rw [List.count_cons]
      congr 1
      by_cases h : sym = b.toNat
      · simp [h]
      · have hne : b ≠ BitVec.ofNat 8 sym := by
          rintro rfl
          rw [BitVec.toNat_ofNat, Nat.mod_eq_of_lt (by omega)] at h
          exact h rfl
        simp [h, hne]
    rw [List.map_congr_left hstep, List.sum_map_add, ih, List.length_cons, sum_range_eq_one (by have := b.isLt; omega)]

/-- Every byte is counted once (R84). -/
theorem sum_counts (bs : List Byte) : ((List.range 256).map fun sym => bs.count (BitVec.ofNat 8 sym)).sum = bs.length :=
  sum_counts_below 256 rfl bs

@[simp] theorem usedSymbols_started (s : State) : usedSymbols (started s) = usedSymbols s := usedSymbols_congr rfl
@[simp] theorem totalCount_started (s : State) : totalCount (started s) = totalCount s := totalCount_congr rfl
@[simp] theorem countOf_started (s : State) : countOf (started s) = countOf s := countOf_congr rfl

theorem count_lt (bs : List Byte) (hl : bs.length ≤ Config.countMax) (b : Byte) : bs.count b < 2 ^ 32 := by
  have := List.count_le_length (a := b) (l := bs)
  rw [Config.countMax] at hl
  omega

/-- What FREQ holds after a COUNT of the bytes listed. -/
theorem countOf_of_countsOf {s : State} {bs : List Byte} (hf : s.freq = countsOf bs) (hl : bs.length ≤ Config.countMax)
    {sym : Nat} (hs : sym < 256) : countOf s sym = bs.count (BitVec.ofNat 8 sym) := by
  rw [countOf, freqAt_of_lt hs]
  simp only [hf, countsOf_getElem _ _ hs, BitVec.toNat_ofNat]
  exact Nat.mod_eq_of_lt (count_lt bs hl _)

/-- The counts of the bytes and the 1 of the end-of-stream symbol (R94). -/
theorem totalCount_of_countsOf {s : State} {bs : List Byte} (hf : s.freq = countsOf bs)
    (hl : bs.length ≤ Config.countMax) : totalCount s = bs.length + 1 := by
  have hn : Config.nsym = 256 + 1 := rfl
  rw [totalCount, hn, List.range_succ, List.map_append, List.sum_append]
  have h1 : ∀ sym ∈ List.range 256, countOf s sym = bs.count (BitVec.ofNat 8 sym) := fun sym hs =>
    countOf_of_countsOf hf hl (by simpa using hs)
  rw [List.map_congr_left h1, sum_counts]
  rfl

/-- COUNT of whole bytes (R80, R81, R84). -/
theorem countBody_closed {s : State} {bs : List Byte} (hp : PortOk s) (hr : remaining s = bytesToBits bs)
    (hl : bs.length ≤ Config.countMax) :
    countBody s = .ok ()
      { s with freq := countsOf bs, countTotal := BitVec.ofNat 32 bs.length,
               inPos := s.inPos + BitVec.ofNat 64 (8 * bs.length) } := by
  have hr' : remaining s = bytesToBits bs ++ [] := by rw [List.append_nil, hr]
  have h0 : bitsLeft (counted bs (dropCounts s)) = 0 := by
    obtain ⟨-, hx⟩ := counted_portOk (s := dropCounts s) (rest := []) (hp.congr rfl rfl) hr'
    rw [← length_remaining, hx]
    rfl
  rw [countBody_bytes bs [] s hp hr' (by simp) hl, countEnd, if_pos h0, counted_dropCounts]

/-- COUNT of whole bytes and a partial one (R82). -/
theorem countBody_closed_partial {s : State} {bs : List Byte} {tail : Bits} (hp : PortOk s)
    (hr : remaining s = bytesToBits bs ++ tail) (h0 : tail ≠ []) (h8 : tail.length < 8) (hl : bs.length ≤ Config.countMax) :
    countBody s = raise (opcode .count) .readExhausted 0#8 tail.length
      { s with freq := countsOf bs, countTotal := BitVec.ofNat 32 bs.length,
               inPos := s.inPos + BitVec.ofNat 64 (8 * bs.length) } := by
  have hb : bitsLeft (counted bs (dropCounts s)) = tail.length := by
    obtain ⟨-, hx⟩ := counted_portOk (s := dropCounts s) (rest := tail) (hp.congr rfl rfl) hr
    rw [← length_remaining, hx]
  rw [countBody_bytes bs tail s hp hr h8 hl, countEnd, if_neg (by rw [hb]; simpa using h0), hb, counted_dropCounts]

/-- COUNT where a byte follows the COUNT_MAX-th (R83). -/
theorem countBody_closed_overflow {s : State} {bs : List Byte} {r : Byte} {rest : Bits} (hp : PortOk s)
    (hr : remaining s = bytesToBits bs ++ (bytesToBits [r] ++ rest)) (hl : bs.length = Config.countMax) :
    countBody s = raise (opcode .count) .countOverflow 0#8 r.toNat
      { s with freq := countsOf bs, countTotal := BitVec.ofNat 32 bs.length,
               inPos := s.inPos + BitVec.ofNat 64 (8 * (bs.length + 1)) } := by
  have hr' : remaining s = bytesToBits bs ++ (spell 8 r.toNat ++ rest) := by
    rw [hr, bytesToBits_cons, bytesToBits_nil, List.append_nil]
  rw [countBody_overflow bs r rest s hp hr' hl, counted_dropCounts, advance]
  simp only [BitVec.add_assoc, ← BitVec.ofNat_add, Nat.mul_add, Nat.mul_one]

/-- A sum over bytes is a sum over byte values, each as often as it occurs. -/
theorem sum_over_bytes (f : Nat → Nat) (n : Nat) (hn : n = 256) (bs : List Byte) :
    ((List.range n).map fun sym => bs.count (BitVec.ofNat 8 sym) * f sym).sum = (bs.map fun b => f b.toNat).sum := by
  induction bs with
  | nil => simp
  | cons b bs ih =>
    have hstep : ∀ sym ∈ List.range n, (b :: bs).count (BitVec.ofNat 8 sym) * f sym =
        bs.count (BitVec.ofNat 8 sym) * f sym + (if sym = b.toNat then 1 else 0) * f b.toNat := by
      intro sym hs
      have hs' : sym < n := by simpa using hs
      rw [List.count_cons]
      by_cases h : sym = b.toNat
      · simp [h, Nat.add_mul]
      · have hne : b ≠ BitVec.ofNat 8 sym := by
          rintro rfl
          rw [BitVec.toNat_ofNat, Nat.mod_eq_of_lt (by omega)] at h
          exact h rfl
        simp [h, hne]
    rw [List.map_congr_left hstep, List.sum_map_add, ih, List.sum_map_mul_right,
      sum_range_eq_one (by have := b.isLt; omega)]
    simp [Nat.add_comm]

end Sys2Proof.Machine
end

