-- ==== Sys2Proof/Laws/Outcomes.lean ====
section
/-!
SUPPORT. How each command's pseudocode can end: with the status registers as it found them, or with one of its own errors
(R161 to R164); and the composite commands as the sequence of their steps (R146).
-/

namespace Sys2Proof.Machine

/-- BUSY, DONE, ERR, ERR_CODE and ERR_INFO. -/
def statusFields (s : State) : Bool × Bool × Bool × BitVec 8 × BitVec 8 × BitVec 8 × Word :=
  (s.busy, s.done, s.err, s.errCode, s.errDetail, s.errStep, s.errInfo)

/-- The state of a command that has raised one of the errors listed: code, DETAIL and STEP (R162). -/
def AbortsWith (l : List (BitVec 8 × BitVec 8 × BitVec 8)) (u : State) : Prop :=
  u.busy = false ∧ u.done = false ∧ u.err = true ∧ (u.errCode, u.errDetail, u.errStep) ∈ l

theorem AbortsWith.mono {l m : List (BitVec 8 × BitVec 8 × BitVec 8)} {u : State} (h : AbortsWith l u)
    (hlm : ∀ x ∈ l, x ∈ m) : AbortsWith m u := ⟨h.1, h.2.1, h.2.2.1, hlm _ h.2.2.2⟩

theorem abortsWith_raised {l : List (BitVec 8 × BitVec 8 × BitVec 8)} {step : BitVec 8} {e : Err} {d : BitVec 8}
    (h : (errCodeOf e, d, step) ∈ l) (i : Nat) (s : State) : AbortsWith l (raised step e d i s) := ⟨rfl, rfl, rfl, h⟩

/-- The pseudocode goes on with the status registers unchanged, or it ends with one of the errors listed. -/
abbrev EndsLike {α : Type} (s : State) (l : List (BitVec 8 × BitVec 8 × BitVec 8)) (r : Run α) : Prop :=
  r.Post (fun u => statusFields u = statusFields s) (AbortsWith l)

theorem countBody_status (s : State) : EndsLike s (errorsOf .count) (countBody s) := by
  refine countLoop_all (P := fun u => statusFields u = statusFields s) (fun _ h _ => h) (fun _ _ h => h) ?_ _ _ rfl
  intro e he i u _
  refine abortsWith_raised ?_ i u
  revert e
  decide

theorem buildBody_status (s : State) : EndsLike s (errorsOf .build) (buildBody s) := by
  rcases buildBody_spec s with ⟨u, t, h1, -, h3, -⟩ | ⟨u, a, b, h1, -, h3, -⟩ <;> rw [h1]
  · show statusFields u = statusFields s
    rw [h3]
    rfl
  · exact abortsWith_raised (by decide) _ _

theorem genTableBody_status (s : State) : EndsLike s (errorsOf .genTable) (genTableBody s) := by
  unfold genTableBody
  split
  · exact Run.Post.andThen (P := fun u => statusFields u = statusFields s)
      (walkNode_all (P := fun u => statusFields u = statusFields s) (fun _ _ _ h => h) _ _ _ _ _ rfl) fun _ h => h
  · exact abortsWith_raised (by decide) _ _

theorem serializeBody_status (s : State) : EndsLike s (errorsOf .serialize) (serializeBody s) := by
  unfold serializeBody
  split
  · exact serNode_all (P := fun u => statusFields u = statusFields s) (fun _ _ h => h) _ _ _ rfl
  · exact abortsWith_raised (by decide) _ _

theorem encodeBody_status (s : State) : EndsLike s (errorsOf .encode) (encodeBody s) := by
  unfold encodeBody
  split
  · refine encodeLoop_all (P := fun u => statusFields u = statusFields s) (fun _ h _ => h) (fun _ _ h => h) ?_ _ _ rfl
    intro e he i u _
    refine abortsWith_raised ?_ i u
    revert e
    decide
  · exact abortsWith_raised (by decide) _ _

theorem checkMagicBody_status (s : State) : EndsLike s (errorsOf .checkMagic) (checkMagicBody s) := by
  unfold checkMagicBody
  simp only
  split
  · exact abortsWith_raised (by decide) _ _
  · next v s1 h =>
    obtain ⟨-, -, rfl⟩ := readBits_eq_some_iff.mp h
    split
    · exact abortsWith_raised (by decide) _ _
    · rfl

theorem deserializeBody_status (s : State) : EndsLike s (errorsOf .deserialize) (deserializeBody s) := by
  refine Run.Post.bind (P := fun u => statusFields u = statusFields s)
    (desNode_all (P := fun u => statusFields u = statusFields s) (fun _ _ h _ => h) (fun _ _ h => h) ?_
      (fun _ _ _ h => h) _ _ _ rfl) fun _ _ h => h
  intro e he i u _
  refine abortsWith_raised ?_ i u
  revert e
  decide

/-- The errors of DECODE when there is a tree. -/
abbrev decodeTreeErrors : List (BitVec 8 × BitVec 8 × BitVec 8) := [(0x15#8, 0#8, 0x0A#8), (0x03#8, 0#8, 0x0A#8)]

theorem decodeBody_status_of_tree {s : State} (hv : s.treeValid = true) : EndsLike s decodeTreeErrors (decodeBody s) := by
  rw [decodeBody, if_pos hv]
  split
  · trivial
  · split
    · split
      · rfl
      · exact abortsWith_raised (by decide) _ _
    · refine decodeLoop_all (P := fun u => statusFields u = statusFields s) (fun _ h _ => h) (fun _ _ h => h) ?_ _ _ _ _ rfl
      intro e he i u _
      refine abortsWith_raised ?_ i u
      revert e
      decide

theorem decodeBody_status (s : State) : EndsLike s (errorsOf .decode) (decodeBody s) := by
  by_cases hv : s.treeValid = true
  · exact Run.Post.mono (decodeBody_status_of_tree hv) (fun _ h => h) fun u h => h.mono (by simp [errorsOf])
  · rw [decodeBody, if_neg hv]
    exact abortsWith_raised (by decide) _ _

/-- A command that runs other commands (R144, R145). -/
def isComposite : Instr → Bool
  | .compress | .decompress => true
  | .nop | .clear | .count | .build | .genTable | .writeMagic | .serialize | .encode | .checkMagic | .deserialize | .decode
  | .rewindIn | .flushOut => false

theorem bodyOf_status {i : Instr} (hi : isComposite i = false) (s : State) : EndsLike s (errorsOf i) (bodyOf i s) := by
  cases i with
  | nop => rfl
  | clear => rfl
  | count => exact countBody_status s
  | build => exact buildBody_status s
  | genTable => exact genTableBody_status s
  | writeMagic => rfl
  | serialize => exact serializeBody_status s
  | encode => exact encodeBody_status s
  | checkMagic => exact checkMagicBody_status s
  | deserialize => exact deserializeBody_status s
  | decode => exact decodeBody_status s
  | rewindIn => rfl
  | flushOut => rfl
  | compress => cases hi
  | decompress => cases hi

/-! ## Sequences of commands -/

/-- A command that starts from where a command has finished finds the state as that one left it. -/
theorem started_finished {s u : State} (h : statusFields u = statusFields (started s)) : started (finished u) = u := by
  simp only [statusFields, Prod.mk.injEq] at h
  obtain ⟨h1, h2, -, h4, h5, h6, h7⟩ := h
  cases u
  simp_all [started, cleared, finished]

theorem ready_finished {s u : State} (hr : Ready s) (h : statusFields u = statusFields (started s)) :
    Ready (finished u) := by
  simp only [statusFields, Prod.mk.injEq] at h
  exact ⟨rfl, h.2.2.1.trans hr.2⟩

/-- The pseudocode of the commands listed, one after the other. -/
def runSeq : List Instr → State → Run Unit
  | [], s => .ok () s
  | i :: is, s => (bodyOf i s).andThen (runSeq is)

@[simp] theorem runSeq_nil (s : State) : runSeq [] s = .ok () s := rfl
@[simp] theorem runSeq_cons (i : Instr) (is : List Instr) (s : State) :
    runSeq (i :: is) s = (bodyOf i s).andThen (runSeq is) := rfl

/-- Commands issued while ERR = 1 do nothing (R165). -/
theorem execSeq_of_err {s : State} (h : s.err = true) (is : List Instr) : execSeq is s = .next s := by
  induction is with
  | nil => rfl
  | cons i is ih =>
    have : exec i s = .next s := by
      rw [exec_eq]
      exact runCommand_ignored (by simp [ignoresCommands, h])
    simp only [execSeq, this, ih]

/-- Issuing primitive commands one after the other is one command with their pseudocode in sequence (R146). -/
theorem execSeq_eq {s : State} (hr : Ready s) {i : Instr} {is : List Instr} (hi : ∀ j ∈ i :: is, isComposite j = false) :
    execSeq (i :: is) s = runCommand (runSeq (i :: is)) s := by
  induction is generalizing i s with
  | nil =>
    rw [execSeq, exec_eq, runCommand_ready hr, runCommand_ready hr, runSeq_cons]
    cases bodyOf i (started s) with
    | ok a u => rfl
    | abort u => rfl
    | stuck f => rfl
  | cons j js ih =>
    have hst := bodyOf_status (hi i (by simp)) (started s)
    rw [execSeq, exec_eq, runCommand_ready hr, runCommand_ready hr, runSeq_cons]
    cases hb : bodyOf i (started s) with
    | ok a u =>
      rw [hb] at hst
      have hr' := ready_finished hr hst
      show execSeq (j :: js) (finished u) = _
      rw [ih hr' fun k hk => hi k (List.mem_cons_of_mem _ hk), runCommand_ready hr', started_finished hst]
      rfl
    | abort u =>
      rw [hb] at hst
      exact execSeq_of_err hst.2.2.1 _
    | stuck f => rfl

theorem andThen_ok (r : Run Unit) : (r.andThen fun s => .ok () s) = r := by
  cases r with
  | ok a s => rfl
  | abort s => rfl
  | stuck f => rfl

/-- The steps of COMPRESS (R144). -/
abbrev compressSteps : List Instr :=
  [.rewindIn, .count, .build, .genTable, .writeMagic, .serialize, .rewindIn, .encode, .flushOut]

/-- The steps of DECOMPRESS (R145). -/
abbrev decompressSteps : List Instr := [.rewindIn, .checkMagic, .deserialize, .decode]

theorem compressBody_eq : compressBody = runSeq compressSteps := by
  funext s
  rfl

theorem decompressBody_eq : decompressBody = runSeq decompressSteps := by
  funext s
  have h : runSeq [.decode] = decodeBody := funext fun u => andThen_ok (decodeBody u)
  show _ = (rewindInBody s).andThen fun s1 => (checkMagicBody s1).andThen fun s2 =>
    (deserializeBody s2).andThen (runSeq [.decode])
  rw [h]
  rfl

/-- A sequence of primitive commands ends like one of them. -/
theorem runSeq_status {is : List Instr} (hi : ∀ j ∈ is, isComposite j = false) (s : State) :
    EndsLike s (is.flatMap errorsOf) (runSeq is s) := by
  induction is generalizing s with
  | nil => rfl
  | cons i is ih =>
    rw [runSeq_cons]
    refine Run.Post.andThen (P := fun u => statusFields u = statusFields s) ?_ fun u hu => ?_
    · exact (bodyOf_status (hi i (by simp)) s).mono (fun _ h => h) fun u h => h.mono (by simp; tauto)
    · refine (ih (fun j hj => hi j (List.mem_cons_of_mem _ hj)) u).mono (fun v hv => hv.trans hu) fun v hv => hv.mono ?_
      simp
      tauto

end Sys2Proof.Machine
end

