-- ==== Sys2Proof/Laws/Composite.lean ====
section
/-!
SUPPORT. COMPRESS and DECOMPRESS in closed form: what their pseudocode leaves on the inputs they are made for (R79, R144, R145).
-/

namespace Sys2Proof.Machine

/-! ## GEN_TABLE and DECODE once more -/

theorem codes_eq_tableOf {s : State} {t : CodeTree} (h : TableIs s t) : s.codes = tableOf t := by
  apply Vector.ext
  intro i hi
  have := h i hi
  rw [codeAt, Vector.getElem?_eq_getElem hi, Option.getD_some] at this
  rw [this, tableOf, Vector.getElem_ofFn]

theorem codeAt_tableOf {s : State} {t : CodeTree} (h : s.codes = tableOf t) : TableIs s t := by
  intro sym hs
  have hs' : sym < 257 := hs
  rw [codeAt, h, Vector.getElem?_eq_getElem hs', Option.getD_some, tableOf, Vector.getElem_ofFn]

/-- GEN_TABLE replaces the code table by that of the tree (R120, R121). -/
theorem genTableBody_closed {s : State} {t : CodeTree} (hv : s.treeValid = true) (h : TreeIs s t) :
    genTableBody s = .ok () { s with codes := tableOf t, tableValid := true } := by
  rw [genTableBody_of_tree hv h, codes_eq_tableOf_store h]
where
  codes_eq_tableOf_store {s : State} {t : CodeTree} (h : TreeIs s t) :
      storeLeaves 0 0 t.leaves { s with codes := Vector.replicate 257 Code.none } = { s with codes := tableOf t } := by
    rw [storeLeaves_eq, codes_eq_tableOf (tableIs_storeLeaves h)]

theorem pathsOf_leaf (i sym : Nat) {bs : List Byte} (h : ∀ b ∈ bs, b.toNat ∈ (CodeTree.leaf i sym).symbols) :
    pathsOf (.leaf i sym) bs = [] := by
  rw [pathsOf, List.flatMap_eq_nil_iff]
  intro b hb
  have := h b hb
  simp only [CodeTree.symbols, CodeTree.leaves, List.map_cons, List.map_nil, List.mem_singleton] at this
  simp [CodeTree.path, CodeTree.leaves, this]

/-- DECODE of the codes of bytes and the code of EOF, whatever the tree (R130, R131, R135). -/
theorem decodeBody_reads {t : CodeTree} {bs : List Byte} {e rest : Bits} {s : State} (hv : s.treeValid = true)
    (h : TreeIs s t) (hb : ∀ b ∈ bs, b.toNat ∈ t.symbols) (he : t.path Config.eofSym = some e) (hp : PortOk s)
    (hr : remaining s = pathsOf t bs ++ (e ++ rest)) :
    decodeBody s = .ok () (writeSeq (bytesToBits bs) (advance ((pathsOf t bs).length + e.length) s)) := by
  cases t with
  | node i l r => exact decodeBody_stream hv h hb he hp hr
  | leaf i sym =>
    have hm := path_mem he
    simp only [CodeTree.leaves, List.mem_singleton, Prod.mk.injEq] at hm
    obtain ⟨rfl, rfl⟩ := hm
    have hbs : bs = [] := by
      cases bs with
      | nil => rfl
      | cons b bs =>
        have h1 := hb b (by simp)
        have h2 := b.isLt
        simp only [CodeTree.symbols, CodeTree.leaves, List.map_cons, List.map_nil, List.mem_singleton] at h1
        have : Config.eofSym = 256 := rfl
        omega
    subst hbs
    obtain ⟨n, h1, h2, h3⟩ := h.holds
    have hroot : s.root.toNat = i := h.index.symm
    rw [decodeBody, if_pos hv, hroot, h1]
    simp only [h2, h3, if_true]
    congr 1
    simp [pathsOf, advance, writeSeq]

/-! ## COMPRESS -/

/-- Where every byte has its path in the code table, the codes of bytes are their paths (R79, R123). -/
theorem codesOf_eq_pathsOf {s : State} {t : CodeTree} (ht : TreeIs s t) (h : TableIs s t) {bs : List Byte}
    (hb : ∀ b ∈ bs, b.toNat ∈ t.symbols) : codesOf s bs = pathsOf t bs := by
  rw [codesOf, pathsOf]
  refine List.flatMap_congr fun b hbb => ?_
  obtain ⟨p, hp⟩ := Option.isSome_iff_exists.mp (path_isSome_iff.mpr (hb b hbb))
  rw [hp, (h.code ht (path_mem hp)).2, Option.getD_some]

/-- A byte that occurs has a leaf (R92). -/
theorem mem_usedSymbols_of_countsOf {s : State} {bs : List Byte} (hf : s.freq = countsOf bs)
    (hl : bs.length ≤ Config.countMax) {b : Byte} (hb : b ∈ bs) : b.toNat ∈ usedSymbols s := by
  have hlt := b.isLt
  rw [usedSymbols, List.mem_filter, bne_iff_ne]
  refine ⟨by simp [Config.nsym]; omega, fun h0 => ?_⟩
  have hc := countOf_of_countsOf hf hl hlt
  rw [countOf, h0, BitVec.ofNat_toNat, BitVec.setWidth_eq] at hc
  have := List.count_pos_iff.mpr hb
  simp only [BitVec.toNat_ofNat, Nat.zero_mod] at hc
  omega

/-- What COMPRESS leaves when it completes on the bytes listed, with the tree `t` that BUILD made. -/
def compressed (bs : List Byte) (t : CodeTree) (e : Bits) (u s : State) : State :=
  { s with
    freq := countsOf bs, countTotal := BitVec.ofNat 32 bs.length, inPos := BitVec.ofNat 64 (8 * bs.length)
    nodes := u.nodes, nodeCount := u.nodeCount, root := u.root, treeValid := true, codes := tableOf t, tableValid := true
    outBits := (flushed (s.outBits ++ (magicBits ++ (t.header ++ (pathsOf t bs ++ e))))) }
where
  flushed (b : Bits) : Bits := b ++ List.replicate (padLength b.length) Config.padBit

/-- COMPRESS of bytes (R144, R79): the five fields of the format, in order. -/
theorem compressBody_closed {s : State} {bs : List Byte} (hin : s.inBits = bytesToBits bs)
    (hl : bs.length ≤ Config.countMax) :
    ∃ u t e, compressBody s = .ok () u ∧ u = compressed bs t e u s ∧ TreeIs u t ∧ t.symbols.Perm (usedSymbols u) ∧
      (∀ b ∈ bs, b.toNat ∈ t.symbols) ∧ t.path Config.eofSym = some e := by
  have hlen : s.inBits.length = 8 * bs.length := by rw [hin, length_bytesToBits]
  have hport : s.inBits.length < Config.portLimit := by
    rw [hlen]
    simp only [Config.countMax, Config.portLimit] at hl ⊢
    omega
  have hp0 : ∀ u : State, u.inBits = s.inBits → u.inPos = 0#64 → PortOk u ∧ remaining u = bytesToBits bs := by
    intro u h1 h2
    refine ⟨⟨by rw [h1]; exact hport, by rw [h2]; simp⟩, ?_⟩
    rw [remaining, h1, h2, hin]
    rfl
  obtain ⟨hp1, hr1⟩ := hp0 { s with inPos := 0#64 } rfl rfl
  have hcount := countBody_closed hp1 hr1 hl
  simp only [BitVec.zero_add] at hcount
  generalize hs2 : ({ s with
      freq := countsOf bs, countTotal := BitVec.ofNat 32 bs.length
      inPos := BitVec.ofNat 64 (8 * bs.length) } : State) = s2 at hcount
  have hf2 : s2.freq = countsOf bs := by rw [← hs2]
  have htot := totalCount_of_countsOf hf2 hl
  rcases buildBody_spec s2 with ⟨u, t, e1, -, e2, -, e4, -, -, -, -, e9, -, -⟩ | ⟨u, a, b, -, hbad, -⟩
  · have hsub : ∀ b ∈ bs, b.toNat ∈ t.symbols := fun b hb => e9.mem_iff.mpr (mem_usedSymbols_of_countsOf hf2 hl hb)
    have heof : Config.eofSym ∈ t.symbols := e9.mem_iff.mpr (eofSym_mem_usedSymbols s2)
    obtain ⟨e, he⟩ := Option.isSome_iff_exists.mp (path_isSome_iff.mpr heof)
    have hv : u.treeValid = true := by rw [e2]
    have hgen := genTableBody_closed hv e4
    have hser := serializeBody_of_tree (s := writeSeq magicBits { u with codes := tableOf t, tableValid := true }) hv
      (e4.congr rfl rfl rfl)
    generalize hs7 : ({ writeSeq t.header (writeSeq magicBits { u with codes := tableOf t, tableValid := true }) with
      inPos := 0#64 } : State) = s7
    have hin7 : s7.inBits = s.inBits := by rw [← hs7, writeSeq, writeSeq, e2, ← hs2]; rfl
    have hpos7 : s7.inPos = 0#64 := by rw [← hs7]
    have htree7 : TreeIs s7 t := by
      rw [← hs7]
      exact e4.congr rfl rfl rfl
    have hcodes7 : s7.codes = tableOf t := by rw [← hs7]; rfl
    have htable7 := codeAt_tableOf hcodes7
    obtain ⟨hp7, hr7⟩ := hp0 s7 hin7 hpos7
    have hve := htable7.code htree7 (path_mem he)
    have henc := encodeBody_bytes (s := s7) (by rw [← hs7]; rfl) hp7 hr7 (fun b hb => by
      obtain ⟨p, hp⟩ := Option.isSome_iff_exists.mp (path_isSome_iff.mpr (hsub b hb))
      exact (htable7.code htree7 (path_mem hp)).1) hve.1
    rw [codesOf_eq_pathsOf htree7 htable7 hsub, hve.2] at henc
    have hbody : compressBody s =
        flushOutBody (writeSeq (pathsOf t bs ++ e) (advance (8 * bs.length) s7)) := by
      rw [compressBody, rewindInBody, Run.andThen_ok, hcount, Run.andThen_ok, e1, Run.andThen_ok, hgen, Run.andThen_ok,
        writeMagicBody, Run.andThen_ok, writeBits_eq]
      simp only [magicBits] at hser hs7
      rw [hser, Run.andThen_ok, rewindInBody, Run.andThen_ok, hs7, henc, Run.andThen_ok]
    refine ⟨_, t, e, hbody, ?_, ?_, ?_, hsub, he⟩
    · have hout : (writeSeq (pathsOf t bs ++ e) (advance (8 * bs.length) s7)).outBits =
          s.outBits ++ (magicBits ++ (t.header ++ (pathsOf t bs ++ e))) := by
        rw [← hs7, writeSeq, advance, writeSeq, writeSeq, e2, ← hs2]
        simp [dropTree, List.append_assoc]
      rw [hout, compressed, compressed.flushed, writeSeq, hout]
      rw [← hs7, e2, ← hs2]
      simp [writeSeq, advance, dropTree]
    · refine htree7.congr rfl rfl rfl
    · have : usedSymbols (writeSeq (List.replicate (padLength (writeSeq (pathsOf t bs ++ e) (advance (8 * bs.length)
          s7)).outBits.length) Config.padBit) (writeSeq (pathsOf t bs ++ e) (advance (8 * bs.length) s7))) =
          usedSymbols s2 := by
        refine usedSymbols_congr ?_
        rw [← hs7, writeSeq, writeSeq, advance, writeSeq, writeSeq, e2]
        rfl
      rw [this]
      exact e9
  · rw [htot] at hbad
    simp only [Config.weightMax, Config.countMax] at hbad hl
    omega

/-! ## DECOMPRESS -/

/-- DECOMPRESS of the format (R145, R79), whatever follows the code of EOF. -/
theorem decompressBody_closed {s : State} {t : CodeTree} {bs : List Byte} {e rest : Bits}
    (hl : s.inBits.length < Config.portLimit)
    (hin : s.inBits = magicBits ++ (t.header ++ (pathsOf t bs ++ (e ++ rest))))
    (hs : ∀ sym ∈ t.symbols, sym ≤ Config.eofSym) (hn : t.symbols.Nodup) (hb : ∀ b ∈ bs, b.toNat ∈ t.symbols)
    (he : t.path Config.eofSym = some e) :
    ∃ u, decompressBody s = .ok () u ∧ TreeIs u (t.preorder 0) ∧
      u = { s with
        lastMagic := Config.magic
        inPos := BitVec.ofNat 64 (Config.magicW + t.header.length + (pathsOf t bs).length + e.length)
        nodes := u.nodes, nodeCount := BitVec.ofNat 10 t.indices.length, root := 0#10
        treeValid := true, tableValid := false, outBits := s.outBits ++ bytesToBits bs } := by
  have hp1 : PortOk { s with inPos := 0#64, lastMagic := 0#32 } := ⟨hl, by simp⟩
  have hr1 : remaining { s with inPos := 0#64, lastMagic := 0#32 } =
      magicBits ++ (t.header ++ (pathsOf t bs ++ (e ++ rest))) := by
    rw [remaining, hin]
    rfl
  have hread := readBits_of_append (n := Config.magicW) hr1 (by simp [magicBits])
  have hval : bitsValue magicBits = Config.magic.toNat := by
    rw [magicBits, bitsValue_spell]
    rfl
  have hr2 := remaining_advance_append (n := Config.magicW) hp1 hr1 (by simp [magicBits])
  have hp2 := hp1.advance_append (n := Config.magicW) hr1 (by simp [magicBits])
  generalize hs2 : ({ advance Config.magicW { s with inPos := 0#64, lastMagic := 0#32 } with
    lastMagic := Config.magic } : State) = s2
  have hcheck : checkMagicBody { s with inPos := 0#64 } = .ok () s2 := by
    rw [checkMagicBody, hread, hval]
    simp only [ne_eq, not_true, if_false]
    rw [← hs2]
    simp
  have hp2' : PortOk s2 := by
    rw [← hs2]
    exact hp2.congr rfl rfl
  have hr2' : remaining s2 = t.header ++ (pathsOf t bs ++ (e ++ rest)) := by
    rw [← hr2, ← hs2]
    rfl
  obtain ⟨u, N, d1, d2, -, d4⟩ := deserializeBody_header hp2' hr2' hs hn
  have hleaves : (t.preorder 0).leaves = t.leaves := CodeTree.leaves_preorder 0 t
  have hpath : ∀ x, (t.preorder 0).path x = t.path x := fun x => by rw [CodeTree.path, hleaves, CodeTree.path]
  have hpaths : pathsOf (t.preorder 0) bs = pathsOf t bs := by simp only [pathsOf, hpath]
  have hsyms : (t.preorder 0).symbols = t.symbols := by rw [CodeTree.symbols, hleaves, CodeTree.symbols]
  have hp3 : PortOk u := by
    have := hp2'.advance_append hr2' rfl
    exact this.congr (by rw [d2]; rfl) (by rw [d2]; rfl)
  have hr3 : remaining u = pathsOf (t.preorder 0) bs ++ (e ++ rest) := by
    rw [hpaths, ← remaining_advance_append hp2' hr2' rfl]
    exact remaining_congr (by rw [d2]; rfl) (by rw [d2]; rfl)
  have hdec := decodeBody_reads (s := u) (by rw [d2]) d4 (fun b h => by rw [hsyms]; exact hb b h)
    (by rw [hpath]; exact he) hp3 hr3
  refine ⟨writeSeq (bytesToBits bs) (advance ((pathsOf (t.preorder 0) bs).length + e.length) u), ?_, d4.congr rfl rfl rfl, ?_⟩
  · rw [decompressBody, rewindInBody, Run.andThen_ok, hcheck, Run.andThen_ok, d1, Run.andThen_ok, hdec]
  · rw [hpaths]
    rw [d2, ← hs2]
    simp [writeSeq, advance, ← BitVec.ofNat_add, Nat.add_assoc]

theorem flushed_aligned (b : Bits) : (compressed.flushed b).length % 8 = 0 := by
  simp only [compressed.flushed, List.length_append, List.length_replicate]
  exact padLength_aligns _

end Sys2Proof.Machine
end

