-- ==== Sys2Proof/Laws/Huffman.lean ====
section
/-!
SUPPORT. Why merging the two of least weight is optimal (R98): the sum that every prefix-free code keeps to, the exchange of code
lengths, and the weighted path length as a sum over the internal nodes.
-/

namespace Sys2Proof.Machine

/-! ## The sum of a prefix-free code -/

/-- `2^-l`, summed. -/
def kraft (ls : List Nat) : ℚ := (ls.map fun l => (1 / 2 : ℚ) ^ l).sum

@[simp] theorem kraft_nil : kraft [] = 0 := rfl
@[simp] theorem kraft_cons (l : Nat) (ls : List Nat) : kraft (l :: ls) = (1 / 2) ^ l + kraft ls := by simp [kraft]

theorem kraft_perm {ls ms : List Nat} (h : ls.Perm ms) : kraft ls = kraft ms := (h.map _).sum_eq

theorem kraft_nonneg (ls : List Nat) : 0 ≤ kraft ls := by
  induction ls with
  | nil => exact le_rfl
  | cons l ls ih =>
    rw [kraft_cons]
    positivity

/-- The words behind a first bit. -/
def behind (b : Bool) (cs : List Bits) : List Bits :=
  cs.filterMap fun c =>
    match c with
    | [] => none
    | x :: q => if x = b then some q else none

theorem mem_behind {b : Bool} {cs : List Bits} {q : Bits} : q ∈ behind b cs ↔ b :: q ∈ cs := by
  rw [behind, List.mem_filterMap]
  constructor
  · rintro ⟨c, hc, h⟩
    cases c with
    | nil => cases h
    | cons x r =>
      simp only [Option.ite_none_right_eq_some, Option.some.injEq] at h
      obtain ⟨rfl, rfl⟩ := h
      exact hc
  · intro h
    exact ⟨_, h, by simp⟩

theorem kraft_behind {cs : List Bits} (h : [] ∉ cs) :
    kraft (cs.map List.length) =
      1 / 2 * (kraft ((behind false cs).map List.length) + kraft ((behind true cs).map List.length)) := by
  induction cs with
  | nil => simp [behind]
  | cons c cs ih =>
    rw [List.mem_cons, not_or] at h
    have ih := ih h.2
    cases c with
    | nil => exact absurd rfl h.1
    | cons x q =>
      rw [List.map_cons, kraft_cons, ih]
      cases x <;> simp [behind, pow_succ] <;> ring

/-- No word of the list is a prefix of another. -/
abbrev PrefixFree (cs : List Bits) : Prop := cs.Pairwise fun c d => ¬ c <+: d ∧ ¬ d <+: c

theorem PrefixFree.behind {cs : List Bits} (h : PrefixFree cs) (b : Bool) : PrefixFree (behind b cs) := by
  rw [PrefixFree, Machine.behind, List.pairwise_filterMap]
  refine h.imp fun {c d} hcd q hq r hr => ?_
  cases c with
  | nil => cases hq
  | cons x c =>
    cases d with
    | nil => cases hr
    | cons y d =>
      simp only [Option.ite_none_right_eq_some, Option.some.injEq] at hq hr
      obtain ⟨rfl, rfl⟩ := hq
      obtain ⟨rfl, rfl⟩ := hr
      simpa [List.cons_prefix_cons] using hcd

/-- Kraft's inequality. -/
theorem kraft_le_one (m : Nat) {cs : List Bits} (hm : ∀ c ∈ cs, c.length ≤ m) (h : PrefixFree cs) :
    kraft (cs.map List.length) ≤ 1 := by
  induction m generalizing cs with
  | zero =>
    cases cs with
    | nil => simp
    | cons c cs =>
      have hc : c = [] := List.length_eq_zero_iff.mp (Nat.le_zero.mp (hm c (by simp)))
      cases cs with
      | nil => simp [hc]
      | cons d ds =>
        exact absurd (by rw [hc]; exact List.nil_prefix) ((List.pairwise_cons.mp h).1 d (by simp)).1
  | succ m ih =>
    by_cases he : [] ∈ cs
    · obtain ⟨l1, l2, rfl⟩ := List.append_of_mem he
      have h' := List.pairwise_append.mp h
      have h2 : l2 = [] := by
        cases l2 with
        | nil => rfl
        | cons d ds => exact absurd List.nil_prefix ((List.pairwise_cons.mp h'.2.1).1 d (by simp)).1
      have h1 : l1 = [] := by
        cases l1 with
        | nil => rfl
        | cons d ds => exact absurd List.nil_prefix (h'.2.2 d (by simp) [] (by simp)).2
      subst h1 h2
      simp
    · rw [kraft_behind he]
      have hb : ∀ b, kraft ((behind b cs).map List.length) ≤ 1 := by
        intro b
        refine ih (fun q hq => ?_) (h.behind b)
        have := hm _ (mem_behind.mp hq)
        simpa using this
      linarith [hb false, hb true]

/-! ## The exchange -/

/-- A tree with the length that a code gives it. -/
abbrev Sized := CodeTree × Nat

/-- What the trees cost inside, and what the lengths given to them add. -/
def cost (wt : Nat → Nat) (ps : List Sized) : Nat := (ps.map fun p => p.1.pathLength wt + p.1.weight wt * p.2).sum

@[simp] theorem cost_cons (wt : Nat → Nat) (p : Sized) (ps : List Sized) :
    cost wt (p :: ps) = p.1.pathLength wt + p.1.weight wt * p.2 + cost wt ps := by simp [cost]

theorem cost_perm {wt : Nat → Nat} {ps qs : List Sized} (h : ps.Perm qs) : cost wt ps = cost wt qs := (h.map _).sum_eq

/-- The tree of least weight can take the greatest length, at no greater cost. -/
theorem exists_longest (wt : Nat → Nat) (a : CodeTree) (la : Nat) (qs : List Sized)
    (h : ∀ q ∈ qs, a.weight wt ≤ q.1.weight wt) :
    ∃ l qs', qs'.map Prod.fst = qs.map Prod.fst ∧ (l :: qs'.map Prod.snd).Perm (la :: qs.map Prod.snd) ∧
      cost wt ((a, l) :: qs') ≤ cost wt ((a, la) :: qs) ∧ ∀ q ∈ qs', q.2 ≤ l := by
  induction qs with
  | nil => exact ⟨la, [], rfl, List.Perm.refl _, le_rfl, by simp⟩
  | cons q qs ih =>
    obtain ⟨l, qs', h1, h2, h3, h4⟩ := ih fun x hx => h x (List.mem_cons_of_mem _ hx)
    have hq := h q (by simp)
    by_cases hl : q.2 ≤ l
    · refine ⟨l, q :: qs', by simp [h1], ?_, ?_, ?_⟩
      · exact (List.Perm.swap _ _ _).trans ((h2.cons _).trans (List.Perm.swap _ _ _))
      · simp only [cost_cons] at h3 ⊢
        omega
      · simpa [hl] using h4
    · refine ⟨q.2, (q.1, l) :: qs', by simp [h1], ?_, ?_, ?_⟩
      · exact (h2.cons _).trans (List.Perm.swap _ _ _)
      · have hx : a.weight wt * q.2 + q.1.weight wt * l ≤ a.weight wt * l + q.1.weight wt * q.2 := by
          obtain ⟨d, hd⟩ := Nat.exists_eq_add_of_le hq
          obtain ⟨e, he⟩ := Nat.exists_eq_add_of_le (Nat.le_of_not_le hl)
          rw [hd, he]
          have : 0 ≤ d * e := Nat.zero_le _
          ring_nf
          nlinarith
        simp only [cost_cons] at h3 ⊢
        omega
      · intro x hx
        rcases List.mem_cons.mp hx with rfl | hx
        · simp only
          omega
        · have := h4 x hx
          omega

/-- With a common denominator. -/
theorem kraft_mul_two_pow {m : Nat} {ls : List Nat} (h : ∀ l ∈ ls, l ≤ m) : ∃ k : Nat, kraft ls * 2 ^ m = k := by
  induction ls with
  | nil => exact ⟨0, by simp⟩
  | cons l ls ih =>
    obtain ⟨k, hk⟩ := ih fun x hx => h x (List.mem_cons_of_mem _ hx)
    refine ⟨2 ^ (m - l) + k, ?_⟩
    have hl := h l (by simp)
    have : (1 / 2 : ℚ) ^ l * 2 ^ m = 2 ^ (m - l) := by
      obtain ⟨d, rfl⟩ := Nat.exists_eq_add_of_le hl
      rw [pow_add, Nat.add_sub_cancel_left, ← mul_assoc, ← mul_pow]
      norm_num
    rw [kraft_cons, add_mul, this, hk]
    push_cast
    ring

/-- Where the two greatest lengths are `la ≥ lb`, both may be `lb`, and that is not 0. -/
theorem kraft_shorten {la lb : Nat} {ls : List Nat} (h : kraft (la :: lb :: ls) ≤ 1) (hl : ∀ l ∈ ls, l ≤ lb) :
    ∃ m, lb = m + 1 ∧ kraft (m :: ls) ≤ 1 := by
  obtain ⟨k, hk⟩ := kraft_mul_two_pow hl
  have hpos : (0 : ℚ) < 2 ^ lb := by positivity
  have hhalf : (1 / 2 : ℚ) ^ lb * 2 ^ lb = 1 := by
    rw [← mul_pow]
    norm_num
  have hlt : ((1 + k : Nat) : ℚ) < 2 ^ lb := by
    rw [kraft_cons, kraft_cons] at h
    have ha : (0 : ℚ) < (1 / 2) ^ la := by positivity
    have h1 : (1 / 2 : ℚ) ^ lb + kraft ls < 1 := by linarith
    have h2 := mul_lt_mul_of_pos_right h1 hpos
    rw [add_mul, hhalf, hk, one_mul] at h2
    push_cast
    exact h2
  have hlt' : 1 + k < 2 ^ lb := by exact_mod_cast hlt
  cases lb with
  | zero => omega
  | succ m =>
    refine ⟨m, rfl, ?_⟩
    have hle : ((2 + k : Nat) : ℚ) ≤ 2 ^ (m + 1) := by
      have : 2 + k ≤ 2 ^ (m + 1) := by omega
      exact_mod_cast this
    have hm : (1 / 2 : ℚ) ^ m * 2 ^ (m + 1) = 2 := by
      rw [pow_succ, ← mul_assoc, ← mul_pow]
      norm_num
    refine le_of_mul_le_mul_right ?_ hpos
    rw [kraft_cons, add_mul, hm, hk, one_mul]
    push_cast at hle
    exact hle

theorem pathLength_map_cons (wt : Nat → Nat) (b : Bool) (ls : List (Nat × Bits)) :
    ((ls.map fun p => (p.1, b :: p.2)).map fun p => wt p.1 * p.2.length).sum =
      (ls.map fun p => wt p.1 * p.2.length).sum + (ls.map fun p => wt p.1).sum := by
  induction ls with
  | nil => rfl
  | cons p ls ih =>
    simp only [List.map_cons, List.sum_cons, List.length_cons] at ih ⊢
    rw [ih]
    ring

theorem sum_leaf_weights (wt : Nat → Nat) (t : CodeTree) : (t.leaves.map fun p => wt p.1).sum = t.weight wt := by
  induction t with
  | leaf i sym => simp [CodeTree.leaves, CodeTree.weight]
  | node i l r ihl ihr =>
    simp only [CodeTree.leaves, CodeTree.weight, List.map_append, List.map_map, List.sum_append, Function.comp_def]
    rw [ihl, ihr]

theorem pathLength_leaf (wt : Nat → Nat) (i sym : Nat) : (CodeTree.leaf i sym).pathLength wt = 0 := by
  simp [CodeTree.pathLength, CodeTree.leaves]

theorem pathLength_node (wt : Nat → Nat) (i : Nat) (l r : CodeTree) :
    (CodeTree.node i l r).pathLength wt = l.pathLength wt + l.weight wt + (r.pathLength wt + r.weight wt) := by
  simp only [CodeTree.pathLength, CodeTree.leaves, List.map_append, List.sum_append, pathLength_map_cons, sum_leaf_weights]

/-- Merging a forest costs no more than any lengths that keep to the sum. -/
theorem Merges.optimal {wt : Nat → Nat} {f : List CodeTree} {t : CodeTree} (h : Merges wt f t) {ps : List Sized}
    (hps : (ps.map Prod.fst).Perm f) (hk : kraft (ps.map Prod.snd) ≤ 1) : t.pathLength wt ≤ cost wt ps := by
  induction h generalizing ps with
  | single t =>
    have := List.perm_singleton.mp hps
    cases ps with
    | nil => cases this
    | cons p ps =>
      simp only [List.map_cons, List.cons.injEq, List.map_eq_nil_iff] at this
      obtain ⟨rfl, rfl⟩ := this
      simp only [cost_cons]
      omega
  | @merge f g a b t i hf hab hg _ ih =>
    have hp := hps.trans hf
    obtain ⟨p, hp1, rfl⟩ := List.mem_map.mp (hp.mem_iff.mpr (List.mem_cons_self))
    obtain ⟨xs, ys, rfl⟩ := List.append_of_mem hp1
    have hperm : (xs ++ p :: ys).Perm (p :: (xs ++ ys)) := List.perm_middle
    generalize xs ++ ys = qs at hperm
    have hq : (qs.map Prod.fst).Perm (b :: g) := by
      have := (hperm.map Prod.fst).symm.trans hp
      exact (List.perm_cons _).mp this
    obtain ⟨q, hq1, rfl⟩ := List.mem_map.mp (hq.mem_iff.mpr (List.mem_cons_self))
    obtain ⟨xs', ys', rfl⟩ := List.append_of_mem hq1
    have hperm2 : (xs' ++ q :: ys').Perm (q :: (xs' ++ ys')) := List.perm_middle
    generalize xs' ++ ys' = rs at hperm2
    have hr : (rs.map Prod.fst).Perm g := by
      have := (hperm2.map Prod.fst).symm.trans hq
      exact (List.perm_cons _).mp this
    have hall := hperm.trans (hperm2.cons p)
    rw [cost_perm hall]
    have hk' : kraft (p.2 :: q.2 :: rs.map Prod.snd) ≤ 1 := by
      rw [kraft_perm (hall.map Prod.snd)] at hk
      exact hk
    obtain ⟨l, qs', e1, e2, e3, e4⟩ := exists_longest wt p.1 p.2 (q :: rs) (by
      intro x hx
      rcases List.mem_cons.mp hx with rfl | hx
      · exact hab
      · exact le_trans hab (hg x.1 (hr.mem_iff.mp (List.mem_map_of_mem hx))))
    cases qs' with
    | nil => simp at e1
    | cons q' rs' =>
      simp only [List.map_cons, List.cons.injEq] at e1
      obtain ⟨e1a, e1b⟩ := e1
      obtain ⟨m, rs'', d1, d2, d3, d4⟩ := exists_longest wt q'.1 q'.2 rs' (by
        intro x hx
        rw [e1a]
        refine hg x.1 (hr.mem_iff.mp ?_)
        rw [← e1b]
        exact List.mem_map_of_mem hx)
      have hk2 : kraft (l :: m :: rs''.map Prod.snd) ≤ 1 := by
        rw [kraft_perm (d2.cons l), ← List.map_cons (f := Prod.snd), kraft_perm e2]
        exact hk'
      obtain ⟨m', rfl, hk3⟩ := kraft_shorten hk2 (by
        intro x hx
        obtain ⟨y, hy, rfl⟩ := List.mem_map.mp hx
        exact d4 y hy)
      have hm : m' + 1 ≤ l := by
        have : m' + 1 ∈ q'.2 :: rs'.map Prod.snd := d2.mem_iff.mp (by simp)
        rcases List.mem_cons.mp this with h | h
        · rw [h]
          exact e4 _ (by simp)
        · obtain ⟨y, hy, h⟩ := List.mem_map.mp h
          rw [← h]
          exact e4 _ (List.mem_cons_of_mem _ hy)
      have := ih (ps := (.node i p.1 q.1, m') :: rs'') (by
        simp only [List.map_cons]
        rw [d1, e1b]
        exact hr.cons _) (by simpa using hk3)
      refine this.trans (le_trans ?_ e3)
      have hx : p.1.weight wt * (m' + 1) ≤ p.1.weight wt * l := Nat.mul_le_mul_left _ hm
      simp only [cost_cons, pathLength_node, CodeTree.weight, e1a] at d3 ⊢
      rw [Nat.add_mul]
      rw [Nat.mul_add] at hx d3
      omega

/-! ## The internal nodes -/

/-- The weights of all the nodes of a stored tree: those of the leaves, and beside them the weighted path length. -/
theorem sum_weightAt_indices {wt : Nat → Nat} {s : State} {t : CodeTree} (h : Stores s (weightWord wt) t)
    (hb : t.weight wt ≤ Config.weightMax) : (t.indices.map (weightAt s)).sum = t.weight wt + t.pathLength wt := by
  induction t with
  | leaf i sym =>
    have := weightAt_of_stores h hb
    simpa [CodeTree.indices, pathLength_leaf, CodeTree.index] using this
  | node i l r ihl ihr =>
    have hw := weightAt_of_stores h hb
    rw [CodeTree.index] at hw
    rw [CodeTree.weight] at hb hw ⊢
    rw [CodeTree.indices, List.map_cons, List.sum_cons, List.map_append, List.sum_append, ihl h.2.1 (by omega),
      ihr h.2.2 (by omega), hw, pathLength_node]
    omega

end Sys2Proof.Machine
end

