-- ==== Sys2Proof/Laws/Invariant.lean ====
section
/-!
SUPPORT. What every command's pseudocode keeps of the invariant, and that it ends in the states that meet it (R203).
-/

namespace Sys2Proof.Machine

/-- The invariant without its part about the status registers. -/
structure DataInv (s : State) : Prop where
  port : PortOk s
  nodeCount : s.nodeCount.toNat ≤ Config.nodeCap
  countTotal : s.countTotal.toNat ≤ Config.countMax
  tree : s.treeValid = true → ∃ t, TreeIs s t
  table : s.tableValid = true → s.treeValid = true ∧ ∃ t, TreeIs s t ∧ TableIs s t

theorem Inv.data {s : State} (h : Inv s) : DataInv s := ⟨h.port, h.nodeCount, h.countTotal, h.tree, h.table⟩

/-- The parts of the state that the tree and the code table are in. -/
def treeFields (s : State) : Vector Node 513 × BitVec 10 × BitVec 10 × Bool × Vector Code 257 × Bool :=
  (s.nodes, s.nodeCount, s.root, s.treeValid, s.codes, s.tableValid)

/-- A state with the same tree, table and COUNT_TOTAL keeps the invariant if its cursor is within IN. -/
theorem DataInv.congr {s u : State} (h : DataInv s) (hp : PortOk u) (hc : u.countTotal.toNat ≤ Config.countMax)
    (ht : treeFields u = treeFields s) : DataInv u := by
  simp only [treeFields, Prod.mk.injEq] at ht
  obtain ⟨h1, h2, h3, h4, h5, h6⟩ := ht
  refine ⟨hp, by rw [h2]; exact h.nodeCount, hc, fun hv => ?_, fun hv => ?_⟩
  · obtain ⟨t, ht⟩ := h.tree (by rw [← h4, hv])
    exact ⟨t, ht.congr h1 h3 h2⟩
  · obtain ⟨hx, t, ht, htab⟩ := h.table (by rw [← h6, hv])
    exact ⟨by rw [h4, hx], t, ht.congr h1 h3 h2, htab.congr h5⟩

/-- A state without a valid tree or table. -/
theorem DataInv.of_no_tree {u : State} (hp : PortOk u) (hn : u.nodeCount.toNat ≤ Config.nodeCap)
    (hc : u.countTotal.toNat ≤ Config.countMax) (h1 : u.treeValid = false) (h2 : u.tableValid = false) : DataInv u :=
  ⟨hp, hn, hc, fun h => absurd (h1.symm.trans h) (by simp), fun h => absurd (h2.symm.trans h) (by simp)⟩

/-- The part of the state that the stream commands leave alone, with the cursor within IN. -/
abbrev StreamKeeps (s u : State) : Prop := PortOk u ∧ u.countTotal = s.countTotal ∧ treeFields u = treeFields s

theorem DataInv.of_stream {s u : State} (h : DataInv s) (hu : StreamKeeps s u) : DataInv u :=
  h.congr hu.1 (by rw [hu.2.1]; exact h.countTotal) hu.2.2

theorem StreamKeeps.advance {s u : State} (h : StreamKeeps s u) {n : Nat} (hn : n ≤ bitsLeft u) : StreamKeeps s (advance n u) :=
  ⟨h.1.advance hn, h.2⟩

/-! ## Each command -/

/-- All that COUNT can do (R80 to R84). -/
theorem countBody_cases {s : State} (hp : PortOk s) :
    (∃ bs, remaining s = bytesToBits bs ∧ bs.length ≤ Config.countMax ∧
        countBody s = .ok ()
          { s with
            freq := countsOf bs, countTotal := BitVec.ofNat 32 bs.length
            inPos := s.inPos + BitVec.ofNat 64 (8 * bs.length) }) ∨
      (∃ bs n e i, bs.length ≤ Config.countMax ∧ n ≤ bitsLeft s ∧ (e = .readExhausted ∨ e = .countOverflow) ∧
        countBody s = raise (opcode .count) e 0#8 i
          { s with
            freq := countsOf bs, countTotal := BitVec.ofNat 32 bs.length
            inPos := s.inPos + BitVec.ofNat 64 n }) := by
  obtain ⟨all, tail, hr, ht⟩ := exists_bytesToBits_append (remaining s)
  by_cases hl : all.length ≤ Config.countMax
  · by_cases h0 : tail = []
    · refine .inl ⟨all, by rw [hr, h0, List.append_nil], hl, countBody_closed hp (by rw [hr, h0, List.append_nil]) hl⟩
    · refine .inr ⟨all, 8 * all.length, .readExhausted, _, hl, ?_, .inl rfl, countBody_closed_partial hp hr h0 ht hl⟩
      rw [← length_remaining, hr]
      simp
  · have hsplit : all = all.take Config.countMax ++ (all[Config.countMax] :: all.drop (Config.countMax + 1)) := by
      rw [← List.drop_eq_getElem_cons, List.take_append_drop]
    have hlen : (all.take Config.countMax).length = Config.countMax := by
      rw [List.length_take]
      omega
    refine .inr ⟨all.take Config.countMax, 8 * ((all.take Config.countMax).length + 1), .countOverflow, _, hlen.le, ?_,
      .inr rfl, countBody_closed_overflow (r := all[Config.countMax])
        (rest := bytesToBits (all.drop (Config.countMax + 1)) ++ tail) hp ?_ hlen⟩
    · rw [← length_remaining, hr, hlen]
      simp
      omega
    · rw [hr, ← List.append_assoc, ← List.append_assoc, ← bytesToBits_append, ← bytesToBits_append, List.append_assoc,
        List.singleton_append, ← hsplit]

theorem countMax_toNat {n : Nat} (h : n ≤ Config.countMax) : (BitVec.ofNat 32 n).toNat ≤ Config.countMax :=
  le_trans (by rw [BitVec.toNat_ofNat]; exact Nat.mod_le _ _) h

theorem countBody_data {s : State} (h : DataInv s) : (countBody s).All DataInv := by
  rcases countBody_cases h.port with ⟨bs, hr, hl, hb⟩ | ⟨bs, n, e, i, hl, hn, -, hb⟩ <;> rw [hb]
  · have hp : PortOk (advance (8 * bs.length) s) := h.port.advance (by rw [← length_remaining, hr]; simp)
    exact h.congr (hp.congr rfl rfl) (countMax_toNat hl) rfl
  · exact h.congr ((h.port.advance hn).congr rfl rfl) (countMax_toNat hl) rfl

theorem buildBody_data {s : State} (h : DataInv s) : (buildBody s).All DataInv := by
  rcases buildBody_spec s with ⟨u, t, h1, -, h3, h4, h5, -⟩ | ⟨u, a, b, h1, -, h3, h4, -⟩ <;> rw [h1]
  · show DataInv u
    have hv : u.tableValid = false := by rw [h3]; rfl
    refine ⟨h.port.congr (by rw [h3]; rfl) (by rw [h3]; rfl), h4.count.2, by rw [h3]; exact h.countTotal, fun _ => ⟨t, h5⟩,
      fun hx => by rw [hv] at hx; cases hx⟩
  · refine .of_no_tree (h.port.congr ?_ ?_) h4.count.2 ?_ ?_ ?_
    · rw [h3]; rfl
    · rw [h3]; rfl
    · rw [h3]; exact h.countTotal
    · rw [h3]; rfl
    · rw [h3]; rfl

theorem genTableBody_data {s : State} (h : DataInv s) : (genTableBody s).All DataInv := by
  by_cases hv : s.treeValid = true
  · obtain ⟨t, ht⟩ := h.tree hv
    rw [genTableBody_closed hv ht]
    exact ⟨h.port, h.nodeCount, h.countTotal, fun _ => ⟨t, ht.congr rfl rfl rfl⟩,
      fun _ => ⟨hv, t, ht.congr rfl rfl rfl, codeAt_tableOf rfl⟩⟩
  · rw [genTableBody, if_neg hv]
    exact h.of_stream ⟨h.port, rfl, rfl⟩

theorem serializeBody_data {s : State} (h : DataInv s) : (serializeBody s).All DataInv := by
  unfold serializeBody
  split
  · exact (serNode_all (P := StreamKeeps s) (Q := StreamKeeps s) (fun _ _ h => h) _ _ _ ⟨h.port, rfl, rfl⟩).mono
      (fun _ hu => h.of_stream hu) fun _ hu => h.of_stream hu
  · exact h.of_stream ⟨h.port, rfl, rfl⟩

theorem encodeBody_data {s : State} (h : DataInv s) : (encodeBody s).All DataInv := by
  unfold encodeBody
  split
  · exact (encodeLoop_all (P := StreamKeeps s) (Q := StreamKeeps s) (fun _ h hb => h.advance hb) (fun _ _ h => h)
      (fun _ _ _ _ h => h) _ _ ⟨h.port, rfl, rfl⟩).mono (fun _ hu => h.of_stream hu) fun _ hu => h.of_stream hu
  · exact h.of_stream ⟨h.port, rfl, rfl⟩

theorem decodeBody_data {s : State} (h : DataInv s) : (decodeBody s).All DataInv := by
  unfold decodeBody
  split
  · split
    · trivial
    · split
      · split
        · exact h
        · exact h.of_stream ⟨h.port, rfl, rfl⟩
      · exact (decodeLoop_all (P := StreamKeeps s) (Q := StreamKeeps s) (fun _ h hb => h.advance hb) (fun _ _ h => h)
          (fun _ _ _ _ h => h) _ _ _ _ ⟨h.port, rfl, rfl⟩).mono (fun _ hu => h.of_stream hu) fun _ hu => h.of_stream hu
  · exact h.of_stream ⟨h.port, rfl, rfl⟩

theorem checkMagicBody_data {s : State} (h : DataInv s) : (checkMagicBody s).All DataInv := by
  have h0 : StreamKeeps s { s with lastMagic := 0#32 } := ⟨h.port, rfl, rfl⟩
  unfold checkMagicBody
  simp only
  split
  · exact h.of_stream h0
  · next v s1 hread =>
    obtain ⟨hb, -, rfl⟩ := readBits_eq_some_iff.mp hread
    split
    · exact h.of_stream (h0.advance hb)
    · exact h.of_stream (h0.advance hb)

theorem deserializeBody_data {s : State} (h : DataInv s) : (deserializeBody s).All DataInv := by
  have hcap := deserializeBody_above s
  have hkeep : (deserializeBody s).Post (fun _ => True) fun u =>
      PortOk u ∧ u.countTotal = s.countTotal ∧ u.treeValid = false ∧ u.tableValid = false := by
    refine Run.Post.bind (desNode_all
      (P := fun u => PortOk u ∧ u.countTotal = s.countTotal ∧ u.treeValid = false ∧ u.tableValid = false)
      (fun n u hu hb => ⟨hu.1.advance hb, hu.2⟩) (fun _ _ h => h) (fun _ _ _ _ h => h) (fun _ _ _ h => h) _ _ _
      ⟨h.port, rfl, rfl, rfl⟩) fun _ _ _ => trivial
  cases hb : deserializeBody s with
  | stuck f => trivial
  | abort u =>
    rw [hb] at hcap hkeep
    exact .of_no_tree hkeep.1 hcap.cap (by rw [hkeep.2.1]; exact h.countTotal) hkeep.2.2.1 hkeep.2.2.2
  | ok a u =>
    obtain ⟨t, rest, hr, hs, hn⟩ := header_of_deserializeBody h.port hb
    obtain ⟨v, N, e1, e2, -, e4⟩ := deserializeBody_header h.port hr hs hn
    rw [hb] at e1
    simp only [Run.ok.injEq, true_and] at e1
    subst e1
    rw [hb] at hcap
    have hv : u.tableValid = false := by rw [e2]
    refine ⟨?_, hcap.cap, by rw [e2]; exact h.countTotal, fun _ => ⟨_, e4⟩, fun hx => by rw [hv] at hx; cases hx⟩
    exact (h.port.advance_append hr rfl).congr (by rw [e2]; rfl) (by rw [e2]; rfl)

theorem rewindInBody_data {s : State} (h : DataInv s) : (rewindInBody s).All DataInv :=
  h.congr ⟨h.port.1, by simp⟩ h.countTotal rfl

theorem writeSeq_data {s : State} (h : DataInv s) (b : Bits) : DataInv (writeSeq b s) := h.of_stream ⟨h.port, rfl, rfl⟩

/-- Every command's pseudocode keeps the invariant, however it ends. -/
theorem bodyOf_data (i : Instr) {s : State} (h : DataInv s) : (bodyOf i s).All DataInv := by
  have hseq : ∀ is : List Instr, (∀ j ∈ is, isComposite j = false) →
      (∀ j ∈ is, isComposite j = false → ∀ s, DataInv s → (bodyOf j s).All DataInv) →
      ∀ s, DataInv s → (runSeq is s).All DataInv := by
    intro is
    induction is with
    | nil => exact fun _ _ s h => h
    | cons j js ih =>
      intro hc hk s h
      rw [runSeq_cons]
      exact (hk j (by simp) (hc j (by simp)) s h).andThen
        (ih (fun k hk' => hc k (List.mem_cons_of_mem _ hk')) fun k hk' => hk k (List.mem_cons_of_mem _ hk'))
  have hprim : ∀ j, isComposite j = false → ∀ s, DataInv s → (bodyOf j s).All DataInv := by
    intro j hj s h
    cases j with
    | nop => exact h
    | clear => exact .of_no_tree (h.port.congr rfl rfl) (by simp [dropTree]) (by simp [dropTree, dropCounts]) rfl rfl
    | count => exact countBody_data h
    | build => exact buildBody_data h
    | genTable => exact genTableBody_data h
    | writeMagic => exact writeSeq_data h _
    | serialize => exact serializeBody_data h
    | encode => exact encodeBody_data h
    | checkMagic => exact checkMagicBody_data h
    | deserialize => exact deserializeBody_data h
    | decode => exact decodeBody_data h
    | rewindIn => exact rewindInBody_data h
    | flushOut => exact writeSeq_data h _
    | compress => cases hj
    | decompress => cases hj
  by_cases hi : isComposite i = false
  · exact hprim i hi s h
  · cases i <;> first | exact absurd rfl hi | skip
    · show (compressBody s).All DataInv
      rw [compressBody_eq]
      exact hseq _ (by decide) (fun j _ => hprim j) s h
    · show (decompressBody s).All DataInv
      rw [decompressBody_eq]
      exact hseq _ (by decide) (fun j _ => hprim j) s h

/-! ## Termination -/

theorem Run.Ends.andThen {P : State → Prop} {r : Run Unit} {k : State → Run Unit} (h : r.Ends) (hp : r.All P)
    (hk : ∀ u, P u → (k u).Ends) : (r.andThen k).Ends := by
  cases r with
  | ok a s => exact hk s hp
  | abort s => trivial
  | stuck f => exact h.elim

/-- Every command's pseudocode ends (R203). -/
theorem bodyOf_ends (i : Instr) {s : State} (h : DataInv s) : (bodyOf i s).Ends := by
  have hprim : ∀ j, isComposite j = false → ∀ s, DataInv s → (bodyOf j s).Ends := by
    intro j hj s h
    cases j with
    | nop => trivial
    | clear => trivial
    | count => exact countBody_ends s
    | build => exact buildBody_ends s
    | genTable =>
      show (genTableBody s).Ends
      by_cases hv : s.treeValid = true
      · obtain ⟨t, ht⟩ := h.tree hv
        rw [genTableBody_closed hv ht]
        trivial
      · rw [genTableBody, if_neg hv]
        trivial
    | writeMagic => trivial
    | serialize =>
      show (serializeBody s).Ends
      by_cases hv : s.treeValid = true
      · obtain ⟨t, ht⟩ := h.tree hv
        rw [serializeBody_of_tree hv ht]
        trivial
      · rw [serializeBody, if_neg hv]
        trivial
    | encode => exact encodeBody_ends s
    | checkMagic =>
      show (checkMagicBody s).Ends
      unfold checkMagicBody
      simp only
      split
      · trivial
      · split <;> trivial
    | deserialize => exact deserializeBody_ends s
    | decode => exact decodeBody_ends h.port h.tree
    | rewindIn => trivial
    | flushOut => trivial
    | compress => cases hj
    | decompress => cases hj
  have hseq : ∀ is : List Instr, (∀ j ∈ is, isComposite j = false) → ∀ s, DataInv s → (runSeq is s).Ends := by
    intro is
    induction is with
    | nil => exact fun _ _ _ => trivial
    | cons j js ih =>
      intro hc s h
      rw [runSeq_cons]
      exact (hprim j (hc j (by simp)) s h).andThen (bodyOf_data j h)
        (ih fun k hk => hc k (List.mem_cons_of_mem _ hk))
  by_cases hi : isComposite i = false
  · exact hprim i hi s h
  · cases i <;> first | exact absurd rfl hi | skip
    · show (compressBody s).Ends
      rw [compressBody_eq]
      exact hseq _ (by decide) s h
    · show (decompressBody s).Ends
      rw [decompressBody_eq]
      exact hseq _ (by decide) s h

/-! ## Errors -/

/-- All that COMPRESS can do: it completes, or its COUNT raises (R144, R164). -/
theorem compressBody_cases {s : State} (hl : s.inBits.length < Config.portLimit) :
    (∃ u bs t e, s.inBits = bytesToBits bs ∧ bs.length ≤ Config.countMax ∧ compressBody s = .ok () u ∧
        u = compressed bs t e u s ∧ TreeIs u t) ∨
      (∃ u, compressBody s = .abort u ∧ AbortsWith (errorsOf .compress) u) := by
  have hp : PortOk { s with inPos := 0#64 } := ⟨hl, by simp⟩
  rcases countBody_cases hp with ⟨bs, hr, hb, -⟩ | ⟨bs, n, e, i, -, -, he, hb⟩
  · left
    obtain ⟨u, t, e, h1, h2, h3, -⟩ := compressBody_closed (s := s) (bs := bs) hr hb
    exact ⟨u, bs, t, e, hr, hb, h1, h2, h3⟩
  · right
    rw [compressBody, rewindInBody, Run.andThen_ok, hb]
    refine ⟨_, rfl, abortsWith_raised ?_ _ _⟩
    rcases he with rfl | rfl <;> decide

theorem treeValid_of_deserializeBody {s u : State} (h : deserializeBody s = .ok () u) : u.treeValid = true := by
  unfold deserializeBody at h
  cases hd : desNode (Config.nodeCap + 1) [] (dropTree s) with
  | ok a w =>
    rw [hd] at h
    simp only [Run.bind_ok, Run.ok.injEq, true_and] at h
    rw [← h]
  | abort w =>
    rw [hd] at h
    cases h
  | stuck w =>
    rw [hd] at h
    cases h

/-- DECOMPRESS raises an error of one of its steps, and never NO_TREE (R145, R164). -/
theorem decompressBody_status (s : State) : EndsLike s (errorsOf .decompress) (decompressBody s) := by
  rw [decompressBody, rewindInBody, Run.andThen_ok]
  refine Run.Post.andThen ((checkMagicBody_status _).mono (fun _ h => h) fun u hu => hu.mono (by simp [errorsOf]))
    fun u hu => ?_
  have h1 : EndsLike u (errorsOf .decompress) (deserializeBody u) :=
    Run.Post.mono (deserializeBody_status u) (fun _ h => h) fun v hv => hv.mono (by simp [errorsOf])
  cases hb : deserializeBody u with
  | stuck f => trivial
  | abort v =>
    rw [hb] at h1
    exact h1
  | ok a v =>
    rw [hb] at h1
    exact (decodeBody_status_of_tree (treeValid_of_deserializeBody hb)).mono (fun w hw => hw.trans (Eq.trans h1 hu))
      fun w hw => hw.mono (by simp [errorsOf])

/-- Which errors a command can end with (R163, R164). -/
theorem bodyOf_endsLike (i : Instr) {s : State} (hl : s.inBits.length < Config.portLimit) :
    EndsLike s (errorsOf i) (bodyOf i s) := by
  by_cases hi : isComposite i = false
  · exact bodyOf_status hi s
  · cases i <;> first | exact absurd rfl hi | skip
    · show EndsLike s _ (compressBody s)
      rcases compressBody_cases hl with ⟨u, bs, t, e, -, -, h1, h2, -⟩ | ⟨u, h1, h2⟩ <;> rw [h1]
      · show statusFields u = statusFields s
        rw [h2]
        rfl
      · exact h2
    · exact decompressBody_status s

theorem errCode_mem {i : Instr} {x : BitVec 8 × BitVec 8 × BitVec 8} (h : x ∈ errorsOf i) : x.1 ∈ writtenErrCodes := by
  revert x
  cases i <;> simp [errorsOf, writtenErrCodes]

/-! ## The invariant itself -/

theorem DataInv.started {s : State} (h : DataInv s) : DataInv (started s) := h.congr h.port h.countTotal rfl

/-- A state that differs from one with the invariant in other fields, or in DONE and ERR cleared, has the invariant. -/
theorem Inv.congr {s u : State} (h : Inv s) (h1 : u.busy = s.busy) (h2 : u.done = true → s.done = true)
    (h3 : u.err = true → s.err = true) (h4 : u.errCode = s.errCode) (h5 : u.errDetail = s.errDetail)
    (h6 : u.errStep = s.errStep) (h7 : u.errInfo = s.errInfo) (hp : PortOk u) (hc : u.countTotal = s.countTotal)
    (ht : treeFields u = treeFields s) : Inv u := by
  have d := h.data.congr hp (by rw [hc]; exact h.countTotal) ht
  exact ⟨h1.trans h.idle, fun x => h.doneOrErr ⟨h2 x.1, h3 x.2⟩, fun x => by rw [h4, h5, h6, h7]; exact h.doneClean (h2 x),
    by rw [h4]; exact h.codes, hp, d.nodeCount, d.countTotal, d.tree, d.table⟩

/-- A reset makes the invariant hold (R190, R192). -/
theorem resetBlock_inv {s : State} (h : s.inBits.length < Config.portLimit) : Inv (resetBlock s) := by
  constructor
  case port => exact ⟨h, by simp [resetBlock, State.reset]⟩
  all_goals simp [resetBlock, State.reset, writtenErrCodes, Config.nodeCap]

end Sys2Proof.Machine
end

