-- ==== Sys2Proof/Laws/PerInstr.lean ====
section
/-!
SUPPORT. One statement about each command as syntax: the RSVD field of its word is 0, and its OP field is its opcode (R70, R73).
-/

namespace Sys2Proof.Laws.ReservedBitsZero

/-- The word of the command has bits [31:8] = 0 and bits [7:0] the opcode, and is legal. -/
def Statement (i : Instr) : Prop :=
  i.wellFormed = true ∧ fieldReserved (encode i) = 0#24 ∧ fieldOp (encode i) = opcode i ∧ legalWord (encode i) = true

theorem nop : Statement .nop := by unfold Statement; decide
theorem clear : Statement .clear := by unfold Statement; decide
theorem count : Statement .count := by unfold Statement; decide
theorem build : Statement .build := by unfold Statement; decide
theorem genTable : Statement .genTable := by unfold Statement; decide
theorem writeMagic : Statement .writeMagic := by unfold Statement; decide
theorem serialize : Statement .serialize := by unfold Statement; decide
theorem encode : Statement .encode := by unfold Statement; decide
theorem checkMagic : Statement .checkMagic := by unfold Statement; decide
theorem deserialize : Statement .deserialize := by unfold Statement; decide
theorem decode : Statement .decode := by unfold Statement; decide
theorem rewindIn : Statement .rewindIn := by unfold Statement; decide
theorem flushOut : Statement .flushOut := by unfold Statement; decide
theorem compress : Statement .compress := by unfold Statement; decide
theorem decompress : Statement .decompress := by unfold Statement; decide

end Sys2Proof.Laws.ReservedBitsZero
end

