-- ==== Sys2Proof/Laws/Programs.lean ====
section
/-!
SUPPORT. Host programs: what a step does to the host's list, which steps can raise an error, and which steps answer a next state
(R180, R181).
-/

namespace Sys2Proof.Machine

/-- No command touches the host's list. -/
theorem exec_host {i : Instr} {s t : State} (h : exec i s = .next t) : t.host = s.host := by
  refine exec_mask State.host (i := i) (fun _ => rfl) (fun _ => rfl) (fun s => ?_) h
  have hk : ∀ {F : State → State} {r : Run Unit}, (r.All fun u => F u = F s) → (∀ u, (F u).host = u.host) →
      r.All fun u => u.host = s.host := fun hr h1 => hr.mono fun u hu => by rw [← h1 u, hu, h1]
  have ho : ∀ {F : State → State} {r : Run Unit}, (r.All fun u => F u = F s ∧ Appends s u) → (∀ u, (F u).host = u.host) →
      r.All fun u => u.host = s.host := fun hr h1 => hk (hr.mono fun _ h => h.1) h1
  cases i with
  | nop => exact rfl
  | clear => exact rfl
  | count => exact hk (countBody_mask s) fun _ => rfl
  | build => exact hk (buildBody_mask s) fun _ => rfl
  | genTable => exact hk (genTableBody_mask s) fun _ => rfl
  | writeMagic => exact ho (writeMagicBody_mask s) fun _ => rfl
  | serialize => exact ho (serializeBody_mask s) fun _ => rfl
  | encode => exact ho (encodeBody_mask s) fun _ => rfl
  | checkMagic => exact hk (checkMagicBody_mask s) fun _ => rfl
  | deserialize => exact hk (deserializeBody_mask s) fun _ => rfl
  | decode => exact ho (decodeBody_mask s) fun _ => rfl
  | rewindIn => exact rfl
  | flushOut => exact ho (flushOutBody_mask s) fun _ => rfl
  | compress => exact ho (compressBody_mask s) fun _ => rfl
  | decompress => exact ho (decompressBody_mask s) fun _ => rfl

/-- A CMD write runs a command, or is ignored, or raises ILLEGAL_COMMAND. -/
theorem issueWord_cases (w : Word) (s : State) :
    (∃ i, decode w = .ok i ∧ issueWord w s = exec i s) ∨ issueWord w s = .next (illegalCommand w s) := by
  unfold issueWord
  cases decode w with
  | ok i => exact .inl ⟨i, rfl, rfl⟩
  | error e => exact .inr rfl

/-- All that an action other than a command can be: it stops as R180 and U12 have it, or it answers a state with the same list and
no new error. -/
theorem hostAction_cases {a : HostAction} (hc : issuesCommand a = false) (s : State) :
    (∃ t, hostAction a s = .next t ∧ t.host = s.host ∧ (t.err = true → s.err = true)) ∨
      (s.busy = true ∧ hostAction a s = .fault .portActionWhileBusy) ∨
      (a.wellFormed = false ∧ hostAction a s = .refused .inputTooLong) := by
  cases a with
  | memRead addr =>
    refine .inl ⟨_, rfl, ?_⟩
    unfold memRead
    split <;> exact ⟨rfl, id⟩
  | memWrite addr v =>
    have hn : regOf addr ≠ some .cmd := by simpa [issuesCommand_memWrite] using hc
    simp only [hostAction, memWrite]
    cases hr : regOf addr with
    | none => exact .inl ⟨s, rfl, rfl, id⟩
    | some r =>
      simp only
      split
      · exact .inl ⟨s, rfl, rfl, id⟩
      · cases r with
        | cmd => exact absurd hr hn
        | ctrl =>
          refine .inl ⟨_, rfl, ?_⟩
          unfold writeCtrl
          split
          · exact ⟨rfl, fun h => absurd h (by simp [resetBlock, State.reset])⟩
          · exact ⟨rfl, id⟩
        | status => exact .inl ⟨_, rfl, rfl, fun h => by simp [acknowledge] at h; exact h.1⟩
        | _ => exact .inl ⟨_, rfl, rfl, id⟩
  | load bits =>
    simp only [hostAction, loadIn]
    split
    · exact .inr (.inl ⟨‹_›, rfl⟩)
    · split
      · exact .inl ⟨_, rfl, rfl, id⟩
      · exact .inr (.inr ⟨Bool.eq_false_iff.mpr ‹_›, rfl⟩)
  | take =>
    simp only [hostAction, takeOut]
    split
    · exact .inr (.inl ⟨‹_›, rfl⟩)
    · exact .inl ⟨_, rfl, rfl, id⟩
  | reset => exact .inl ⟨_, rfl, rfl, fun h => absurd h (by simp [resetBlock, State.reset])⟩

/-- A well-formed action other than a command answers a next state while BUSY = 0, with the rest of the list, and raises no error. -/
theorem step_of_not_command {s : State} {a : HostAction} {rest : List HostAction} (hb : s.busy = false)
    (hh : s.host = a :: rest) (hc : issuesCommand a = false) (hw : a.wellFormed = true) :
    ∃ t, step s = .next t ∧ t.host = rest ∧ (t.err = true → s.err = true) := by
  rw [step_of_host hh]
  rcases hostAction_cases hc (popAction rest s) with h | ⟨h, -⟩ | ⟨h, -⟩
  · exact h
  · exact absurd (hb.symm.trans h) (by simp)
  · exact absurd (hw.symm.trans h) (by simp)

/-- A CMD write answers a next state, with the rest of the list, where every command does. -/
theorem step_of_command {s : State} {a : HostAction} {rest : List HostAction} (hh : s.host = a :: rest)
    (hc : issuesCommand a = true) (he : ∀ i, ∃ t, exec i (popAction rest s) = .next t) :
    ∃ t, step s = .next t ∧ t.host = rest := by
  rw [step_of_host hh]
  cases a with
  | memWrite addr v =>
    have hr : regOf addr = some .cmd := by simpa [issuesCommand_memWrite] using hc
    simp only [hostAction, memWrite, hr]
    split
    · exact ⟨_, rfl, rfl⟩
    · rcases issueWord_cases v (popAction rest s) with ⟨i, -, h⟩ | h
      · obtain ⟨t, ht⟩ := he i
        exact ⟨t, h.trans ht, exec_host ht⟩
      · refine ⟨_, h, ?_⟩
        unfold illegalCommand
        split <;> rfl
  | memRead => cases hc
  | load => cases hc
  | take => cases hc
  | reset => cases hc

end Sys2Proof.Machine
end

