-- ==== Sys2Proof/Laws/Registers.lean ====
section
/-!
SUPPORT. The fields of the words that the registers read (R26, R27, R42, R44), bit by bit as the spec places them.
-/

namespace Sys2Proof

/-- A field within the low part of a concatenation. -/
theorem extractLsb'_append_low {m n : Nat} (x : BitVec m) (y : BitVec n) {i k : Nat} (h : i + k ≤ n) :
    (x ++ y).extractLsb' i k = y.extractLsb' i k := by
  ext j hj
  simp only [BitVec.getElem_extractLsb', BitVec.getLsbD_append]
  rw [if_pos (by omega)]

/-- A field within the high part of a concatenation. -/
theorem extractLsb'_append_high {m n : Nat} (x : BitVec m) (y : BitVec n) {i k : Nat} (h : n ≤ i) :
    (x ++ y).extractLsb' i k = x.extractLsb' (i - n) k := by
  ext j hj
  simp only [BitVec.getElem_extractLsb', BitVec.getLsbD_append]
  rw [if_neg (by omega)]
  congr 1
  omega

theorem extractLsb'_zero_self {n : Nat} (x : BitVec n) : x.extractLsb' 0 n = x := by
  ext j hj
  simp

theorem getLsbD_append_low {m n : Nat} (x : BitVec m) (y : BitVec n) {i : Nat} (h : i < n) :
    (x ++ y).getLsbD i = y.getLsbD i := by
  rw [BitVec.getLsbD_append, if_pos h]

theorem getLsbD_append_high {m n : Nat} (x : BitVec m) (y : BitVec n) {i : Nat} (h : n ≤ i) :
    (x ++ y).getLsbD i = x.getLsbD (i - n) := by
  rw [BitVec.getLsbD_append, if_neg (by omega)]

end Sys2Proof

namespace Sys2Proof.Machine

/-- ERR_CODE (R27). -/
theorem errCodeWord_fields (s : State) : (errCodeWord s).extractLsb' 0 8 = s.errCode ∧ (errCodeWord s).extractLsb' 8 8 = s.errDetail ∧
    (errCodeWord s).extractLsb' 16 8 = s.errStep ∧ (errCodeWord s).extractLsb' 24 8 = 0#8 := by
  unfold errCodeWord
  refine ⟨?_, ?_, ?_, ?_⟩
  · rw [extractLsb'_append_low _ _ (by omega), extractLsb'_zero_self]
  · rw [extractLsb'_append_high _ _ (by omega), extractLsb'_append_low _ _ (by omega), extractLsb'_zero_self]
  · rw [extractLsb'_append_high _ _ (by omega), extractLsb'_append_high _ _ (by omega), extractLsb'_append_low _ _ (by omega), extractLsb'_zero_self]
  · rw [extractLsb'_append_high _ _ (by omega), extractLsb'_append_high _ _ (by omega), extractLsb'_append_high _ _ (by omega), extractLsb'_zero_self]

/-- NODE_A (R42). -/
theorem nodeAWord_fields (n : Node) : (nodeAWord n).extractLsb' 0 10 = n.left ∧ (nodeAWord n).extractLsb' 10 10 = n.right ∧
    (nodeAWord n).extractLsb' 20 9 = n.symbol ∧ (nodeAWord n).extractLsb' 29 2 = 0#2 ∧ (nodeAWord n).getLsbD 31 = n.isLeaf := by
  unfold nodeAWord
  refine ⟨?_, ?_, ?_, ?_, ?_⟩
  · rw [extractLsb'_append_low _ _ (by omega), extractLsb'_zero_self]
  · rw [extractLsb'_append_high _ _ (by omega), extractLsb'_append_low _ _ (by omega), extractLsb'_zero_self]
  · rw [extractLsb'_append_high _ _ (by omega), extractLsb'_append_high _ _ (by omega), extractLsb'_append_low _ _ (by omega), extractLsb'_zero_self]
  · rw [extractLsb'_append_high _ _ (by omega), extractLsb'_append_high _ _ (by omega), extractLsb'_append_high _ _ (by omega), extractLsb'_append_low _ _ (by omega), extractLsb'_zero_self]
  · rw [getLsbD_append_high _ _ (by omega), getLsbD_append_high _ _ (by omega), getLsbD_append_high _ _ (by omega), getLsbD_append_high _ _ (by omega)]
    simp

/-- CODE_LEN (R44). -/
theorem codeLenWord_fields (c : Code) : (codeLenWord c).extractLsb' 0 9 = c.len ∧ (codeLenWord c).extractLsb' 9 22 = 0#22 ∧ (codeLenWord c).getLsbD 31 = c.valid := by
  unfold codeLenWord
  refine ⟨?_, ?_, ?_⟩
  · rw [extractLsb'_append_low _ _ (by omega), extractLsb'_zero_self]
  · rw [extractLsb'_append_high _ _ (by omega), extractLsb'_append_low _ _ (by omega), extractLsb'_zero_self]
  · rw [getLsbD_append_high _ _ (by omega), getLsbD_append_high _ _ (by omega)]
    simp

/-- STATUS (R26). -/
theorem statusWord_bits (s : State) :
    (statusWord s).getLsbD 0 = s.busy ∧ (statusWord s).getLsbD 1 = s.done ∧ (statusWord s).getLsbD 2 = s.err ∧
      (statusWord s).getLsbD 3 = s.treeValid ∧ (statusWord s).getLsbD 4 = s.tableValid ∧ (statusWord s).getLsbD 5 = irq s ∧
      (statusWord s).extractLsb' 6 26 = 0#26 := by
  unfold statusWord
  generalize irq s = q
  generalize s.busy = a0
  generalize s.done = a1
  generalize s.err = a2
  generalize s.treeValid = a3
  generalize s.tableValid = a4
  revert q a0 a1 a2 a3 a4
  decide

/-- INT_EN (R30) reads back the two bits written. -/
theorem intEnWord_writeIntEn (v : Word) (s : State) : intEnWord (writeIntEn v s) = v &&& 0x00000003#32 := by
  simp only [intEnWord, writeIntEn]
  ext i hi
  simp only [BitVec.getElem_append, BitVec.getElem_and]
  have key : ∀ j : Fin 32, 2 ≤ j.val → (3#32).getLsbD j = false := by decide
  rcases i with _ | _ | i
  · simp
  · simp
  · have h3 : (3#32)[i + 1 + 1] = false := by
      rw [← BitVec.getLsbD_eq_getElem]
      exact key ⟨i + 2, hi⟩ (by simp)
    simp [h3]

end Sys2Proof.Machine
end

