-- ==== Sys2Proof/Tests/Slice0.lean ====
section
/-!
SUPPORT. The model's own tests: words written out from the spec's encodings, ill-formed terms, at most two single steps for each
command with the values of 95_test_vectors.md, and a witness for the hypotheses of every obligation that has some.
-/

namespace Sys2Proof.Tests

set_option Elab.async false

open Sys2Proof Sys2Proof.Machine

/-! ## Helpers -/

/-- Whether an outcome is a next state of which `p` holds. -/
def holdsAfter (p : State → Bool) : Host.Outcome State Fault Refusal → Bool
  | .next t => p t
  | .fault _ => false
  | .refused _ => false

theorem exists_next {p : State → Bool} {o : Host.Outcome State Fault Refusal} (h : holdsAfter p o = true) :
    ∃ t, o = .next t ∧ p t = true := by
  cases o with
  | next t => exact ⟨t, rfl, h⟩
  | fault => cases h
  | refused => cases h

/-- The number that binary digits written `0` and `1` spell, as bits. Blanks are skipped. -/
def digits (s : String) : Bits :=
  s.toList.filterMap fun c => if c = '0' then some false else if c = '1' then some true else none

/-- The state after reset with these actions of the host to come. -/
def idle (as : List HostAction) : State := { State.reset with host := as }

/-- A state with an error pending. -/
def inError (as : List HostAction) : State := { State.reset with err := true, errCode := 0x10#8, errStep := 0x0D#8, host := as }

/-- A state with BUSY = 1. No run reaches one. -/
def busyState (as : List HostAction) : State := { State.reset with busy := true, host := as }

/-- The state after reset with the IN port loaded. -/
def loaded (b : Bits) : State := { State.reset with inBits := b }

theorem inBits_loaded (b : Bits) : (loaded b).inBits = b := rfl

/-- The state after reset with the node memory holding these nodes, the last or the first of them the root. -/
def withNodes (root : Nat) (ns : List Node) : State :=
  { State.reset with
    nodes := Vector.ofFn fun i => (ns[i.val]?).getD Node.zero
    nodeCount := BitVec.ofNat 10 ns.length, root := BitVec.ofNat 10 root, treeValid := true }

/-- V-B3: the tree of the bytes `41 41 42`. -/
def treeAAB : State :=
  withNodes 4
    [⟨true, 0x41#9, 0#10, 0#10, 2#32⟩, ⟨true, 0x42#9, 0#10, 0#10, 1#32⟩, ⟨true, 0x100#9, 0#10, 0#10, 1#32⟩,
     ⟨false, 0#9, 1#10, 2#10, 2#32⟩, ⟨false, 0#9, 0#10, 3#10, 4#32⟩]

/-- The same tree as a term. -/
def shapeAAB : CodeTree := .node 4 (.leaf 0 0x41) (.node 3 (.leaf 1 0x42) (.leaf 2 0x100))

/-- V-G1: that tree with its code table. -/
def tableAAB : State :=
  { treeAAB with
    tableValid := true
    codes := Vector.ofFn fun i =>
      if i.val = 0x41 then ⟨true, 1#9, 0#256⟩
      else if i.val = 0x42 then ⟨true, 2#9, 2#256⟩
      else if i.val = 0x100 then ⟨true, 2#9, 3#256⟩
      else Code.none }

/-- A tree of one leaf. -/
def rootLeaf (sym : Nat) : State := withNodes 0 [⟨true, BitVec.ofNat 9 sym, 0#10, 0#10, 1#32⟩]

/-- A header that breaks off after `n` flag bits 0. -/
def lefts : Nat → OpenHeader
  | 0 => .here
  | n + 1 => .left (lefts n)

/-! ## Decoding: the words of R73, bit by bit from the format CMD32 of R70, in the families of R75 -/

theorem test_decode_housekeeping :
    decode 0b00000000000000000000000000000000#32 = .ok .nop ∧ decode 0b00000000000000000000000000000001#32 = .ok .clear ∧
    decode 0b00000000000000000000000000001011#32 = .ok .rewindIn ∧
    decode 0b00000000000000000000000000001100#32 = .ok .flushOut := by decide

theorem test_decode_counter_and_builder :
    decode 0b00000000000000000000000000000010#32 = .ok .count ∧
    decode 0b00000000000000000000000000000011#32 = .ok .build := by decide

theorem test_decode_header :
    decode 0b00000000000000000000000000000101#32 = .ok .writeMagic ∧
    decode 0b00000000000000000000000000000110#32 = .ok .serialize ∧
    decode 0b00000000000000000000000000001000#32 = .ok .checkMagic ∧
    decode 0b00000000000000000000000000001001#32 = .ok .deserialize := by decide

theorem test_decode_streams :
    decode 0b00000000000000000000000000000100#32 = .ok .genTable ∧
    decode 0b00000000000000000000000000000111#32 = .ok .encode ∧
    decode 0b00000000000000000000000000001010#32 = .ok .decode := by decide

theorem test_decode_composite :
    decode 0b00000000000000000000000000010000#32 = .ok .compress ∧
    decode 0b00000000000000000000000000010001#32 = .ok .decompress := by decide

/-- R71, R74: a reserved opcode at each end of both ranges, and a reserved bit at each end of the field. -/
theorem test_decode_rejects :
    decode 0x0000000D#32 = .error .reservedOpcode ∧ decode 0x0000000F#32 = .error .reservedOpcode ∧
    decode 0x00000012#32 = .error .reservedOpcode ∧ decode 0x000000FF#32 = .error .reservedOpcode ∧
    decode 0x00000102#32 = .error .reservedBits ∧ decode 0x80000000#32 = .error .reservedBits := by decide

theorem test_decodeTableWord :
    decodeTableWord 32 0x00000010 = some .compress ∧ decodeTableWord 8 0x0A = some .decode ∧
    decodeTableWord 32 0x0000000E = none ∧ decodeTableWord 32 0x01000000 = none := by decide

/-- The very next step issues the word. -/
theorem test_withFetchWord :
    holdsAfter (fun t => t.outBits = digits "11111010 11001110 10000010 00000001" && t.host = [])
      (step (State.reset.withFetchWord 32 0x00000005)) = true := by decide +kernel

/-! ## Ill-formed terms are refused -/

theorem test_reserved_field_set : reservedFieldZero 0x00000102#32 = false ∧ reservedFieldZero 0x00000011#32 = true := by decide

theorem test_illegal_words :
    legalWord 0x0000000D#32 = false ∧ legalWord 0x0000000F#32 = false ∧ legalWord 0x00000012#32 = false ∧
    legalWord 0x000000FF#32 = false ∧ legalWord 0x00000100#32 = false ∧ legalWord 0x00000011#32 = true := by decide

theorem test_load_too_long :
    (HostAction.load (List.replicate (2 ^ 64) false)).wellFormed = false ∧ (HostAction.load []).wellFormed = true := by
  refine ⟨?_, rfl⟩
  rw [HostAction.wellFormed, List.length_replicate]
  exact decide_eq_false (lt_irrefl _)

theorem test_commands_wellFormed : Instr.decompress.wellFormed = true := by decide

/-- R7, R54, R55: an access moves 1 to 32 bits. -/
theorem test_field_widths :
    FieldWidth 1 ∧ FieldWidth Config.byteW ∧ FieldWidth Config.symW ∧ FieldWidth Config.magicW ∧ ¬ FieldWidth 0 ∧
    ¬ FieldWidth 33 := by decide

/-! ## Ports (2.1 of the vectors) -/

/-- V-P1, V-P3. -/
theorem test_readBits :
    (readBits 3 (loaded (digits "10100101"))).map (·.1) = some 5 ∧
    (readBits 6 { loaded (digits "10100101") with inPos := 3#64 }).map (·.1) = none := by decide +kernel

/-- V-P5. -/
theorem test_writeBits : (writeBits 9 0x100 State.reset).outBits = digits "100000000" := by decide +kernel

/-! ## Commands -/

/-- V-S10. -/
theorem test_nop : holdsAfter (fun t => statusWord t = 0x02#32) (exec .nop State.reset) = true := by decide +kernel

/-- V-S15. -/
theorem test_nop_refused :
    holdsAfter (fun t => statusWord t = 0x04#32 && errCodeWord t = 0x000D0010#32) (exec .nop (inError [])) = true := by
  decide +kernel

/-- V-S11. -/
theorem test_clear :
    holdsAfter (fun t => statusWord t = 0x02#32 && t.nodeCount = 0#10 && t.root = 0#10 && freqAt t 0x41 = 0#32 && t.inPos = 24#64)
      (exec .clear { tableAAB with freq := Vector.replicate 256 2#32, inPos := 24#64 }) = true := by decide +kernel

/-- V-C1. -/
theorem test_count :
    holdsAfter (fun t => freqAt t 0x41 = 2#32 && freqAt t 0x42 = 1#32 && t.countTotal = 3#32 && t.inPos = 24#64)
      (exec .count (loaded (digits "01000001 01000001 01000010"))) = true := by decide +kernel

/-- V-C3. -/
theorem test_count_partial_byte :
    holdsAfter (fun t => freqAt t 0x41 = 1#32 && errCodeWord t = 0x00020001#32 && t.errInfo = 3#32 && t.inPos = 8#64)
      (exec .count (loaded (digits "01000001 101"))) = true := by decide +kernel

/-- V-B3, V-B9. -/
theorem test_build :
    holdsAfter (fun t => (List.range 5).map (fun i => readAddr (0x1000 + 8 * i) t) =
        [0x84100000#32, 0x84200000#32, 0x90000000#32, 0x00000801#32, 0x00000C00#32] &&
        (List.range 5).map (fun i => readAddr (0x1004 + 8 * i) t) = [2#32, 1#32, 1#32, 2#32, 4#32])
      (exec .build { State.reset with freq := (State.reset.freq.set 0x41 2#32).set 0x42 1#32 }) = true := by decide +kernel

/-- V-B10. -/
theorem test_build_overflow :
    holdsAfter (fun t => errCodeWord t = 0x00030014#32 && t.errInfo = 2#32 && t.nodeCount = 2#10 && !t.treeValid)
      (exec .build { State.reset with freq := State.reset.freq.set 0 0xFFFFFFFF#32 }) = true := by decide +kernel

/-- V-G1. -/
theorem test_genTable :
    holdsAfter (fun t => [0x5040, 0x5044, 0x5080, 0x5084, 0x8000, 0x8004].map (fun a => readAddr a t) =
        [0x80000001#32, 0#32, 0x80000002#32, 2#32, 0x80000002#32, 3#32] && t.tableValid)
      (exec .genTable treeAAB) = true := by decide +kernel

/-- V-G3. -/
theorem test_genTable_no_tree :
    holdsAfter (fun t => errCodeWord t = 0x00040011#32 && t.errInfo = 0#32) (exec .genTable State.reset) = true := by
  decide +kernel

/-- V-H7. -/
theorem test_writeMagic :
    holdsAfter (fun t => t.outBits = digits "11111010 11001110 10000010 00000001") (exec .writeMagic State.reset) = true := by
  decide +kernel

/-- V-H3. -/
theorem test_serialize :
    holdsAfter (fun t => t.outBits = digits "0 1 001000001 0 1 001000010 1 100000000") (exec .serialize treeAAB) = true := by
  decide +kernel

/-- V-H8. -/
theorem test_serialize_no_tree :
    holdsAfter (fun t => errCodeWord t = 0x00060011#32 && t.outBits = []) (exec .serialize State.reset) = true := by
  decide +kernel

/-- V-N1. -/
theorem test_encode :
    holdsAfter (fun t => t.outBits = digits "0 0 10 11" && t.inPos = 24#64)
      (exec .encode { tableAAB with inBits := digits "01000001 01000001 01000010" }) = true := by decide +kernel

/-- R124: the byte 0x43 has no code in the table of V-G1. -/
theorem test_encode_no_code :
    holdsAfter (fun t => t.outBits = digits "0" && t.inPos = 16#64 && errCodeWord t = 0x00070004#32 && t.errInfo = 0x43#32)
      (exec .encode { tableAAB with inBits := digits "01000001 01000011" }) = true := by decide +kernel

/-- V-H9. -/
theorem test_checkMagic :
    holdsAfter (fun t => t.done && t.lastMagic = 0xFACE8201#32 && t.inPos = 32#64)
      (exec .checkMagic (loaded (digits "11111010 11001110 10000010 00000001"))) = true := by decide +kernel

/-- V-H10. -/
theorem test_checkMagic_short :
    holdsAfter (fun t => errCodeWord t = 0x00080202#32 && t.errInfo = 24#32 && t.inPos = 0#64)
      (exec .checkMagic (loaded (digits "11111010 11001110 10000010"))) = true := by decide +kernel

/-- V-H12. -/
theorem test_deserialize :
    holdsAfter (fun t => (List.range 5).map (fun i => readAddr (0x1000 + 8 * i) t) =
        [0x00000801#32, 0x84100000#32, 0x00001003#32, 0x84200000#32, 0x90000000#32] && statusWord t = 0x0A#32 && t.inPos = 32#64)
      (exec .deserialize (loaded (digits "0 1 001000001 0 1 001000010 1 100000000"))) = true := by decide +kernel

/-- V-H13. -/
theorem test_deserialize_short :
    holdsAfter (fun t => errCodeWord t = 0x00090105#32 && t.errInfo = 1#32 && t.inPos = 2#64)
      (exec .deserialize (loaded (digits "0 1 1000"))) = true := by decide +kernel

/-- V-D1, on the tree of V-B3. -/
theorem test_decode :
    holdsAfter (fun t => t.outBits = digits "01000001 01000001 01000010" && t.inPos = 6#64)
      (exec .decode { treeAAB with inBits := digits "0 0 10 11 00" }) = true := by decide +kernel

/-- V-D4, on the tree of V-B3. -/
theorem test_decode_truncated :
    holdsAfter (fun t => t.outBits = digits "01000001 01000001 01000010" && errCodeWord t = 0x000A0003#32 && t.errInfo = 3#32)
      (exec .decode { treeAAB with inBits := digits "0 0 10" }) = true := by decide +kernel

/-- V-S12. -/
theorem test_rewindIn :
    holdsAfter (fun t => t.inPos = 0#64) (exec .rewindIn { loaded (digits "01000001 01000001 01000010") with inPos := 24#64 }) =
      true := by decide +kernel

/-- V-P7, V-P8: OUT of 42 bits and of 48. -/
theorem test_flushOut :
    holdsAfter (fun t => t.outBits = List.replicate 42 true ++ digits "000000")
      (exec .flushOut { State.reset with outBits := List.replicate 42 true }) = true ∧
    holdsAfter (fun t => t.outBits.length = 48) (exec .flushOut { State.reset with outBits := List.replicate 48 true }) = true := by
  decide +kernel

/-- V-S3. -/
theorem test_compress :
    holdsAfter (fun t => bitsToBytes t.outBits =
        [0xFA#8, 0xCE#8, 0x82#8, 0x01#8, 0x48#8, 0x29#8, 0x0B#8, 0x00#8, 0x2C#8] && t.outBits.length = 72)
      (exec .compress (loaded (digits "01000001 01000001 01000010"))) = true := by decide +kernel

/-- V-S9. -/
theorem test_compress_aborts :
    holdsAfter (fun t => errCodeWord t = 0x00020001#32 && t.errInfo = 3#32 && t.outBits = [] && t.inPos = 8#64)
      (exec .compress (loaded (digits "01000001 101"))) = true := by decide +kernel

/-- V-S3. -/
theorem test_decompress :
    holdsAfter (fun t => t.outBits = digits "01000001 01000001 01000010" && t.inPos = 70#64 && statusWord t = 0x0A#32)
      (exec .decompress (loaded (bytesToBits
        [0xFA#8, 0xCE#8, 0x82#8, 0x01#8, 0x48#8, 0x29#8, 0x0B#8, 0x00#8, 0x2C#8]))) = true := by decide +kernel

/-- V-H16. -/
theorem test_decompress_twice_the_same_leaf :
    holdsAfter (fun t => errCodeWord t = 0x00090305#32 && t.errInfo = 0x41#32 && t.inPos = 53#64 && t.nodeCount = 2#10)
      (exec .decompress (loaded (digits "11111010 11001110 10000010 00000001 0 1 001000001 1 001000001"))) = true := by
  decide +kernel

/-! ## The host bus -/

/-- V-X1. -/
theorem test_reset_reads :
    [0x0000, 0x0008, 0x0038, 0x0040, 0x0800, 0x0400, 0x1000, 0x8000, 0x8040].map (fun a => readAddr a State.reset) =
      [0x48554631#32, 0#32, 0#32, 0xFACE8201#32, 1#32, 0#32, 0#32, 0#32, 0#32] := by decide +kernel

/-- V-S13 and V-S14, as steps. -/
theorem test_illegal_commands :
    holdsAfter (fun t => errCodeWord t = 0x000D0010#32 && t.errInfo = 0x0D#32) (step (idle [.memWrite 0x0004 0x0000000D#32])) = true ∧
    holdsAfter (fun t => errCodeWord t = 0x00020010#32 && t.errInfo = 0x102#32) (step (idle [.memWrite 0x0004 0x00000102#32])) = true := by
  decide +kernel

/-- V-X3 and V-X5. -/
theorem test_interrupts :
    holdsAfter (fun t => statusWord t = 0x22#32) (exec .nop { State.reset with doneIE := true }) = true ∧
    holdsAfter (fun t => statusWord t = 0#32 && errCodeWord t = 0x000D0010#32)
      (step { inError [.memWrite 0x0008 0x00000004#32] with errIE := true }) = true := by decide +kernel

/-- V-X2. -/
theorem test_soft_reset :
    holdsAfter (fun t => statusWord t = 0#32 && readAddr 0x0038 t = 0#32 && readAddr 0x0028 t = 3#32)
      (step { tableAAB with inBits := digits "101", host := [.memWrite 0x0014 0x00000001#32] }) = true := by decide +kernel

/-- V-C8, and P3's SETFREQ. -/
theorem test_freq_writes :
    holdsAfter (fun t => readAddr 0x0800 t = 1#32) (step (idle [.memWrite 0x0800 5#32])) = true ∧
    holdsAfter (fun t => freqAt t 0x41 = 5#32) (step (idle [.memWrite 0x0504 5#32])) = true := by decide +kernel

/-- R181, with the end of P2: a run whose last command set DONE succeeds also when the host then clears DONE. -/
theorem test_runSucceeds_done_cleared :
    runSucceeds (idle [issue .nop, .memWrite 0x0008 0x00000002#32]) = true ∧
    holdsAfter (fun t => !t.done) (runProgram (idle [issue .nop, .memWrite 0x0008 0x00000002#32])) = true := by decide +kernel

/-- R181: after an error that is acknowledged the run does not succeed. -/
theorem test_runSucceeds_error_acknowledged :
    runSucceeds (idle [.memWrite 0x0004 0x0000000D#32, ack]) = false ∧
    holdsAfter (fun t => !t.err) (runProgram (idle [.memWrite 0x0004 0x0000000D#32, ack])) = true := by decide +kernel

/-! ## Witnesses: the hypotheses of each obligation that has some can be met, clause by clause -/

/-- The first and the last reserved opcode of each range, and the least and the greatest reserved bit. -/
theorem witness_OnlyTheseWordsAreCommands :
    Ready (idle [.memWrite 0x0004 0x0000000D#32]) ∧ 0x0004 % 65536 / 4 = 1 ∧
    (0x00000100#32).toNat / 256 ≠ 0 ∧ (0x80000000#32).toNat / 256 ≠ 0 ∧
    (0x0D ≤ (0x0000000D#32).toNat % 256 ∧ (0x0000000D#32).toNat % 256 ≤ 0x0F) ∧
    (0x0D ≤ (0x0000000F#32).toNat % 256 ∧ (0x0000000F#32).toNat % 256 ≤ 0x0F) ∧
    0x12 ≤ (0x00000012#32).toNat % 256 ∧ 0x12 ≤ (0x000000FF#32).toNat % 256 := by decide

theorem witness_DecodeInvertsEncode :
    Instr.nop.wellFormed = true ∧ Instr.decompress.wellFormed = true ∧ decode 0x00000011#32 = .ok .decompress := by decide

theorem witness_StepIssuesTheDecodedCommand :
    (idle [.memWrite 0x0007 0x00000010#32]).host = [.memWrite 0x0007 0x00000010#32] ∧ 0x0007 % 65536 / 4 = 1 ∧
    0x10004 % 65536 / 4 = 1 ∧ decode 0x00000010#32 = .ok .compress ∧ (idle []).host = [] := by decide

theorem witness_StickyErrorRefusesCommands :
    (∀ as, (inError as).busy = false ∧ (inError as).err = true ∧ (inError as).host = as) ∧ 0x0004 % 65536 / 4 = 1 ∧
    0 < 256 ∧ 255 < 256 ∧ (0x00000001#32).getLsbD 0 = true ∧ ([] : Bits).length < 2 ^ 64 := by
  refine ⟨fun _ => ⟨rfl, rfl, rfl⟩, ?_⟩
  decide

theorem witness_BusyBlockIgnoresWrites :
    (∀ as, (busyState as).busy = true ∧ (busyState as).host = as) ∧ 0x0004 % 65536 / 4 ≠ 5 ∧ 0x0010 % 65536 / 4 ≠ 5 ∧
    0x0018 % 65536 / 4 ≠ 5 ∧ (0xFFFFFFFF#32).getLsbD 0 = true := by
  refine ⟨fun _ => ⟨rfl, rfl⟩, ?_⟩
  decide

theorem witness_ControlRegistersRead :
    State.reset.inBits.length < 2 ^ 64 ∧ State.reset.outBits.length < 2 ^ 64 ∧ (idle [.memRead 0x0000]).busy = false ∧
    0x0000 % 65536 / 4 ∈ [0, 3, 4, 8, 9, 10, 11, 12, 13, 14, 15, 16, 17, 18] ∧
    0x0048 % 65536 / 4 ∈ [0, 3, 4, 8, 9, 10, 11, 12, 13, 14, 15, 16, 17, 18] := by decide

/-- The greatest length a port may have. -/
theorem witness_ControlRegistersRead_longest :
    ∃ s : State, s.inBits.length < 2 ^ 64 ∧ s.outBits.length < 2 ^ 64 ∧ s.inBits.length = 2 ^ 64 - 1 :=
  have h : (loaded (List.replicate (2 ^ 64 - 1) false)).inBits.length = 2 ^ 64 - 1 :=
    (congrArg List.length (inBits_loaded _)).trans List.length_replicate
  ⟨loaded (List.replicate (2 ^ 64 - 1) false), h.trans_lt (by norm_num), Nat.two_pow_pos 64, h⟩

theorem witness_StatusWriteAcknowledges :
    (inError [.memWrite 0x0008 0x00000004#32]).busy = false ∧
    (inError [.take]).host = [.take] ∧ HostAction.take ≠ .reset ∧ (∃ t, step (inError [.take]) = .next t) ∧
    (HostAction.memWrite 0x0008 0#32 ≠ .reset ∧ 0x0008 % 65536 / 4 ≠ 1 ∧ 0x0008 % 65536 / 4 ≠ 5) ∧
    (inError [.reset]).host = .reset :: [] ∧
    ((0x00000001#32).getLsbD 0 = true ∧
      (inError [.memWrite 0x0014 0x00000001#32]).host = .memWrite 0x0014 0x00000001#32 :: []) := by
  refine ⟨rfl, rfl, by decide, ⟨_, rfl⟩, by decide, rfl, by decide, rfl⟩

theorem witness_IntEnStoresTwoBits :
    (idle [.memWrite 0x0018 0x00000003#32]).busy = false ∧ (0x00000002#32).getLsbD 0 = false ∧
    (0x00000001#32).getLsbD 1 = false := by decide

theorem witness_FreqWindow :
    (idle [.memWrite (0x0400 + 4 * 255) 9#32]).busy = false ∧ 255 < 256 ∧ 0 < 256 ∧ 0 ≠ 255 ∧
    (idle [.memWrite 0x0800 9#32]).host = [.memWrite 0x0800 9#32] := by decide

/-- The last entry in use, the first that is not, and the last of the window. -/
theorem witness_NodeWindow :
    4 < 513 ∧ 4 < treeAAB.nodeCount.toNat ∧ 5 < 513 ∧ treeAAB.nodeCount.toNat ≤ 5 ∧ 512 < 513 ∧
    treeAAB.nodeCount.toNat ≤ 512 ∧ (idle [.memWrite (0x1000 + 8 * 512) 9#32]).host = [.memWrite (0x1000 + 8 * 512) 9#32] := by
  decide +kernel

theorem witness_CodeWindow :
    0 < 257 ∧ 256 < 257 ∧ tableAAB.tableValid = true ∧ treeAAB.tableValid = false ∧ 7 < 8 ∧ 0x24 ≤ 0x24 ∧ 0x3C < 0x40 ∧
    (idle [.memWrite (0x4000 + 64 * 256 + 0x3C) 9#32]).host = [.memWrite (0x4000 + 64 * 256 + 0x3C) 9#32] := by decide

/-- The first and the last word of every gap of the map. -/
theorem witness_UnmappedAddresses :
    0x001F % 65536 / 4 * 4 = 0x001C ∧ (∀ a ∈ [0x004C, 0x03FC], 0x004C ≤ a % 65536 ∧ a % 65536 < 0x0400) ∧
    (∀ a ∈ [0x0804, 0x0FFC], 0x0804 ≤ a % 65536 ∧ a % 65536 < 0x1000) ∧
    (∀ a ∈ [0x2008, 0x3FFC], 0x2008 ≤ a % 65536 ∧ a % 65536 < 0x4000) ∧ (∀ a ∈ [0x8040, 0xFFFC], 0x8040 ≤ a % 65536) := by
  decide

/-- The last word in front of each register that can be written, and the first behind it. -/
theorem witness_HostBusAccesses :
    0x10007 % 65536 / 4 = 0x0004 % 65536 / 4 ∧
    (∀ a ∈ [0x0000, 0x000C, 0x0010, 0x001C, 0x03FC, 0x0800],
      a % 65536 / 4 ∉ [1, 2, 5, 6] ∧ ¬ (0x0400 ≤ a % 65536 ∧ a % 65536 < 0x0800)) ∧
    (idle [.memRead 0x0000]).host = [.memRead 0x0000] := by decide

theorem witness_ResetReads : treeAAB.inBits.length < 2 ^ 64 ∧ treeAAB.outBits.length < 2 ^ 64 := by decide

theorem witness_ResetSetsTheBlock :
    (inError [.reset]).host = .reset :: [] ∧
    ((0xFFFFFFFF#32).getLsbD 0 = true ∧ (idle [.memWrite 0x0014 0xFFFFFFFF#32]).host = [.memWrite 0x0014 0xFFFFFFFF#32]) ∧
    ((0xFFFFFFFE#32).getLsbD 0 = false ∧ (idle [.memWrite 0x0014 0xFFFFFFFE#32]).host = [.memWrite 0x0014 0xFFFFFFFE#32]) := by
  decide

theorem witness_PortActions :
    (busyState [.load []]).busy = true ∧ (busyState [.take]).busy = true ∧ (idle [.take]).busy = false ∧
    (idle [.load (List.replicate (2 ^ 64 - 1) true)]).busy = false ∧ (List.replicate (2 ^ 64 - 1) true).length < 2 ^ 64 ∧
    2 ^ 64 ≤ (List.replicate (2 ^ 64) true).length := by
  refine ⟨rfl, rfl, rfl, rfl, ?_, ?_⟩
  · rw [List.length_replicate]; norm_num
  · rw [List.length_replicate]

theorem witness_ByteFileBitOrder :
    0 < [0x80#8, 0x01#8].length ∧ 1 < [0x80#8, 0x01#8].length ∧ 7 < 8 ∧ (digits "00000001").length % 8 = 0 ∧
    0 < (bitsToBytes (digits "00000001")).length := by decide +kernel

theorem witness_PortsHaveOneWriter :
    (∃ t, step (idle [.load [true]]) = .next t ∧ t.inBits = [true]) ∧ (∃ t, step (idle [.take]) = .next t) ∧
    (∃ t, step (idle [issue .writeMagic]) = .next t) := ⟨⟨_, rfl, rfl⟩, ⟨_, rfl⟩, ⟨_, rfl⟩⟩

/-- Two states that differ in a node entry that is not in use and in a code entry. -/
theorem witness_HiddenContentsUnobservable :
    ∃ s s' : State, s ≠ s' ∧ s' = { s with nodes := s'.nodes, codes := s'.codes } ∧
      (∀ i < s.nodeCount.toNat, nodeAt s' i = nodeAt s i) ∧
      (s.tableValid = true → ∀ sym < 257, codeAt s' sym = codeAt s sym) :=
  ⟨State.reset, { State.reset with nodes := Vector.replicate 513 ⟨true, 1#9, 2#10, 3#10, 4#32⟩ },
    fun h => absurd (congrArg (fun s => nodeAt s 0) h) (by decide +kernel), rfl, fun i h => absurd h i.not_lt_zero,
    fun h => absurd h (by decide)⟩

/-! ### Commands -/

theorem witness_FrameOfRegisterCommands :
    ∀ i ∈ [Instr.nop, Instr.clear, Instr.rewindIn, Instr.count], ∃ t, exec i State.reset = .next t ∧ t.done = true := by
  intro i hi
  apply exists_next (p := fun t => t.done)
  revert i
  decide +kernel

theorem witness_FrameOfRegisterCommands_checkMagic :
    ∃ t, exec .checkMagic (loaded (digits "11111010 11001110 10000010 00000001")) = .next t ∧ t.done = true :=
  exists_next (p := fun t => t.done) (by decide +kernel)

theorem witness_FrameOfTreeCommands :
    (∃ t, exec .build State.reset = .next t ∧ t.done = true) ∧ (∃ t, exec .genTable treeAAB = .next t ∧ t.done = true) ∧
    (∃ t, exec .deserialize (loaded (digits "1 100000000")) = .next t ∧ t.done = true) :=
  ⟨exists_next (p := fun t => t.done) (by decide +kernel), exists_next (p := fun t => t.done) (by decide +kernel),
    exists_next (p := fun t => t.done) (by decide +kernel)⟩

theorem witness_FrameOfStreamCommands :
    (∀ i ∈ [Instr.flushOut, Instr.writeMagic, Instr.serialize, Instr.encode], ∃ t, exec i tableAAB = .next t ∧ t.done = true) ∧
    ∃ t, exec .decode { treeAAB with inBits := digits "0 11" } = .next t ∧ t.done = true := by
  refine ⟨fun i hi => exists_next (p := fun t => t.done) ?_, exists_next (p := fun t => t.done) (by decide +kernel)⟩
  revert i
  decide +kernel

theorem witness_FrameOfCompositeCommands :
    (∃ t, exec .compress State.reset = .next t ∧ t.done = true) ∧
    ∃ t, exec .decompress (loaded (digits "11111010 11001110 10000010 00000001 1 100000000")) = .next t ∧ t.done = true :=
  ⟨exists_next (p := fun t => t.done) (by decide +kernel), exists_next (p := fun t => t.done) (by decide +kernel)⟩

theorem witness_NopCompletes : Ready State.reset ∧ (inError []).err = true := by decide

theorem witness_ClearEmptiesTheTables : Ready tableAAB ∧ 0x1000 ≤ 0x1000 ∧ 0x803C < 0x8040 := by decide

theorem witness_RewindInResetsTheCursor : Ready { loaded (digits "1") with inPos := 1#64 } := by decide

theorem witness_FlushOutPads : Ready { State.reset with outBits := [true] } := by decide

theorem witness_WriteMagicAppends : Ready { State.reset with outBits := [true] } := by decide

/-- The longest byte file COUNT accepts, of bytes that are all the same. -/
def longest : List Byte := List.replicate (2 ^ 32 - 2) 0#8

theorem length_longest : longest.length = 2 ^ 32 - 2 := List.length_replicate

theorem portOk_loaded {b : Bits} (h : b.length < 2 ^ 64) : PortOk (loaded b) := ⟨h, Nat.zero_le _⟩

theorem witness_CountCountsTheBytes :
    (Ready (loaded []) ∧ PortOk (loaded []) ∧ remaining (loaded []) = bytesToBits [] ∧ ([] : List Byte).length ≤ 2 ^ 32 - 2) ∧
    (Ready (loaded (bytesToBits longest)) ∧ PortOk (loaded (bytesToBits longest)) ∧
      remaining (loaded (bytesToBits longest)) = bytesToBits longest ∧ longest.length ≤ 2 ^ 32 - 2) :=
  ⟨by decide, ⟨rfl, rfl⟩, portOk_loaded (by rw [length_bytesToBits, length_longest]; norm_num), rfl, length_longest.le⟩

/-- A tail of one bit and of seven; one byte too many; and the counts of the longest file. -/
theorem witness_CountErrors :
    (∀ tail ∈ [digits "1", digits "1111111"], Ready (loaded (bytesToBits [0x41#8] ++ tail)) ∧
      PortOk (loaded (bytesToBits [0x41#8] ++ tail)) ∧
      remaining (loaded (bytesToBits [0x41#8] ++ tail)) = bytesToBits [0x41#8] ++ tail ∧ tail ≠ [] ∧ tail.length < 8) ∧
    (let b := bytesToBits longest ++ (bytesToBits [0xFF#8] ++ [])
     Ready (loaded b) ∧ PortOk (loaded b) ∧ remaining (loaded b) = b ∧ longest.length = 2 ^ 32 - 2) ∧
    (let s := { State.reset with freq := countsOf longest }
     s.freq = countsOf longest ∧ longest.length ≤ 2 ^ 32 - 2) :=
  ⟨by decide +kernel,
    ⟨⟨rfl, rfl⟩, portOk_loaded (by
      rw [List.length_append, List.length_append, length_bytesToBits, length_bytesToBits, length_longest]; norm_num),
      rfl, length_longest⟩,
    rfl, length_longest.le⟩

/-- The state after reset with these counts. -/
def counting (f : Vector Word 256) : State := { State.reset with freq := f }

/-- V-C1: the counts of the bytes `41 41 42`. -/
def countsAAB : Vector Word 256 := (State.reset.freq.set 0x41 2#32).set 0x42 1#32

theorem totalCount_eq_freqList (s : State) : totalCount s = ((freqList s).map fun e => e.1.toNat).sum := by
  obtain ⟨h1, h2⟩ := freqList_spec s
  rw [totalCount, ← h1, List.map_map]
  exact congrArg List.sum (List.map_congr_left fun e he => by rw [h2 e he]; rfl)

theorem usedSymbols_countsAAB : usedSymbols (counting countsAAB) = [0x41, 0x42, 256] := by
  rw [← used_of_freqList]
  decide +kernel

theorem totalCount_countsAAB : totalCount (counting countsAAB) = 4 := by
  rw [totalCount_eq_freqList]
  decide +kernel

/-- V-B11, V-B10: the greatest sum that fits. -/
theorem witness_BuildMergesTheTwoLeast :
    Ready (counting (State.reset.freq.set 0 0xFFFFFFFE#32)) ∧
    totalCount (counting (State.reset.freq.set 0 0xFFFFFFFE#32)) ≤ 2 ^ 32 - 1 := by
  rw [totalCount_eq_freqList]
  decide +kernel

/-- V-B3 has three leaves and five nodes: the last leaf, the first internal node and the last. -/
theorem witness_BuildMergesTheTwoLeast_clauses :
    Ready (counting countsAAB) ∧ totalCount (counting countsAAB) ≤ 2 ^ 32 - 1 ∧ 2 < (usedSymbols (counting countsAAB)).length ∧
    (usedSymbols (counting countsAAB)).length ≤ 3 ∧ 4 < 2 * (usedSymbols (counting countsAAB)).length - 1 := by
  rw [usedSymbols_countsAAB, totalCount_countsAAB]
  decide

/-- BuildShape and BuildIsOptimal: the fewest symbols that get a leaf. -/
theorem witness_BuildShape :
    Ready (counting State.reset.freq) ∧ totalCount (counting State.reset.freq) ≤ 2 ^ 32 - 1 ∧
    (usedSymbols (counting State.reset.freq)).length = 1 := by
  rw [totalCount_eq_freqList, ← used_of_freqList]
  decide +kernel

/-- The most symbols that get a leaf. -/
theorem witness_BuildShape_all_symbols :
    Ready (counting (Vector.replicate 256 1#32)) ∧ totalCount (counting (Vector.replicate 256 1#32)) ≤ 2 ^ 32 - 1 ∧
    (usedSymbols (counting (Vector.replicate 256 1#32))).length = 257 := by
  rw [totalCount_eq_freqList, ← used_of_freqList]
  decide +kernel

/-- A prefix code for the symbols of a state with three of them, as BuildIsOptimal asks for one. -/
theorem witness_BuildIsOptimal :
    let code : Nat → Bits := fun sym => if sym = 0x41 then digits "0" else if sym = 0x42 then digits "10" else digits "11"
    Ready (counting countsAAB) ∧ totalCount (counting countsAAB) ≤ 2 ^ 32 - 1 ∧
      ∀ a ∈ usedSymbols (counting countsAAB), ∀ b ∈ usedSymbols (counting countsAAB), a ≠ b → ¬ code a <+: code b := by
  rw [usedSymbols_countsAAB, totalCount_countsAAB]
  decide +kernel

/-- V-B10: the error. -/
theorem witness_BuildWeightOverflow :
    Ready (counting (State.reset.freq.set 0 0xFFFFFFFF#32)) ∧
    2 ^ 32 - 1 < totalCount (counting (State.reset.freq.set 0 0xFFFFFFFF#32)) := by
  rw [totalCount_eq_freqList]
  decide +kernel

/-- The rest: no error, and a COUNT that completes. -/
theorem witness_BuildWeightOverflow_none :
    (Ready (counting countsAAB) ∧ totalCount (counting countsAAB) ≤ 2 ^ 32 - 1) ∧
    Ready (loaded (digits "01000001")) ∧ PortOk (loaded (digits "01000001")) ∧
    ∃ t, exec .count (loaded (digits "01000001")) = .next t ∧ t.err = false := by
  rw [totalCount_countsAAB]
  refine ⟨by decide, by decide, by decide, ?_⟩
  obtain ⟨t, ht, he⟩ := exists_next (p := fun t => !t.err) (o := exec .count (loaded (digits "01000001"))) (by decide +kernel)
  exact ⟨t, ht, by simpa using he⟩

theorem witness_BuildOfNoBytes : Ready State.reset ∧ ∀ sym < 256, freqAt State.reset sym = 0#32 :=
  ⟨by decide, fun sym h => by simp [freqAt, State.reset, Config.eofSym, h.ne, h]⟩

/-- Two states with the same counts and different trees. -/
theorem witness_BuildIsAFunctionOfFreq :
    Ready State.reset ∧ Ready treeAAB ∧ treeAAB.freq = State.reset.freq ∧ (∃ t, exec .build State.reset = .next t ∧ t.done = true) ∧
    ∃ t, exec .build treeAAB = .next t ∧ t.done = true :=
  ⟨by decide, by decide, rfl, exists_next (p := fun t => t.done) (by decide +kernel),
    exists_next (p := fun t => t.done) (by decide +kernel)⟩

/-- GenTableStoresThePaths, SerializeWritesTheHeader and CodesArePrefixFree: a tree of three leaves, with its paths, a symbol that
is not in it, and a tree of one leaf. -/
theorem witness_GenTableStoresThePaths :
    (Ready treeAAB ∧ treeAAB.treeValid = true ∧ TreeIs treeAAB shapeAAB ∧ (0x42, digits "10") ∈ shapeAAB.leaves ∧
      0x43 ∉ shapeAAB.symbols) ∧
    (Ready (rootLeaf 256) ∧ (rootLeaf 256).treeValid = true ∧ TreeIs (rootLeaf 256) (.leaf 0 256)) := by decide +kernel

theorem witness_CodesArePrefixFree :
    (∃ t, exec .genTable treeAAB = .next t ∧ ((codeAt t 0x41).valid && (codeAt t 256).valid) = true) ∧ 0 < 257 ∧ 256 < 257 :=
  ⟨exists_next (p := fun t => (codeAt t 0x41).valid && (codeAt t 256).valid) (by decide +kernel), by decide, by decide⟩

theorem witness_SerializeWritesTheHeader :
    (∀ sym ∈ shapeAAB.symbols, sym ≤ 256) ∧ (∀ sym ∈ (shapeAAB.preorder 0).symbols, sym ≤ 256) ∧
    shapeAAB.header ++ digits "1" = (shapeAAB.preorder 0).header ++ digits "1" := by decide +kernel

theorem witness_PreconditionErrors :
    Ready State.reset ∧ State.reset.treeValid = false ∧ State.reset.tableValid = false := by decide

theorem witness_EncodeWritesTheCodes :
    let s := { tableAAB with inBits := bytesToBits [0x41#8, 0x42#8] }
    Ready s ∧ PortOk s ∧ s.tableValid = true ∧ remaining s = bytesToBits [0x41#8, 0x42#8] ∧
      (∀ b ∈ [0x41#8, 0x42#8], (codeAt s b.toNat).valid = true) ∧ (codeAt s 256).valid = true := by decide +kernel

/-- A byte without a code; no code for the end-of-stream symbol; a tail of one bit and of seven. -/
theorem witness_EncodeErrors :
    (let s := { tableAAB with inBits := bytesToBits [0x41#8] ++ (bytesToBits [0xFF#8] ++ []) }
     Ready s ∧ PortOk s ∧ s.tableValid = true ∧ (∀ b ∈ [0x41#8], (codeAt s b.toNat).valid = true) ∧
       remaining s = bytesToBits [0x41#8] ++ (bytesToBits [0xFF#8] ++ []) ∧ (codeAt s (0xFF#8).toNat).valid = false) ∧
    (let s := { tableAAB with inBits := bytesToBits [0x41#8], codes := tableAAB.codes.set 256 Code.none }
     Ready s ∧ PortOk s ∧ s.tableValid = true ∧ (∀ b ∈ [0x41#8], (codeAt s b.toNat).valid = true) ∧
       remaining s = bytesToBits [0x41#8] ∧ (codeAt s 256).valid = false) ∧
    (∀ tail ∈ [digits "0", digits "0000000"],
      let s := { tableAAB with inBits := bytesToBits [0x41#8] ++ tail }
      Ready s ∧ PortOk s ∧ s.tableValid = true ∧ (∀ b ∈ [0x41#8], (codeAt s b.toNat).valid = true) ∧
        remaining s = bytesToBits [0x41#8] ++ tail ∧ tail ≠ [] ∧ tail.length < 8) := by decide +kernel

/-- The marker with nothing behind it; a word one bit off; 31 bits, and none. -/
theorem witness_CheckMagicComparesTheMarker :
    (let s := loaded (bytesToBits [0xFA#8, 0xCE#8, 0x82#8, 0x01#8] ++ [])
     Ready s ∧ PortOk s ∧ remaining s = bytesToBits [0xFA#8, 0xCE#8, 0x82#8, 0x01#8] ++ []) ∧
    (let s := loaded (spell 32 (0xFACE8200#32).toNat ++ [])
     Ready s ∧ PortOk s ∧ remaining s = spell 32 (0xFACE8200#32).toNat ++ [] ∧ 0xFACE8200#32 ≠ 0xFACE8201#32) ∧
    (∀ n ∈ [0, 31], Ready (loaded (List.replicate n true)) ∧ PortOk (loaded (List.replicate n true)) ∧
      (remaining (loaded (List.replicate n true))).length < 32) := by decide +kernel

theorem witness_DeserializeReadsTheHeader :
    let s := loaded (shapeAAB.header ++ digits "1")
    Ready s ∧ PortOk s ∧ remaining s = shapeAAB.header ++ digits "1" ∧ (∀ sym ∈ shapeAAB.symbols, sym ≤ 256) ∧
      shapeAAB.symbols.Nodup := by decide +kernel

/-- The symbols 257 and 511 behind one flag bit 0. -/
theorem witness_DeserializeRefusals_symbol :
    ∀ v ∈ [257, 511], let o := OpenHeader.left .here
      let s := loaded (o.bits ++ (true :: (spell 9 v ++ [])))
      Ready s ∧ PortOk s ∧ o.nodes ≤ 513 ∧ (∀ sym ∈ o.symbols, sym ≤ 256) ∧ o.symbols.Nodup ∧
        remaining s = o.bits ++ (true :: (spell 9 v ++ [])) ∧ 256 < v ∧ v < 512 := by decide +kernel

/-- V-H16: a leaf again. -/
theorem witness_DeserializeRefusals_again :
    let o := OpenHeader.right (.leaf 0 0x41) .here
    let s := loaded (o.bits ++ (true :: (spell 9 0x41 ++ [])))
    Ready s ∧ PortOk s ∧ o.nodes ≤ 513 ∧ (∀ sym ∈ o.symbols, sym ≤ 256) ∧ o.symbols.Nodup ∧
      remaining s = o.bits ++ (true :: (spell 9 0x41 ++ [])) ∧ 0x41 ∈ o.symbols := by decide +kernel

/-- V-H17: 513 nodes, and then one more flag bit 0, or a leaf. -/
theorem witness_DeserializeRefusals_capacity :
    ∀ b : Bool, let o := lefts 513
      let s := loaded (o.bits ++ ((if b then true :: spell 9 256 else [false]) ++ []))
      Ready s ∧ PortOk s ∧ o.nodes = 513 ∧ (∀ sym ∈ o.symbols, sym ≤ 256) ∧ o.symbols.Nodup ∧ 256 ∉ o.symbols ∧
        remaining s = o.bits ++ ((if b then true :: spell 9 256 else [false]) ++ []) := by decide +kernel

/-- No bit at all, and a leaf flag with no and with eight bits of its symbol. -/
theorem witness_DeserializeRefusals_short :
    (let s := loaded ([] ++ [])
     Ready s ∧ PortOk s ∧ OpenHeader.here.nodes ≤ 513 ∧ OpenHeader.here.symbols.Nodup ∧
       remaining s = OpenHeader.here.bits ++ []) ∧
    (∀ r ∈ [[], List.replicate 8 true], let o := OpenHeader.left .here
      let s := loaded (o.bits ++ true :: r)
      Ready s ∧ PortOk s ∧ o.nodes ≤ 513 ∧ o.symbols.Nodup ∧ remaining s = o.bits ++ true :: r ∧ r.length < 9) := by
  decide +kernel

theorem witness_HeaderRoundTrip :
    Ready treeAAB ∧ treeAAB.treeValid = true ∧ TreeIs treeAAB shapeAAB ∧ treeAAB.outBits = [] := by decide +kernel

theorem witness_DecodeReadsTheStream :
    let s := { treeAAB with inBits := pathsOf shapeAAB [0x41#8, 0x42#8] ++ (digits "11" ++ digits "0") }
    Ready s ∧ PortOk s ∧ s.treeValid = true ∧ TreeIs s shapeAAB ∧ (∀ b ∈ [0x41#8, 0x42#8], b.toNat ∈ shapeAAB.symbols) ∧
      shapeAAB.path 256 = some (digits "11") ∧
      remaining s = pathsOf shapeAAB [0x41#8, 0x42#8] ++ (digits "11" ++ digits "0") := by decide +kernel

theorem witness_DecodeOfARootLeaf :
    ∀ sym ∈ [256, 0, 255], Ready (rootLeaf sym) ∧ (rootLeaf sym).treeValid = true ∧ TreeIs (rootLeaf sym) (.leaf 0 sym) := by
  decide +kernel

/-- A break in front of a path and inside one; and a tree without an end-of-stream leaf. -/
theorem witness_DecodeTruncation :
    (∀ b ∈ [[], digits "1"], let s := { treeAAB with inBits := pathsOf shapeAAB [0x41#8] ++ b }
      Ready s ∧ PortOk s ∧ s.treeValid = true ∧ TreeIs s shapeAAB ∧ (∀ c ∈ [0x41#8], c.toNat ∈ shapeAAB.symbols) ∧
        remaining s = pathsOf shapeAAB [0x41#8] ++ b) ∧
    (0x42, [] ++ digits "10") ∈ shapeAAB.leaves ∧ (0x42, digits "1" ++ digits "0") ∈ shapeAAB.leaves ∧
    (let s := withNodes 0 [⟨false, 0#9, 1#10, 2#10, 0#32⟩, ⟨true, 0x41#9, 0#10, 0#10, 0#32⟩, ⟨true, 0x42#9, 0#10, 0#10, 0#32⟩]
     Ready s ∧ PortOk s ∧ s.treeValid = true ∧ TreeIs s (.node 0 (.leaf 1 0x41) (.leaf 2 0x42)) ∧
       (CodeTree.node 0 (.leaf 1 0x41) (.leaf 2 0x42)).path 256 = none) := by decide +kernel

/-- The errors of COUNT and of CHECK_MAGIC inside the composites. -/
theorem witness_CompositesAreTheirSteps :
    Ready (loaded (digits "1")) ∧ (∃ t, exec .compress (loaded (digits "1")) = .next t ∧ t.err = true) ∧
    ∃ t, exec .decompress (loaded (digits "1")) = .next t ∧ t.err = true :=
  ⟨by decide, exists_next (p := fun t => t.err) (by decide +kernel), exists_next (p := fun t => t.err) (by decide +kernel)⟩

/-- CompressWritesTheFormat and CompressedSize: the shortest file and the longest. -/
theorem witness_CompressWritesTheFormat :
    (Ready (loaded []) ∧ (loaded []).inBits = bytesToBits [] ∧ ([] : List Byte).length ≤ 2 ^ 32 - 2) ∧
    (Ready (loaded (bytesToBits longest)) ∧ (loaded (bytesToBits longest)).inBits = bytesToBits longest ∧
      longest.length ≤ 2 ^ 32 - 2) :=
  ⟨by decide, ⟨rfl, rfl⟩, rfl, length_longest.le⟩

theorem witness_DecompressReadsTheFormat :
    let s := loaded (bytesToBits [0xFA#8, 0xCE#8, 0x82#8, 0x01#8] ++ (shapeAAB.header ++ (pathsOf shapeAAB [0x41#8] ++
      (digits "11" ++ digits "0"))))
    Ready s ∧ s.inBits.length < 2 ^ 64 ∧ (∀ sym ∈ shapeAAB.symbols, sym ≤ 256) ∧ shapeAAB.symbols.Nodup ∧
      (∀ b ∈ [0x41#8], b.toNat ∈ shapeAAB.symbols) ∧ shapeAAB.path 256 = some (digits "11") := by decide +kernel

theorem witness_RoundTrip :
    ∀ bs ∈ [[], longest], let s := idle [loadBytes bs, .take, issue .compress, .take]
      Ready s ∧ bs.length ≤ 2 ^ 32 - 2 ∧ s.host = loadBytes bs :: .take :: issue .compress :: .take :: [] := by
  intro bs hbs
  refine ⟨⟨rfl, rfl⟩, ?_, rfl⟩
  obtain rfl | rfl : bs = [] ∨ bs = longest := by simpa using hbs
  · exact Nat.zero_le _
  · exact length_longest.le

/-- An error and a completion. -/
theorem witness_ErrorsOfEachCommand :
    Ready State.reset ∧ PortOk State.reset ∧ (∃ t, exec .decode State.reset = .next t ∧ t.err = true) ∧
    ∃ t, exec .nop State.reset = .next t ∧ (!t.err) = true :=
  ⟨by decide, by decide, exists_next (p := fun t => t.err) (by decide +kernel),
    exists_next (p := fun t => !t.err) (by decide +kernel)⟩

/-- The tree of V-B3 with its code table as R49 has it. -/
def ruledAAB : State := { treeAAB with tableValid := true, codes := tableOf shapeAAB }

/-- A state with a tree and its table, which a command starts from, and one with an error, from which none does. -/
theorem witness_EveryCommandTerminates :
    (Inv ruledAAB ∧ Ready ruledAAB) ∧ (Inv (inError []) ∧ ¬ Ready (inError [])) :=
  have h : TreeIs ruledAAB shapeAAB := by decide +kernel
  ⟨⟨{ idle := rfl
      doneOrErr := by decide
      doneClean := fun h => absurd h (by decide)
      codes := by decide
      port := by decide
      nodeCount := by decide +kernel
      countTotal := by decide
      tree := fun _ => ⟨shapeAAB, h⟩
      table := fun _ => ⟨rfl, shapeAAB, h, codeAt_tableOf rfl⟩ }, by decide⟩,
    { idle := rfl
      doneOrErr := by decide
      doneClean := fun h => absurd h (by decide)
      codes := by decide
      port := by decide
      nodeCount := by decide
      countTotal := by decide
      tree := fun h => absurd h (by decide)
      table := fun h => absurd h (by decide) }, by decide⟩

/-- A host program of every kind of action, and one whose last command is followed by another action. -/
theorem witness_EveryCommandTerminates_programs :
    (let s := { ruledAAB with host := [issue .serialize, .memRead 0x0008, .take, loadBytes [0x41#8], .reset] }
     Inv s ∧ ∀ a ∈ s.host, a.wellFormed = true) ∧
    (let s := { ruledAAB with host := [issue .serialize, .memWrite 0x0008 0x00000002#32] }
     Inv s ∧ Ready s ∧ s.host = issue .serialize :: [.memWrite 0x0008 0x00000002#32] ∧
       (∀ a ∈ [HostAction.memWrite 0x0008 0x00000002#32], a.wellFormed = true ∧ issuesCommand a = false) ∧
       ∃ t, exec .serialize (popAction [.memWrite 0x0008 0x00000002#32] s) = .next t ∧ t.done = true) :=
  ⟨⟨witness_EveryCommandTerminates.1.1.congr rfl id id rfl rfl rfl rfl (by decide) rfl rfl, by decide⟩,
    ⟨witness_EveryCommandTerminates.1.1.congr rfl id id rfl rfl rfl rfl (by decide) rfl rfl, by decide, rfl, by decide,
      exists_next (p := fun t => t.done) (by decide +kernel)⟩⟩

/-- A state with a tree and its table whose next step issues SERIALIZE. -/
theorem witness_StepKeepsTheInvariant :
    Inv { ruledAAB with host := [issue .serialize] } ∧
    ∃ t, step { ruledAAB with host := [issue .serialize] } = .next t ∧ t.done = true :=
  ⟨witness_EveryCommandTerminates.1.1.congr rfl id id rfl rfl rfl rfl (by decide) rfl rfl,
    exists_next (p := fun t => t.done) (by decide +kernel)⟩

end Sys2Proof.Tests
end

section
/-!
PROOFS. O38: BUILD's tree has the least weighted length of all prefix codes (R98).
-/

namespace Sys2Proof.Machine

/-! ## The lengths that a prefix code gives the leaves -/

/-- No word of a prefix code for distinct symbols is a prefix of another, in the sense that Kraft's inequality asks for. -/
theorem prefixFree_map {ss : List Nat} {code : Nat → Bits} (hs : ss.Nodup)
    (hc : ∀ a ∈ ss, ∀ b ∈ ss, a ≠ b → ¬ code a <+: code b) : PrefixFree (ss.map code) :=
  List.pairwise_map.mpr <| hs.pairwise_of_forall_ne fun a ha b hb hab => ⟨hc a ha b hb hab, hc b hb a ha hab.symm⟩

/-- Kraft's inequality for the lengths of a prefix code. -/
theorem kraft_map_length_le_one {ss : List Nat} {code : Nat → Bits} (hs : ss.Nodup)
    (hc : ∀ a ∈ ss, ∀ b ∈ ss, a ≠ b → ¬ code a <+: code b) : kraft (ss.map fun sym => (code sym).length) ≤ 1 := by
  have h := kraft_le_one ((ss.map code).map List.length).sum
    (fun c hmem => List.le_sum_of_mem (List.mem_map_of_mem hmem)) (prefixFree_map hs hc)
  rwa [List.map_map] at h

/-- Leaves that are given a length each cost the sum of weight times length, since a leaf costs nothing inside. -/
theorem exists_sized_leaves (wt len : Nat → Nat) {f : List CodeTree} (hf : ∀ t ∈ f, ∃ i sym, t = .leaf i sym) :
    ∃ ps : List Sized, ps.map Prod.fst = f ∧ ps.map Prod.snd = (f.flatMap CodeTree.symbols).map len ∧
      cost wt ps = ((f.flatMap CodeTree.symbols).map fun sym => wt sym * len sym).sum := by
  induction f with
  | nil => exact ⟨[], rfl, rfl, rfl⟩
  | cons t f ih =>
    obtain ⟨i, sym, rfl⟩ := hf t (by simp)
    obtain ⟨ps, hfst, hsnd, hcost⟩ := ih fun u hu => hf u (by simp [hu])
    have hsym : (CodeTree.leaf i sym).symbols = [sym] := rfl
    refine ⟨(.leaf i sym, len sym) :: ps, by simp [hfst], by simp [hsym, hsnd], ?_⟩
    simp [hsym, hcost, pathLength_leaf, CodeTree.weight]

/-- Merging BUILD's leaves costs no more than any prefix code for their symbols (R98). -/
theorem Merges.pathLength_le_prefix_code {wt : Nat → Nat} {s : State} {t : CodeTree} (h : Merges wt (buildLeaves s) t)
    {code : Nat → Bits} (hc : ∀ a ∈ usedSymbols s, ∀ b ∈ usedSymbols s, a ≠ b → ¬ code a <+: code b) :
    t.pathLength wt ≤ ((usedSymbols s).map fun sym => wt sym * (code sym).length).sum := by
  obtain ⟨ps, hfst, hsnd, hcost⟩ := exists_sized_leaves wt (fun sym => (code sym).length)
    (f := buildLeaves s) fun t ht => leavesFrom_isLeaf ht
  rw [buildLeaves_symbols] at hsnd hcost
  rw [← hcost]
  refine h.optimal (.of_eq hfst) ?_
  rw [hsnd]
  exact kraft_map_length_le_one (usedSymbols_nodup s) hc

/-! ## The sum over the internal nodes -/

/-- The leaves of BUILD weigh together what the counts sum to (R92, R94). -/
theorem Built.sum_weightAt_leaves {s u : State} (h : Built s u) :
    ((List.range (usedSymbols s).length).map (weightAt u)).sum = totalCount s := by
  rw [← sum_used]
  congr 1
  refine List.ext_getElem (by simp) fun i h1 h2 => ?_
  have hi : i < (usedSymbols s).length := by simpa using h1
  simp [weightAt, h.leaves i hi, leafNode, countOf]

/-- The internal nodes of BUILD's tree weigh together as much as its weighted path length (R98): all the nodes weigh that and
the total count, and the leaves weigh the total count. -/
theorem Built.pathLength_eq_sum_internal {s u : State} {t : CodeTree} (h : Built s u) (ht : TreeIs u t)
    (hst : Stores u (weightWord (countOf s)) t) (hw : t.weight (countOf s) = totalCount s)
    (hfit : totalCount s ≤ Config.weightMax) (hn : u.nodeCount.toNat = 2 * (usedSymbols s).length - 1) :
    t.pathLength (countOf s) =
      ((List.range' (usedSymbols s).length ((usedSymbols s).length - 1)).map (weightAt u)).sum := by
  obtain ⟨-, hindices, -⟩ := ht
  have hpos := usedSymbols_length_pos s
  have hall := sum_weightAt_indices hst (by rw [hw]; exact hfit)
  have hsplit : List.range u.nodeCount.toNat = List.range (usedSymbols s).length ++
      List.range' (usedSymbols s).length ((usedSymbols s).length - 1) := by
    rw [show u.nodeCount.toNat = (usedSymbols s).length + ((usedSymbols s).length - 1) by omega,
      List.range_eq_range', List.range_eq_range', ← List.range'_append_1, Nat.zero_add]
  rw [(hindices.map _).sum_eq, hsplit, List.map_append, List.sum_append, h.sum_weightAt_leaves, hw] at hall
  omega

/-- Settles O38: the merges of BUILD are optimal by the exchange argument of `Merges.optimal` over Kraft's inequality. -/
theorem buildIsOptimal : Obligations.BuildIsOptimal := by
  intro s hr hfit
  rcases buildBody_spec (started s) with
    ⟨u, tree, hb, hle, -, hbuilt, htree, hst, -, hw, hmerges, hperm, hcount, -⟩ | ⟨u, a, b, -, hbad, -⟩
  · rw [usedSymbols_started] at hperm hcount
    refine ⟨finished u, tree, exec_of_ok .build hr hb, htree.congr rfl rfl rfl, hperm,
      fun code hc => hmerges.pathLength_le_prefix_code hc, ?_⟩
    exact hbuilt.pathLength_eq_sum_internal htree hst hw hle hcount
  · exact absurd hfit (Nat.not_le.mpr hbad)

end Sys2Proof.Machine
end

section
/-!
PROOFS. O60: every step of the block keeps the invariant (R26, R34, R38, R48, R49, R51, R171).
-/

namespace Sys2Proof.Machine

/-! ## The ends of a command -/

/-- A state that an error has left meets the invariant if its data does (R162). -/
theorem DataInv.inv_of_error {u : State} (d : DataInv u) (hb : u.busy = false) (hd : u.done = false)
    (hc : u.errCode ∈ writtenErrCodes) : Inv u where
  idle := hb
  doneOrErr := by simp [hd]
  doneClean := by simp [hd]
  codes := hc
  port := d.port
  nodeCount := d.nodeCount
  countTotal := d.countTotal
  tree := d.tree
  table := d.table

/-- A command that finishes without an error leaves a state that meets the invariant if its data does (R160, R161). -/
theorem finished_inv {s u : State} (d : DataInv u) (hr : Ready s)
    (hs : statusFields u = statusFields (started s)) : Inv (finished u) := by
  simp only [statusFields, started_err, started_errCode, started_errDetail, started_errStep, started_errInfo,
    Prod.mk.injEq] at hs
  obtain ⟨-, -, herr, hcode, hdetail, hstep, hinfo⟩ := hs
  have d' : DataInv (finished u) := d.congr d.port d.countTotal rfl
  exact
    { idle := rfl
      doneOrErr := by simp [herr, hr.2]
      doneClean := fun _ => ⟨hcode, hdetail, hstep, hinfo⟩
      codes := by simp [hcode, writtenErrCodes]
      port := d'.port
      nodeCount := d'.nodeCount
      countTotal := d'.countTotal
      tree := d'.tree
      table := d'.table }

/-- Every command keeps the invariant, however it ends. -/
theorem exec_inv {i : Instr} {s t : State} (h : Inv s) (he : exec i s = .next t) : Inv t := by
  have hdata : (bodyOf i (started s)).All DataInv := bodyOf_data i h.data.started
  have hends : EndsLike (started s) (errorsOf i) (bodyOf i (started s)) := bodyOf_endsLike i h.port.1
  rw [exec_eq] at he
  obtain ⟨-, rfl⟩ | ⟨hr, ⟨u, hu, rfl⟩ | hu⟩ := runCommand_cases he
  · exact h
  · rw [hu] at hdata hends
    exact finished_inv hdata hr hends
  · rw [hu] at hdata hends
    obtain ⟨hbusy, hdone, -, hmem⟩ := hends
    exact hdata.inv_of_error hbusy hdone (errCode_mem hmem)

/-- ILLEGAL_COMMAND keeps the invariant (R71). -/
theorem illegalCommand_inv {s : State} (h : Inv s) (w : Word) : Inv (illegalCommand w s) := by
  unfold illegalCommand
  split
  · exact h
  · have d := h.data.congr (u := raised (fieldOp w) .illegalCommand 0#8 w.toNat (cleared s)) h.port h.countTotal rfl
    exact d.inv_of_error rfl rfl (by simp [errCodeOf, writtenErrCodes])

theorem issueWord_inv {w : Word} {s t : State} (h : Inv s) (hi : issueWord w s = .next t) : Inv t := by
  obtain ⟨i, -, he⟩ | he := issueWord_cases w s
  · exact exec_inv h (he ▸ hi)
  · obtain rfl : illegalCommand w s = t := by simpa using he.symm.trans hi
    exact illegalCommand_inv h w

/-! ## The host's other actions -/

theorem acknowledge_inv {s : State} (h : Inv s) (v : Word) : Inv (acknowledge v s) :=
  h.congr rfl (fun hd => (Bool.and_eq_true_iff.mp hd).1) (fun he => (Bool.and_eq_true_iff.mp he).1) rfl rfl rfl rfl h.port rfl
    rfl

theorem writeCtrl_inv {s : State} (h : Inv s) (v : Word) : Inv (writeCtrl v s) := by
  unfold writeCtrl
  split
  · exact resetBlock_inv h.port.1
  · exact h

/-- A register write keeps the invariant, whichever register it reaches. -/
theorem writeReg_inv {r : Reg} {v : Word} {s t : State} (h : Inv s) (hw : writeReg r v s = .next t) : Inv t := by
  cases r with
  | cmd => exact issueWord_inv h hw
  | status => cases hw; exact acknowledge_inv h v
  | ctrl => cases hw; exact writeCtrl_inv h v
  | intEn => cases hw; exact h.congr rfl id id rfl rfl rfl rfl h.port rfl rfl
  | freq sym => cases hw; exact h.congr rfl id id rfl rfl rfl rfl h.port rfl rfl
  | _ => cases hw; exact h

theorem memWrite_inv {a : Nat} {v : Word} {s t : State} (h : Inv s) (hw : memWrite a v s = .next t) : Inv t := by
  cases hr : regOf a with
  | none =>
    obtain rfl : s = t := by simpa [memWrite, hr] using hw
    exact h
  | some r => exact writeReg_inv h (memWrite_of_regOf h.idle hr ▸ hw)

theorem memRead_inv {s : State} (h : Inv s) (a : Nat) : Inv (memRead a s) := by
  unfold memRead
  split <;> exact h.congr rfl id id rfl rfl rfl rfl h.port rfl rfl

/-- LOAD puts the cursor at the start of an IN that is within its bound (R51, R180). -/
theorem loadIn_inv {bits : Bits} {s t : State} (h : Inv s) (hl : loadIn bits s = .next t) : Inv t := by
  unfold loadIn at hl
  split at hl
  · cases hl
  · split at hl
    · next hw =>
      cases hl
      exact h.congr rfl id id rfl rfl rfl rfl ⟨of_decide_eq_true hw, by simp⟩ rfl rfl
    · cases hl

theorem takeOut_inv {s t : State} (h : Inv s) (ht : takeOut s = .next t) : Inv t := by
  unfold takeOut at ht
  split at ht
  · cases ht
  · cases ht
    exact h.congr rfl id id rfl rfl rfl rfl h.port rfl rfl

theorem popAction_inv {s : State} (h : Inv s) (rest : List HostAction) : Inv (popAction rest s) :=
  h.congr rfl id id rfl rfl rfl rfl h.port rfl rfl

theorem hostAction_inv {a : HostAction} {s t : State} (h : Inv s) (ha : hostAction a s = .next t) : Inv t := by
  cases a with
  | memRead addr => cases ha; exact memRead_inv h addr
  | memWrite addr v => exact memWrite_inv h ha
  | load bits => exact loadIn_inv h ha
  | take => exact takeOut_inv h ha
  | reset => cases ha; exact resetBlock_inv h.port.1

/-- Settles O60: by the cases of the host's next action, where a command keeps the data by `bodyOf_data` and leaves the status
registers as `bodyOf_endsLike` says. -/
theorem stepKeepsTheInvariant : Obligations.StepKeepsTheInvariant := by
  intro s t h hs
  cases hh : s.host with
  | nil =>
    obtain rfl : s = t := by simpa [step, hh] using hs
    exact h
  | cons a rest => exact hostAction_inv (popAction_inv h rest) (step_of_host hh ▸ hs)

end Sys2Proof.Machine
end

section
/-!
PROOFS. The host bus, O15, O4, O7 and O10: what a host access reaches, reads and can change (R23 to R38, R58, R62).
-/

namespace Sys2Proof.Machine

/-- The addresses of the control and status registers (R23). -/
theorem regOf_controlRegs : ∀ row ∈ controlRegs, regOf row.1 = some row.2 := by decide

/-- A read at the address of a control or status register reads that register. -/
theorem readAddr_controlReg {a : Nat} {r : Reg} (h : (a, r) ∈ controlRegs) (s : State) : readAddr a s = readReg s r :=
  readAddr_of_regOf (regOf_controlRegs _ h) s

/-- The two words of IN_LEN and OUT_LEN, for a port within its bound (R32, R33). -/
theorem portLength_halves {n : Nat} (h : n < 2 ^ 64) :
    (portLength n).extractLsb' 0 32 = BitVec.ofNat 32 n ∧
      (portLength n).extractLsb' 32 32 = BitVec.ofNat 32 (n / 2 ^ 32) := by
  have hn : (BitVec.ofNat 64 n).toNat = n := by rw [BitVec.toNat_ofNat, Nat.mod_eq_of_lt h]
  have halves := extractLsb'_halves (BitVec.ofNat 64 n)
  rwa [hn, ← portLength_of_lt h] at halves

/-- A host write away from the registers that are written changes nothing (R23). -/
theorem step_memWrite_readOnly {s : State} {a : Nat} {v : Word} {rest : List HostAction}
    (h : s.host = .memWrite a v :: rest) (h1 : a % 65536 / 4 ∉ [1, 2, 5, 6])
    (h2 : ¬ (0x0400 ≤ a % 65536 ∧ a % 65536 < 0x0800)) : step s = .next (popAction rest s) := by
  rw [step_memWrite h, memWrite_eq_next h1 h2]

/-- A host write to the windows above `FREQ[255]` changes nothing: they are read-only (R40, R42, R44). -/
theorem step_memWrite_window {s : State} {a : Nat} {v : Word} {rest : List HostAction}
    (h : s.host = .memWrite a v :: rest) (ha : 0x0800 ≤ a % 65536) : step s = .next (popAction rest s) := by
  refine step_memWrite_readOnly h ?_ (by omega)
  simp only [List.mem_cons, List.not_mem_nil, or_false]
  omega

/-- A host write that reaches a register while BUSY = 0 writes it. -/
theorem step_memWrite_of_regOf {s : State} {a : Nat} {r : Reg} {v : Word} {rest : List HostAction} (hb : s.busy = false)
    (h : s.host = .memWrite a v :: rest) (hr : regOf a = some r) : step s = writeReg r v (popAction rest s) :=
  (step_memWrite h).trans (memWrite_of_regOf (s := popAction rest s) hb hr)

/-- Settles O15: an access depends on its address only through `regOf`, which looks at bits 15 to 2. -/
theorem hostBusAccesses : Obligations.HostBusAccesses := by
  refine ⟨fun a b hab s v => ?_, fun s a v rest hh h1 h2 => step_memWrite_readOnly hh h1 h2, fun s a rest hh => ?_⟩
  · have hreg : regOf a = regOf b := regOf_congr hab
    simp only [readAddr, memRead, memWrite, hreg, and_self]
  · obtain ⟨v, n, h⟩ := step_memRead_cases hh
    exact ⟨_, h, rfl⟩

/-- Settles O4: by `step_of_host`, and `memWrite_cmd` for the command. -/
theorem stepIssuesTheDecodedCommand : Obligations.StepIssuesTheDecodedCommand := by
  refine ⟨fun s a w rest i hh ha hd => ?_, fun s nbits w => rfl, fun s a rest hh => step_of_host hh, fun s hh => ?_⟩
  · rw [step_memWrite hh, memWrite_cmd ha hd]
  · simp [step, hh]

/-- Settles O7: by the map of the control registers, with each 64-bit register in its two halves. -/
theorem controlRegistersRead : Obligations.ControlRegistersRead := by
  intro s hin hout
  have hread : ∀ row ∈ controlRegs, readAddr row.1 s = readReg s row.2 := fun row h => readAddr_controlReg h s
  simp only [controlRegs, List.forall_mem_cons, readReg, (extractLsb'_halves s.inPos).1, (extractLsb'_halves s.inPos).2,
    (portLength_halves hin).1, (portLength_halves hin).2, (portLength_halves hout).1, (portLength_halves hout).2,
    ← BitVec.ofNat_toNat] at hread
  obtain ⟨h00, h04, h08, h0c, h10, h14, h18, h20, h24, h28, h2c, h30, h34, h38, h3c, h40, h44, h48, -⟩ := hread
  refine ⟨h00, h04, h08, h0c, h10, h14, h18, h20, h24, h28, h2c, h30, h34, h38, h3c, h40, h44, h48,
    fun a rest hb hh => step_memRead hb hh, fun a v rest ha hh => ?_⟩
  simp only [List.mem_cons, List.not_mem_nil, or_false] at ha
  refine step_memWrite_readOnly hh ?_ (by omega)
  simp only [List.mem_cons, List.not_mem_nil, or_false]
  omega

/-- Settles O10: the write is `writeIntEn`, and `intEnWord_writeIntEn` is what reads back. -/
theorem intEnStoresTwoBits : Obligations.IntEnStoresTwoBits := by
  refine ⟨fun s v rest hb hh => ?_, rfl, rfl⟩
  have hreg : regOf 0x0018 = some .intEn := by decide
  refine ⟨writeIntEn v (popAction rest s), step_memWrite_of_regOf hb hh hreg, rfl, ?_, fun h0 => ?_, fun h1 => ?_⟩
  · rw [readAddr_of_regOf hreg]
    exact intEnWord_writeIntEn v _
  · simp only [irq, writeIntEn_doneIE, h0, Bool.and_false, Bool.false_or]
    rfl
  · simp only [irq, writeIntEn_errIE, h1, Bool.and_false, Bool.or_false]
    rfl

end Sys2Proof.Machine
end

section
/-!
PROOFS. The windows on the memories, O21, O11, O12 and O13: FREQ, the node memory and the code table as the host reads them
(R39 to R44).
-/

namespace Sys2Proof.Machine

/-! ## FREQ (R39, R40) -/

theorem readAddr_freq {sym : Nat} (h : sym < 256) (s : State) : readAddr (0x0400 + 4 * sym) s = freqAt s sym :=
  readAddr_of_regOf (regOf_freq h) s

theorem regOf_freqEof : regOf 0x0800 = some .freqEof := by decide

/-- FREQ after a write of one entry. -/
theorem freqAt_setFreq {sym j : Nat} (hj : j < 256) (v : Word) (s : State) :
    freqAt (setFreq sym v s) j = if j = sym then v else freqAt s j := by
  simp only [freqAt_of_lt hj, setFreq_freq, Vector.getElem_setIfInBounds, eq_comm]

/-- Settles O11: the write is `setFreq`, and `FREQ[256]` is no stored entry. -/
theorem freqWindow : Obligations.FreqWindow := by
  refine ⟨fun s sym v rest hsym hb hh => ?_, fun s => ⟨?_, freqAt_eof s, fun v rest hh => ?_⟩⟩
  · have hsame : freqAt (setFreq sym v (popAction rest s)) sym = v := by rw [freqAt_setFreq hsym, if_pos rfl]
    refine ⟨setFreq sym v (popAction rest s), step_memWrite_of_regOf hb hh (regOf_freq hsym), rfl, ?_, hsame,
      fun j hj hne => ?_⟩
    · rw [readAddr_freq hsym, hsame]
    · rw [readAddr_freq hj, readAddr_freq hj, freqAt_setFreq hj, if_neg hne]
      rfl
  · rw [readAddr_of_regOf regOf_freqEof]
    exact freqAt_eof s
  · exact step_memWrite_window hh (by decide)

/-! ## The node memory (R42) -/

theorem nodeAt_of_lt {i : Nat} (h : i < 513) (s : State) : nodeAt s i = some s.nodes[i] := Vector.getElem?_eq_getElem h

/-- The node window reads a node in use. -/
theorem nodeWindow_of_lt {s : State} {i : Nat} {n : Node} (h : i < s.nodeCount.toNat) (hn : nodeAt s i = some n)
    (word : Node → Word) : nodeWindow s i word = word n := by
  simp [nodeWindow, h, hn]

/-- The node window reads 0 beyond the nodes in use. -/
theorem nodeWindow_of_ge {s : State} {i : Nat} (h : s.nodeCount.toNat ≤ i) (word : Node → Word) :
    nodeWindow s i word = 0#32 :=
  if_neg (Nat.not_lt.mpr h)

theorem readAddr_nodeA {i : Nat} (h : i < 513) (s : State) : readAddr (0x1000 + 8 * i) s = nodeWindow s i nodeAWord :=
  readAddr_of_regOf (regOf_nodeA h) s

theorem readAddr_nodeW {i : Nat} (h : i < 513) (s : State) : readAddr (0x1004 + 8 * i) s = nodeWindow s i (·.weight) :=
  readAddr_of_regOf (regOf_nodeW h) s

/-- Settles O12: by the fields of NODE_A below NODE_COUNT, and `nodeWindow_of_ge` from there on. -/
theorem nodeWindow_fields : Obligations.NodeWindow := by
  intro s i hi
  rw [readAddr_nodeA hi, readAddr_nodeW hi]
  refine ⟨fun hlt => ⟨s.nodes[i], nodeAt_of_lt hi s, ?_⟩, fun hge => ⟨nodeWindow_of_ge hge _, nodeWindow_of_ge hge _⟩,
    fun v rest hh => ?_⟩
  · obtain ⟨hleft, hright, hsym, hzero, hleaf⟩ := nodeAWord_fields s.nodes[i]
    rw [nodeWindow_of_lt hlt (nodeAt_of_lt hi s), nodeWindow_of_lt hlt (nodeAt_of_lt hi s)]
    exact ⟨hleft, hright, hsym, hzero, hleaf, rfl⟩
  · obtain hh | hh := hh <;> exact step_memWrite_window hh (by omega)

/-! ## The code table (R44) -/

@[simp] theorem readReg_codeLen (s : State) (sym : Nat) :
    readReg s (.codeLen sym) = codeWindow s sym codeLenWord := rfl

@[simp] theorem readReg_codeBits (s : State) (sym w : Nat) :
    readReg s (.codeBits sym w) = codeWindow s sym fun c => c.val.extractLsb' (32 * w) 32 := rfl

theorem codeWindow_of_valid {s : State} (h : s.tableValid = true) (sym : Nat) (word : Code → Word) :
    codeWindow s sym word = word (codeAt s sym) := if_pos h

theorem codeWindow_of_invalid {s : State} (h : s.tableValid = false) (sym : Nat) (word : Code → Word) :
    codeWindow s sym word = 0#32 := by
  simp [codeWindow, h]

/-- While TABLE_VALID = 0 every address of the code window reads 0. -/
theorem readAddr_code_of_invalid {s : State} {sym off : Nat} (h : s.tableValid = false) (hs : sym < 257)
    (ho : off < 0x40) : readAddr (0x4000 + 64 * sym + off) s = 0#32 := by
  have hreg := regOf_code hs ho
  unfold codeWindowReg at hreg
  split at hreg
  · rw [readAddr_of_regOf hreg, readReg_codeLen, codeWindow_of_invalid h]
  · split at hreg
    · rw [readAddr_of_regOf hreg, readReg_codeBits, codeWindow_of_invalid h]
    · exact readAddr_of_unmapped hreg s

/-- The last seven words of a code window entry name no register. -/
theorem regOf_code_beyond {sym off : Nat} (hs : sym < 257) (h : 0x24 ≤ off) (ho : off < 0x40) :
    regOf (0x4000 + 64 * sym + off) = none := by
  rw [regOf_code hs ho, codeWindowReg, if_neg (by omega), if_neg (by omega)]

/-- Settles O13: by the register at each offset into the entry and the fields of CODE_LEN. -/
theorem codeWindow_fields : Obligations.CodeWindow := by
  intro s sym hsym
  refine ⟨fun hv => ?_, fun off h1 h2 => readAddr_of_unmapped (regOf_code_beyond hsym h1 h2) s,
    fun hv off ho => readAddr_code_of_invalid hv hsym ho, fun off ho v rest hh => ?_⟩
  · obtain ⟨hl, hz, hvalid⟩ := codeLenWord_fields (codeAt s sym)
    rw [readAddr_of_regOf (regOf_codeLen hsym), readReg_codeLen, codeWindow_of_valid hv]
    refine ⟨hl, hz, hvalid, fun w hw => ?_⟩
    rw [readAddr_of_regOf (regOf_codeBits hsym hw), readReg_codeBits, codeWindow_of_valid hv]
  · exact step_memWrite_window hh (by omega)

/-! ## Contents that no read shows (R20, U7) -/

/-- The node window depends on the nodes in use alone. -/
theorem nodeWindow_congr {s s' : State} (hc : s'.nodeCount = s.nodeCount)
    (hn : ∀ i < s.nodeCount.toNat, nodeAt s' i = nodeAt s i) (i : Nat) (word : Node → Word) :
    nodeWindow s' i word = nodeWindow s i word := by
  unfold nodeWindow
  rw [hc]
  split
  · next hi => rw [hn i hi]
  · rfl

/-- CODE has no entry beyond symbol 256. -/
theorem codeAt_of_ge {sym : Nat} (h : 257 ≤ sym) (s : State) : codeAt s sym = Code.none := by
  rw [codeAt, Vector.getElem?_eq_none h, Option.getD_none]

/-- The code window depends on a valid table alone. -/
theorem codeWindow_congr {s s' : State} (hv : s'.tableValid = s.tableValid)
    (hc : s.tableValid = true → ∀ sym < 257, codeAt s' sym = codeAt s sym) (sym : Nat) (word : Code → Word) :
    codeWindow s' sym word = codeWindow s sym word := by
  unfold codeWindow
  rw [hv]
  split
  · next ht =>
    obtain hlt | hge := Nat.lt_or_ge sym 257
    · rw [hc ht sym hlt]
    · rw [codeAt_of_ge hge, codeAt_of_ge hge]
  · rfl

/-- Settles O21: no register but those of the two windows reads NODE or CODE, and each window shows only what is in use. -/
theorem hiddenContentsUnobservable : Obligations.HiddenContentsUnobservable := by
  intro s s' hs hn hc a
  have hcount : s'.nodeCount = s.nodeCount := by rw [hs]
  have hvalid : s'.tableValid = s.tableValid := by rw [hs]
  cases hr : regOf a with
  | none => rw [readAddr_of_unmapped hr, readAddr_of_unmapped hr]
  | some r =>
    rw [readAddr_of_regOf hr, readAddr_of_regOf hr]
    cases r with
    | nodeA i => exact nodeWindow_congr hcount hn i _
    | nodeW i => exact nodeWindow_congr hcount hn i _
    | codeLen sym => rw [readReg_codeLen, readReg_codeLen, codeWindow_congr hvalid hc]
    | codeBits sym w => rw [readReg_codeBits, readReg_codeBits, codeWindow_congr hvalid hc]
    | _ => rw [hs]; rfl

end Sys2Proof.Machine
end

section
/-!
PROOFS. The ports and the gaps of the register map, O19, O20 and O14: the order of a byte file's bits, what writes IN and OUT, and
the addresses that name no register (R51 to R53, R59).
-/

namespace Sys2Proof.Machine

/-! ## The bit order of a byte file (R53) -/

/-- The number that a bit sequence spells, as the sum of its bits' places (R10). -/
theorem bitsValue_eq_sum (b : Bits) :
    bitsValue b = ((List.range b.length).map fun k => (b[k]?.getD false).toNat * 2 ^ (b.length - 1 - k)).sum := by
  induction b with
  | nil => rfl
  | cons x b ih =>
    rw [bitsValue_cons, ih, List.length_cons, List.range_succ_eq_map, List.map_cons, List.sum_cons, List.map_map]
    congr 2
    refine List.map_congr_left fun k _ => ?_
    simp only [Function.comp_apply, Nat.succ_eq_add_one, List.getElem?_cons_succ]
    congr 2
    omega

/-- A byte is the sum of its bits' places, the most significant bit first. -/
theorem byte_toNat_eq_sum (b : Byte) :
    b.toNat = ((List.range 8).map fun k => (b.getLsbD (7 - k)).toNat * 2 ^ (7 - k)).sum := by
  rw [← bitsValue_spell_byte b, bitsValue_eq_sum, length_spell]
  refine congrArg List.sum (List.map_congr_left fun k hk => ?_)
  rw [spell_getElem? (List.mem_range.mp hk), Option.getD_some]
  rfl

/-- Settles O19: a whole number of bytes is the bits of a byte file, whose bits are `bytesToBits_getElem?`. -/
theorem byteFileBitOrder : Obligations.ByteFileBitOrder := by
  refine ⟨fun bytes => ⟨length_bytesToBits bytes, bytesToBits_getElem? bytes⟩, fun bits hbits => ?_⟩
  obtain ⟨bytes, rfl⟩ := exists_bytesToBits hbits
  rw [bitsToBytes_bytesToBits, length_bytesToBits]
  refine ⟨by omega, fun j hj => ?_⟩
  rw [byte_toNat_eq_sum]
  refine congrArg List.sum (List.map_congr_left fun k hk => ?_)
  rw [bytesToBits_getElem? bytes j hj k (List.mem_range.mp hk), Option.getD_some]

/-! ## What writes the ports (R51, R52) -/

/-- IN is as before, and OUT is as before with bits appended. -/
def KeepsPorts (s t : State) : Prop := t.inBits = s.inBits ∧ Appends s t

theorem KeepsPorts.of_eq {s t : State} (hin : t.inBits = s.inBits) (hout : t.outBits = s.outBits) : KeepsPorts s t :=
  ⟨hin, .of_eq hout⟩

theorem illegalCommand_keepsPorts (w : Word) (s : State) : KeepsPorts s (illegalCommand w s) := by
  unfold illegalCommand
  split <;> exact .of_eq rfl rfl

theorem issueWord_keepsPorts {w : Word} {s t : State} (h : issueWord w s = .next t) : KeepsPorts s t := by
  obtain ⟨i, -, he⟩ | he := issueWord_cases w s
  · exact exec_ports (he ▸ h)
  · obtain rfl : illegalCommand w s = t := by simpa using he.symm.trans h
    exact illegalCommand_keepsPorts w s

/-- A soft reset leaves the ports' contents (R191). -/
theorem writeCtrl_keepsPorts (v : Word) (s : State) : KeepsPorts s (writeCtrl v s) := by
  unfold writeCtrl
  split <;> exact .of_eq rfl rfl

/-- Of the register writes only a CMD write can write a port. -/
theorem writeReg_keepsPorts {r : Reg} {v : Word} {s t : State} (h : writeReg r v s = .next t) : KeepsPorts s t := by
  cases r with
  | cmd => exact issueWord_keepsPorts h
  | ctrl => cases h; exact writeCtrl_keepsPorts v s
  | _ => cases h; exact .of_eq rfl rfl

theorem memWrite_keepsPorts {a : Nat} {v : Word} {s t : State} (h : memWrite a v s = .next t) : KeepsPorts s t := by
  unfold memWrite at h
  split at h
  · split at h
    · cases h; exact .of_eq rfl rfl
    · exact writeReg_keepsPorts h
  · cases h; exact .of_eq rfl rfl

theorem memRead_keepsPorts (a : Nat) (s : State) : KeepsPorts s (memRead a s) := by
  unfold memRead
  split <;> exact .of_eq rfl rfl

/-- What a LOAD that has a next state does (R180). -/
theorem loadIn_eq_next {bits : Bits} {s t : State} (h : loadIn bits s = .next t) :
    t = { s with inBits := bits, inPos := 0#64 } := by
  unfold loadIn at h
  split at h
  · cases h
  · split at h
    · cases h; rfl
    · cases h

/-- What a TAKE that has a next state does (R180). -/
theorem takeOut_eq_next {s t : State} (h : takeOut s = .next t) :
    t = { s with reply := .bits s.outBits, outBits := [] } := by
  unfold takeOut at h
  split at h
  · cases h
  · cases h; rfl

/-- All that a step can do to the ports: a LOAD writes IN, a TAKE empties OUT, and every other step keeps both. -/
theorem step_ports_cases {s t : State} (hs : step s = .next t) :
    KeepsPorts s t ∨
      (∃ bits rest, s.host = .load bits :: rest ∧ t.inBits = bits ∧ t.outBits = s.outBits) ∨
      (∃ rest, s.host = .take :: rest ∧ t.inBits = s.inBits ∧ t.outBits = []) := by
  cases hh : s.host with
  | nil =>
    obtain rfl : s = t := by simpa [step, hh] using hs
    exact .inl (.of_eq rfl rfl)
  | cons a rest =>
    rw [step_of_host hh] at hs
    cases a with
    | memRead addr => cases hs; exact .inl (memRead_keepsPorts addr (popAction rest s))
    | memWrite addr v => exact .inl (memWrite_keepsPorts (s := popAction rest s) hs)
    | load bits =>
      obtain rfl := loadIn_eq_next hs
      exact .inr (.inl ⟨bits, rest, rfl, rfl, rfl⟩)
    | take =>
      obtain rfl := takeOut_eq_next hs
      exact .inr (.inr ⟨rest, rfl, rfl, rfl⟩)
    | reset => cases hs; exact .inl (.of_eq rfl rfl)

/-- Settles O20: by the cases of `step_ports_cases`, of which only LOAD writes IN and only TAKE does not append to OUT. -/
theorem portsHaveOneWriter : Obligations.PortsHaveOneWriter := by
  intro s t hs
  obtain ⟨hin, hout⟩ | ⟨bits, rest, hh, hin, hout⟩ | ⟨rest, hh, hin, hout⟩ := step_ports_cases hs
  · exact ⟨.inl hin, .inl hout⟩
  · exact ⟨.inr ⟨bits, rest, hh, hin⟩, .inl (Appends.of_eq hout)⟩
  · exact ⟨.inl hin, .inr ⟨rest, hh, hout⟩⟩

/-! ## Addresses that name no register (R59) -/

theorem memWrite_of_unmapped {a : Nat} (h : regOf a = none) (v : Word) (s : State) : memWrite a v s = .next s := by
  simp [memWrite, h]

/-- Settles O14: `regOf_unmapped` covers every gap of the map. -/
theorem unmappedAddresses : Obligations.UnmappedAddresses := by
  intro s a hgap
  have hreg : regOf a = none := regOf_unmapped hgap
  refine ⟨readAddr_of_unmapped hreg s, fun v rest hh => ?_⟩
  rw [step_memWrite hh, memWrite_of_unmapped hreg]

end Sys2Proof.Machine
end

section
/-!
PROOFS. Command words, O3, O2 and O1: which words are commands, and of which commands (R70 to R74).
-/

namespace Sys2Proof

/-- The decoder undoes the encoder (R73). -/
theorem decode_encode (i : Instr) : decode (encode i) = .ok i := (decode_append_eq_ok_iff (opcode i) i).mpr rfl

/-- A word that decodes is the word of what it decodes to: it has no reserved bit, and its OP is the command's opcode. -/
theorem encode_of_decode {w : Word} {i : Instr} (h : decode w = .ok i) : encode i = w := by
  obtain ⟨hreserved, -⟩ := (decode_isOk_iff w).mp ⟨i, h⟩
  have hw : w = (0#24 ++ fieldOp w : BitVec (24 + 8)) := eq_append_fieldOp hreserved
  have hop : opcode i = fieldOp w := (decode_append_eq_ok_iff (fieldOp w) i).mp (hw ▸ h)
  rw [encode, hop, ← hw]

/-- Settles O3: `decode_encode`, and `encode_of_decode` for the converse. -/
theorem decodeInvertsEncode : Obligations.DecodeInvertsEncode :=
  ⟨fun i _ => decode_encode i, fun _ _ h => encode_of_decode h⟩

/-- The words of R71, as numbers. -/
theorem decode_isOk_iff_toNat (w : Word) :
    (∃ i, decode w = .ok i) ↔ w.toNat / 256 = 0 ∧
      w.toNat % 256 ∈ [0x00, 0x01, 0x02, 0x03, 0x04, 0x05, 0x06, 0x07, 0x08, 0x09, 0x0A, 0x0B, 0x0C, 0x10, 0x11] := by
  rw [decode_isOk_iff, fieldReserved_eq_zero_iff, opcodeTable_find?_isSome_iff, fieldOp_toNat]

/-- Settles O2: the words of `decode_isOk_iff_toNat`, and `memWrite_cmd_illegal` for a CMD write of any other. -/
theorem onlyTheseWordsAreCommands : Obligations.OnlyTheseWordsAreCommands := by
  refine ⟨decode_isOk_iff_toNat, fun s a w rest hr hh ha hw => ?_⟩
  have hillegal : ¬ ∃ i, decode w = .ok i := by
    rw [decode_isOk_iff_toNat]
    simp only [List.mem_cons, List.not_mem_nil, or_false]
    omega
  rw [Machine.step_memWrite hh]
  exact Machine.memWrite_cmd_illegal (s := Machine.popAction rest s) ha hr hillegal

/-- Settles O1: each word is the encoding of its row's command, which `decode_encode` decodes. -/
theorem commandWordsDecode : Obligations.CommandWordsDecode :=
  ⟨decode_encode .nop, decode_encode .clear, decode_encode .count, decode_encode .build, decode_encode .genTable,
    decode_encode .writeMagic, decode_encode .serialize, decode_encode .encode, decode_encode .checkMagic,
    decode_encode .deserialize, decode_encode .decode, decode_encode .rewindIn, decode_encode .flushOut,
    decode_encode .compress, decode_encode .decompress⟩

end Sys2Proof
end

section
/-!
PROOFS. The compressed format, O53 and O55: what COMPRESS writes and DECOMPRESS reads (R79, R144, R145).
-/

namespace Sys2Proof.Machine

/-- The marker's four bytes (R36, R60). -/
theorem magicBits_eq_bytes : magicBits = bytesToBits [0xFA#8, 0xCE#8, 0x82#8, 0x01#8] := by decide

/-- Settles O53: `compressBody_closed` from the started state, with the marker as its bytes and the pad bits that
`compressed.flushed` appends. -/
theorem compressWritesTheFormat : Obligations.CompressWritesTheFormat := by
  intro s bs hr hin hl
  obtain ⟨u, tree, e, hbody, hu, htree, -, hbytes, he⟩ := compressBody_closed (s := started s) hin hl
  have hout : (finished u).outBits =
      compressed.flushed (s.outBits ++ (magicBits ++ (tree.header ++ (pathsOf tree bs ++ e)))) :=
    congrArg State.outBits hu
  refine ⟨finished u, tree, e, padLength (s.outBits ++ (magicBits ++ (tree.header ++ (pathsOf tree bs ++ e)))).length,
    exec_of_ok .compress hr hbody, htree.congr rfl rfl rfl, hbytes, he, padLength_lt _, ?_, ?_⟩
  · rw [← magicBits_eq_bytes, hu]
    simp only [compressed, compressed.flushed, List.append_assoc]
    rfl
  · rw [hout]
    exact flushed_aligned _

/-- Settles O55: `decompressBody_closed` from the started state, with the marker as its bytes. -/
theorem decompressReadsTheFormat : Obligations.DecompressReadsTheFormat := by
  intro s tree bs e rest hr hlen hin hle hnodup hbytes he
  rw [← magicBits_eq_bytes] at hin
  obtain ⟨u, hbody, htree, hu⟩ := decompressBody_closed (s := started s) hlen hin hle hnodup hbytes he
  exact ⟨finished u, exec_of_ok .decompress hr hbody, htree.congr rfl rfl rfl, congrArg finished hu⟩

end Sys2Proof.Machine
end

section
/-!
PROOFS. The frequency counter, O31 and O32: COUNT of any input, in its three cases (R80 to R85).
-/

namespace Sys2Proof.Machine

/-- Settles O31: `countBody_closed` from the started state. -/
theorem countCountsTheBytes : Obligations.CountCountsTheBytes := by
  intro s bs hr hp hin hl
  have hlen : 8 * bs.length ≤ s.inBits.length - s.inPos.toNat := by
    rw [← length_bytesToBits, ← hin, remaining, List.length_drop]
  obtain ⟨hlimit, hpos⟩ := hp
  refine ⟨exec_of_ok .count hr (countBody_closed (s := started s) ⟨hlimit, hpos⟩ hin hl), fun sym h => ?_,
    sum_counts bs, ?_⟩
  · rw [countsOf_getElem bs sym h, BitVec.toNat_ofNat, Nat.mod_eq_of_lt (count_lt bs hl _)]
  · simp only [Config.portLimit] at hlimit
    rw [BitVec.toNat_add, BitVec.toNat_ofNat]
    omega

/-- Settles O32: `countBody_closed_partial` and `countBody_closed_overflow` from the started state, and
`totalCount_of_countsOf` for the sum. -/
theorem countErrors_raised : Obligations.CountErrors := by
  refine ⟨fun s bs tail hr hp hin h0 h8 hl => ?_, fun s bs r rest hr hp hin hl => ?_, fun s bs hf hl => ?_⟩
  · exact exec_of_abort .count hr (countBody_closed_partial (s := started s) hp hin h0 h8 hl)
  · rw [← hl]
    exact exec_of_abort .count hr (countBody_closed_overflow (s := started s) hp hin hl)
  · have htotal := totalCount_of_countsOf hf hl
    exact ⟨htotal, by omega⟩

/-- What COUNT may find: no more whole bytes than it accepts, and fewer than 8 bits behind them; or a byte more (R82, R83). -/
theorem countInput_cases (b : Bits) :
    (∃ bs tail, b = bytesToBits bs ++ tail ∧ tail.length < 8 ∧ bs.length ≤ Config.countMax) ∨
      ∃ bs r rest, b = bytesToBits bs ++ (bytesToBits [r] ++ rest) ∧ bs.length = Config.countMax := by
  obtain ⟨bs, tail, rfl, ht⟩ := exists_bytesToBits_append b
  by_cases hl : bs.length ≤ Config.countMax
  · exact .inl ⟨bs, tail, rfl, ht, hl⟩
  · have hlt : Config.countMax < bs.length := by omega
    have hsplit : bs.take Config.countMax ++ ([bs[Config.countMax]] ++ bs.drop (Config.countMax + 1)) = bs := by
      rw [List.singleton_append, ← List.drop_eq_getElem_cons hlt, List.take_append_drop]
    refine .inr ⟨bs.take Config.countMax, bs[Config.countMax], bytesToBits (bs.drop (Config.countMax + 1)) ++ tail, ?_,
      List.length_take_of_le hlt.le⟩
    conv_lhs => rw [← hsplit]
    simp only [bytesToBits_append, List.append_assoc]

/-- A COUNT that completed has counted a byte file that it accepts (R81, R84). -/
theorem countsOf_of_completed {s t : State} (hr : Ready s) (hp : PortOk s) (h : exec .count s = .next t)
    (he : t.err = false) : Ready t ∧ ∃ bs : List Byte, bs.length ≤ Config.countMax ∧ t.freq = countsOf bs := by
  have hnot {e d info u} (hu : exec .count s = .next (raised (opcode .count) e d info u)) : False := by
    obtain rfl := Host.Outcome.next.inj (h.symm.trans hu)
    cases he
  rcases countInput_cases (remaining s) with ⟨bs, tail, hin, h8, hl⟩ | ⟨bs, r, rest, hin, hl⟩
  · by_cases h0 : tail = []
    · rw [h0, List.append_nil] at hin
      have hok := exec_of_ok .count hr (countBody_closed (s := started s) hp hin hl)
      obtain rfl := Host.Outcome.next.inj (h.symm.trans hok)
      exact ⟨⟨rfl, he⟩, bs, hl, rfl⟩
    · exact (hnot (exec_of_abort .count hr (countBody_closed_partial (s := started s) hp hin h0 h8 hl))).elim
  · exact (hnot (exec_of_abort .count hr (countBody_closed_overflow (s := started s) hp hin hl))).elim

end Sys2Proof.Machine
end

section
/-!
PROOFS. O35: the weights of BUILD, and WEIGHT_OVERFLOW (R83, R90 to R94).
-/

namespace Sys2Proof.Machine

/-- The start and the end of BUILD leave what its pseudocode built. -/
theorem Built.of_started {s u v : State} (h : Built (started s) u) (hn : v.nodes = u.nodes)
    (hc : v.nodeCount = u.nodeCount) : Built s v := by
  have hnode : ∀ i, nodeAt v i = nodeAt u i := fun i => by rw [nodeAt, hn, nodeAt]
  refine ⟨fun i hi => (hnode i).trans (h.leaves i hi), fun i h1 h2 => ?_, by rw [hc]; exact h.count, fun j hj => ?_⟩
  · exact (h.merged i h1 (hc ▸ h2)).congr fun k _ => hnode k
  · exact (hnode j).trans (h.above j (hc ▸ hj))

/-- All that BUILD can do: it completes with a tree that weighs as much as the counts sum to, or the counts do not fit, and it
stops where the two nodes of least key do not (R90, R94). -/
theorem exec_build_cases {s : State} (hr : Ready s) : ∃ t, exec .build s = .next t ∧ Built s t ∧
    ((totalCount s ≤ Config.weightMax ∧ t.err = false ∧ t.done = true ∧
        ∃ tree, TreeIs t tree ∧ Stores t (weightWord (countOf s)) tree ∧ tree.weight (countOf s) = totalCount s) ∨
      (Config.weightMax < totalCount s ∧
        t = { aborted 0x14#8 0#8 0x03#8 t.nodeCount.toNat s with
          nodes := t.nodes, nodeCount := t.nodeCount, root := 0#10, treeValid := false, tableValid := false } ∧
        ∃ a b, TwoLeast t t.nodeCount.toNat a b ∧ Config.weightMax < weightAt t a + weightAt t b)) := by
  rcases buildBody_spec (started s) with
    ⟨u, tree, hb, hfit, hu, hbuilt, htree, hst, -, hw, -⟩ | ⟨u, a, b, hb, hover, hu, hbuilt, htwo, hab⟩
  · refine ⟨finished u, exec_of_ok .build hr hb, hbuilt.of_started rfl rfl, .inl ⟨hfit, ?_, rfl, tree,
      htree.congr rfl rfl rfl, hst.congr fun _ _ => rfl, hw⟩⟩
    exact (congrArg State.err hu).trans hr.2
  · refine ⟨_, exec_of_abort .build hr hb, hbuilt.of_started rfl rfl, .inr ⟨hover, ?_, a, b,
      htwo.congr fun _ _ => rfl, hab⟩⟩
    exact congrArg (raised (opcode .build) .weightOverflow 0#8 u.nodeCount.toNat) hu

/-- No node of a stored tree weighs more than the tree (R94). -/
theorem weightAt_le_of_stores {wt : Nat → Nat} {s : State} {t : CodeTree} (h : Stores s (weightWord wt) t)
    (hb : t.weight wt ≤ Config.weightMax) {i : Nat} (hi : i ∈ t.indices) : weightAt s i ≤ t.weight wt := by
  have hroot := weightAt_of_stores h hb
  induction t with
  | leaf k sym =>
    obtain rfl : i = k := by simpa [CodeTree.indices] using hi
    exact hroot.le
  | node k l r ihl ihr =>
    obtain ⟨-, hl, hr⟩ := h
    rw [CodeTree.weight] at hb ⊢
    simp only [CodeTree.indices, List.mem_cons, List.mem_append] at hi
    rcases hi with rfl | hi | hi
    · exact hroot.le
    · have := ihl hl (by omega) hi (weightAt_of_stores hl (by omega))
      omega
    · have := ihr hr (by omega) hi (weightAt_of_stores hr (by omega))
      omega

/-- Settles O35: by the two ends of `exec_build_cases`, and, after a COUNT, by `countsOf_of_completed`, whose counts fit. -/
theorem buildWeightOverflow : Obligations.BuildWeightOverflow := by
  refine ⟨fun s hr => ?_, fun s t hr hp hcount he => ?_⟩
  · obtain ⟨t, ht, ⟨hleaves, hmerged, ⟨hge, hcap⟩, -⟩, hends⟩ := exec_build_cases hr
    refine ⟨t, ht, hge, hcap, hleaves, hmerged, ?_⟩
    rcases hends with ⟨hfit, herr, hdone, -⟩ | ⟨hover, habort, htwo⟩
    · exact ⟨fun _ => ⟨herr, hdone⟩, fun hover => absurd hfit (Nat.not_le.mpr hover)⟩
    · exact ⟨fun hfit => absurd hfit (Nat.not_le.mpr hover), fun _ => ⟨habort, htwo⟩⟩
  · obtain ⟨hrt, bs, hl, hf⟩ := countsOf_of_completed hr hp hcount he
    have hfit : totalCount t ≤ Config.weightMax := by
      rw [totalCount_of_countsOf hf hl]
      exact Nat.succ_le_succ hl
    obtain ⟨u, hu, -, ⟨-, -, hdone, tree, ⟨-, hindices, -⟩, hst, hw⟩ | ⟨hover, -⟩⟩ := exec_build_cases hrt
    · refine ⟨hfit, u, hu, hdone, fun i hi => ?_⟩
      rw [← hw] at hfit ⊢
      exact weightAt_le_of_stores hst hfit (hindices.mem_iff.mpr (List.mem_range.mpr hi))
    · exact absurd hfit (Nat.not_le.mpr hover)

end Sys2Proof.Machine
end

section
/-!
PROOFS. O22: what NOP, CLEAR, REWIND_IN, COUNT and CHECK_MAGIC leave unchanged (R80, R103, R140 to R142).
-/

namespace Sys2Proof.Machine

/-- `s` without what REWIND_IN writes (R142). -/
def maskRewind (s : State) : State := { maskStatus s with inPos := 0#64 }

/-! ## A state from its mask and what the mask leaves out -/

theorem eq_of_maskStatus {s t : State} (h : maskStatus t = maskStatus s) : t = withStatusOf t s :=
  have e := congrArg (withStatusOf t) h
  e

theorem eq_of_maskClear {s t : State} (h : maskClear t = maskClear s) :
    t = { withStatusOf t s with
      freq := t.freq, countTotal := t.countTotal, nodeCount := t.nodeCount, root := t.root, lastMagic := t.lastMagic
      treeValid := t.treeValid, tableValid := t.tableValid } :=
  congrArg (fun m => { withStatusOf t m with
    freq := t.freq, countTotal := t.countTotal, nodeCount := t.nodeCount, root := t.root, lastMagic := t.lastMagic
    treeValid := t.treeValid, tableValid := t.tableValid }) h

theorem eq_of_maskRewind {s t : State} (h : maskRewind t = maskRewind s) :
    t = { withStatusOf t s with inPos := t.inPos } :=
  congrArg (fun m => { withStatusOf t m with inPos := t.inPos }) h

theorem eq_of_maskCount {s t : State} (h : maskCount t = maskCount s) :
    t = { withStatusOf t s with freq := t.freq, countTotal := t.countTotal, inPos := t.inPos } :=
  congrArg (fun m => { withStatusOf t m with freq := t.freq, countTotal := t.countTotal, inPos := t.inPos }) h

theorem eq_of_maskMagic {s t : State} (h : maskMagic t = maskMagic s) :
    t = { withStatusOf t s with lastMagic := t.lastMagic, inPos := t.inPos } :=
  congrArg (fun m => { withStatusOf t m with lastMagic := t.lastMagic, inPos := t.inPos }) h

/-- Settles O22: each command keeps its mask by `exec_mask`, and what the mask leaves out is what it may write. -/
theorem frameOfRegisterCommands : Obligations.FrameOfRegisterCommands := by
  intro s t
  refine ⟨fun h => ?_, fun h => ?_, fun h => ?_, fun h => ?_, fun h => ?_⟩
  · exact eq_of_maskStatus (exec_mask (i := .nop) maskStatus (fun _ => rfl) (fun _ => rfl) (fun _ => rfl) h)
  · exact eq_of_maskClear (exec_mask (i := .clear) maskClear (fun _ => rfl) (fun _ => rfl) (fun _ => rfl) h)
  · exact eq_of_maskRewind (exec_mask (i := .rewindIn) maskRewind (fun _ => rfl) (fun _ => rfl) (fun _ => rfl) h)
  · exact eq_of_maskCount (exec_mask (i := .count) maskCount (fun _ => rfl) (fun _ => rfl) countBody_mask h)
  · exact eq_of_maskMagic (exec_mask (i := .checkMagic) maskMagic (fun _ => rfl) (fun _ => rfl) checkMagicBody_mask h)

end Sys2Proof.Machine
end

section
/-!
PROOFS. O23: what BUILD, DESERIALIZE and GEN_TABLE leave unchanged (R90, R104, R120).
-/

namespace Sys2Proof.Machine

/-! ## A state from its mask and what the mask leaves out -/

theorem eq_of_maskBuild {s t : State} (h : maskBuild t = maskBuild s) :
    t = { withStatusOf t s with
      nodes := t.nodes, nodeCount := t.nodeCount, root := t.root, treeValid := t.treeValid, tableValid := t.tableValid } :=
  congrArg (fun m => { withStatusOf t m with
    nodes := t.nodes, nodeCount := t.nodeCount, root := t.root, treeValid := t.treeValid, tableValid := t.tableValid }) h

theorem eq_of_maskDeserialize {s t : State} (h : maskDeserialize t = maskDeserialize s) :
    t = { withStatusOf t s with
      nodes := t.nodes, nodeCount := t.nodeCount, root := t.root, treeValid := t.treeValid, tableValid := t.tableValid
      inPos := t.inPos } :=
  congrArg (fun m => { withStatusOf t m with
    nodes := t.nodes, nodeCount := t.nodeCount, root := t.root, treeValid := t.treeValid, tableValid := t.tableValid
    inPos := t.inPos }) h

theorem eq_of_maskGenTable {s t : State} (h : maskGenTable t = maskGenTable s) :
    t = { withStatusOf t s with codes := t.codes, tableValid := t.tableValid } :=
  congrArg (fun m => { withStatusOf t m with codes := t.codes, tableValid := t.tableValid }) h

/-- Settles O23: each command keeps its mask by `exec_mask`, and BUILD and DESERIALIZE the node memory from NODE_COUNT on by
`exec_above`. -/
theorem frameOfTreeCommands : Obligations.FrameOfTreeCommands := by
  intro s t
  refine ⟨fun h => ⟨eq_of_maskBuild ?_, ?_⟩, fun h => ⟨eq_of_maskDeserialize ?_, ?_⟩, fun h => eq_of_maskGenTable ?_⟩
  · exact exec_mask (i := .build) maskBuild (fun _ => rfl) (fun _ => rfl) buildBody_mask h
  · exact exec_above (i := .build) buildBody_above h
  · exact exec_mask (i := .deserialize) maskDeserialize (fun _ => rfl) (fun _ => rfl) deserializeBody_mask h
  · exact exec_above (i := .deserialize) deserializeBody_above h
  · exact exec_mask (i := .genTable) maskGenTable (fun _ => rfl) (fun _ => rfl) genTableBody_mask h

end Sys2Proof.Machine
end

section
/-!
PROOFS. The tree builder, O33, O34, O36 and O37: the tree that BUILD makes, and that it depends on FREQ alone (R90 to R97).
-/

namespace Sys2Proof.Machine

/-! ## BUILD when the counts fit -/

/-- `s` as a BUILD leaves it that completes with the node memory `N` (R90, R97). -/
def builtState (N : Vector Node 513) (s : State) : State :=
  { completed s with
    nodes := N, nodeCount := BitVec.ofNat 10 (2 * (usedSymbols s).length - 1)
    root := BitVec.ofNat 10 (2 * (usedSymbols s).length - 2), treeValid := true, tableValid := false }

theorem builtState_nodeCount_toNat (N : Vector Node 513) (s : State) :
    (builtState N s).nodeCount.toNat = 2 * (usedSymbols s).length - 1 := by
  have := usedSymbols_length_le s
  exact Nat.mod_eq_of_lt (by omega)

theorem builtState_root_toNat (N : Vector Node 513) (s : State) :
    (builtState N s).root.toNat = 2 * (usedSymbols s).length - 2 := by
  have := usedSymbols_length_le s
  exact Nat.mod_eq_of_lt (by omega)

/-- When the counts fit, BUILD completes with one tree over the symbols in use, whose weight is their sum, and with two nodes
for each of them less one, the last of which is the root (R90, R94, R97). -/
theorem exec_build_of_fits {s : State} (hr : Ready s) (hfit : totalCount s ≤ Config.weightMax) :
    ∃ N tree, exec .build s = .next (builtState N s) ∧ Built s (builtState N s) ∧ TreeIs (builtState N s) tree ∧
      Stores (builtState N s) (weightWord (countOf s)) tree ∧ tree.weight (countOf s) = totalCount s ∧
      tree.symbols.Perm (usedSymbols s) := by
  rcases buildBody_spec (started s) with
    ⟨u, tree, hb, -, hu, hbuilt, htree, hst, -, hw, -, hperm, hcount, hroot⟩ | ⟨u, a, b, -, hover, -⟩
  · rw [usedSymbols_started] at hperm hcount
    have hcount' : u.nodeCount = (builtState u.nodes s).nodeCount := BitVec.eq_of_toNat_eq <| by
      rw [builtState_nodeCount_toNat, hcount]
    have hroot' : u.root = (builtState u.nodes s).root := BitVec.eq_of_toNat_eq <| by
      rw [builtState_root_toNat, hroot, hcount, Nat.sub_sub]
    have hend : finished u = builtState u.nodes s := by
      rw [hu, hcount', hroot']
      rfl
    refine ⟨u.nodes, tree, ?_⟩
    rw [← hend]
    exact ⟨exec_of_ok .build hr hb, hbuilt.of_started rfl rfl, htree.congr rfl rfl rfl, hst.congr fun _ _ => rfl, hw, hperm⟩
  · exact absurd hfit (Nat.not_le.mpr hover)

/-- A merged node is internal, and its children were made before it (R97). -/
theorem MergedAt.children_lt {s : State} {i : Nat} (h : MergedAt s i) :
    ∃ n, nodeAt s i = some n ∧ n.isLeaf = false ∧ n.left.toNat < i ∧ n.right.toNat < i := by
  obtain ⟨a, b, ⟨ha, hb, -⟩, -, hnode⟩ := h
  refine ⟨_, hnode, rfl, ?_, ?_⟩
  · exact (Nat.mod_le a _).trans_lt (inQ_iff.mp ha).1
  · exact (Nat.mod_le b _).trans_lt (inQ_iff.mp hb).1

/-- Settles O33: `exec_build_of_fits`, whose node memory is as `Built` says. -/
theorem buildMergesTheTwoLeast : Obligations.BuildMergesTheTwoLeast := by
  intro s hr hfit
  obtain ⟨N, -, hexec, hbuilt, -⟩ := exec_build_of_fits hr hfit
  refine ⟨builtState N s, hexec, rfl, hbuilt.leaves, fun i hge hlt => hbuilt.merged i hge ?_⟩
  rwa [builtState_nodeCount_toNat]

/-- Settles O34: `exec_build_of_fits`, with the leaves and the merged nodes as `Built` has them and the root's weight from the
stored tree. -/
theorem buildShape : Obligations.BuildShape := by
  intro s hr hfit
  obtain ⟨N, tree, hexec, hbuilt, htree, hst, hw, hperm⟩ := exec_build_of_fits hr hfit
  refine ⟨builtState N s, tree, hexec, rfl, htree, ?_, builtState_nodeCount_toNat N s, hbuilt.count.2, fun i hi => ?_,
    fun i hge hlt => (hbuilt.merged i hge hlt).children_lt, builtState_root_toNat N s, ?_⟩
  · rw [← CodeTree.length_symbols, hperm.length_eq]
  · exact ⟨_, hbuilt.leaves i hi, rfl, leafNode_symbol (usedSymbols_le (List.getElem_mem hi)) _⟩
  · rw [← htree.index, weightAt_of_stores hst (hw.trans_le hfit), hw]

/-! ## BUILD of no bytes -/

/-- With no byte counted, only the end-of-stream symbol gets a leaf (R40, R95). -/
theorem usedSymbols_of_no_bytes {s : State} (h : ∀ sym < 256, freqAt s sym = 0#32) : usedSymbols s = [256] := by
  have hbytes : ((List.range 256).filter fun sym => freqAt s sym != 0#32) = [] :=
    List.filter_eq_nil_iff.mpr fun sym hsym => by simp [h sym (List.mem_range.mp hsym)]
  have heof : freqAt s 256 = 1#32 := freqAt_eof s
  rw [usedSymbols, show Config.nsym = 256 + 1 from rfl, List.range_succ, List.filter_append, hbytes]
  simp [heof]

/-- Settles O36: the only leaf is that of the end-of-stream symbol, which `exec_build_of_fits` leaves in entry 0. -/
theorem buildOfNoBytes : Obligations.BuildOfNoBytes := by
  intro s hr hzero
  have hused := usedSymbols_of_no_bytes hzero
  have hone : freqAt s 256 = 1#32 := freqAt_eof s
  have htotal : totalCount s = 1 := by simp [← sum_used, hused, countOf, hone]
  obtain ⟨N, -, hexec, hbuilt, -⟩ := exec_build_of_fits hr (by rw [htotal]; decide)
  have hleaf : N[0]? = some (leafNode 256 1#32) := by
    have h0 := hbuilt.leaves 0 (by simp [hused])
    simp only [hused, List.getElem_cons_zero, hone] at h0
    exact h0
  have hnodes : N = s.nodes.set 0 (leafNode 256 1#32) := by
    refine Vector.ext fun j hj => Option.some.inj ?_
    rw [← Vector.getElem?_eq_getElem, ← Vector.getElem?_eq_getElem, Vector.getElem?_set]
    split
    · next h0 => rw [← h0, hleaf]
    · next h0 =>
      refine hbuilt.above j ?_
      rw [builtState_nodeCount_toNat, hused]
      exact Nat.one_le_iff_ne_zero.mpr (Ne.symm h0)
  rw [hexec, builtState, hused, hnodes]
  rfl

/-! ## BUILD is a function of FREQ -/

/-- A BUILD over the same counts makes no more nodes than one that stops at a merge that does not fit (R91, R94): it would have
to make the same merge. -/
theorem Built.nodeCount_le_of_overflow {s s' u u' : State} {a b : Nat} (hf : s'.freq = s.freq) (h : Built s u)
    (h' : Built s' u') (htwo : TwoLeast u u.nodeCount.toNat a b) (hover : Config.weightMax < weightAt u a + weightAt u b) :
    u'.nodeCount.toNat ≤ u.nodeCount.toNat := by
  by_contra! hlt
  have hsame : ∀ k < u.nodeCount.toNat, nodeAt u' k = nodeAt u k := fun k hk => Built.unique hf h h' k hk (hk.trans hlt)
  obtain ⟨a', b', htwo', hfit, -⟩ := h'.merged _ (by rw [usedSymbols_congr hf]; exact h.count.1) hlt
  obtain ⟨rfl, rfl⟩ := TwoLeast.unique (htwo.congr hsame) htwo'
  obtain ⟨ha, hb, -⟩ := htwo
  rw [weightAt_congr (hsame _ (inQ_iff.mp ha).1), weightAt_congr (hsame _ (inQ_iff.mp hb).1)] at hfit
  exact absurd hfit (Nat.not_le.mpr hover)

/-- Settles O37: the counts decide how BUILD ends, and so the registers: NODE_COUNT by the number of symbols when they fit, and
by the first merge that does not otherwise. The nodes are the same by `Built.unique`. -/
theorem buildIsAFunctionOfFreq : Obligations.BuildIsAFunctionOfFreq := by
  intro s s' t t' hr hr' hf ht ht'
  obtain ⟨u, hu, hbuilt, hends⟩ := exec_build_cases hr
  obtain rfl := Host.Outcome.next.inj (ht.symm.trans hu)
  obtain ⟨u', hu', hbuilt', hends'⟩ := exec_build_cases hr'
  obtain rfl := Host.Outcome.next.inj (ht'.symm.trans hu')
  rw [totalCount_congr hf] at hends'
  obtain ⟨hcount, hroot, hvalid, hcode, hinfo⟩ : t'.nodeCount = t.nodeCount ∧ t'.root = t.root ∧
      t'.treeValid = t.treeValid ∧ t'.errCode = t.errCode ∧ t'.errInfo = t.errInfo := by
    rcases hends with ⟨hfit, -⟩ | ⟨hover, hstop, a, b, htwo, hab⟩
    · obtain ⟨N, -, hN, -⟩ := exec_build_of_fits hr hfit
      obtain ⟨N', -, hN', -⟩ := exec_build_of_fits hr' (by rwa [totalCount_congr hf])
      obtain rfl := Host.Outcome.next.inj (ht.symm.trans hN)
      obtain rfl := Host.Outcome.next.inj (ht'.symm.trans hN')
      simp only [builtState, completed, usedSymbols_congr hf, and_self]
    · obtain ⟨-, hstop', a', b', htwo', hab'⟩ := hends'.resolve_left fun h => Nat.not_le.mpr hover h.1
      have hcount : t'.nodeCount = t.nodeCount := BitVec.eq_of_toNat_eq <|
        (hbuilt.nodeCount_le_of_overflow hf hbuilt' htwo hab).antisymm
          (hbuilt'.nodeCount_le_of_overflow hf.symm hbuilt htwo' hab')
      rw [hstop, hstop']
      simp only [aborted, hcount, and_self]
  exact ⟨hcount, hroot, hvalid, hcode, hinfo, fun i hi => Built.unique hf hbuilt hbuilt' i hi (by rwa [hcount])⟩

end Sys2Proof.Machine
end

section
/-!
PROOFS. O24: what FLUSH_OUT, WRITE_MAGIC, SERIALIZE, ENCODE and DECODE leave unchanged (R100, R101, R123, R130, R143).
-/

namespace Sys2Proof.Machine

/-! ## A state from its mask and the bits appended to OUT -/

theorem exists_eq_of_maskOut {s t : State} (h : maskOut t = maskOut s) (happ : Appends s t) :
    ∃ b, t = { withStatusOf t s with outBits := s.outBits ++ b } := by
  obtain ⟨b, hb⟩ := happ
  refine ⟨b, ?_⟩
  rw [← hb]
  exact congrArg (fun m => { withStatusOf t m with outBits := t.outBits }) h

theorem exists_eq_of_maskStream {s t : State} (h : maskStream t = maskStream s) (happ : Appends s t) :
    ∃ b, t = { withStatusOf t s with outBits := s.outBits ++ b, inPos := t.inPos } := by
  obtain ⟨b, hb⟩ := happ
  refine ⟨b, ?_⟩
  rw [← hb]
  exact congrArg (fun m => { withStatusOf t m with outBits := t.outBits, inPos := t.inPos }) h

/-- FLUSH_OUT, WRITE_MAGIC and SERIALIZE only append to OUT (R100, R101, R143). -/
theorem bodyOf_maskOut {i : Instr} (hi : i ∈ [Instr.flushOut, Instr.writeMagic, Instr.serialize]) (s : State) :
    (bodyOf i s).All fun u => maskOut u = maskOut s := by
  simp only [List.mem_cons, List.not_mem_nil, or_false] at hi
  obtain rfl | rfl | rfl := hi
  · exact (flushOutBody_mask s).mono fun _ h => h.1
  · exact (writeMagicBody_mask s).mono fun _ h => h.1
  · exact (serializeBody_mask s).mono fun _ h => h.1

/-- ENCODE and DECODE append to OUT and move the cursor (R123, R130). -/
theorem bodyOf_maskStream {i : Instr} (hi : i ∈ [Instr.encode, Instr.decode]) (s : State) :
    (bodyOf i s).All fun u => maskStream u = maskStream s := by
  simp only [List.mem_cons, List.not_mem_nil, or_false] at hi
  obtain rfl | rfl := hi
  · exact (encodeBody_mask s).mono fun _ h => h.1
  · exact (decodeBody_mask s).mono fun _ h => h.1

/-- Settles O24: each command keeps its mask by `exec_mask`, and OUT is appended to by `exec_ports`. -/
theorem frameOfStreamCommands : Obligations.FrameOfStreamCommands := by
  intro s t
  refine ⟨fun i hi h => exists_eq_of_maskOut ?_ (exec_ports h).2, fun i hi h => exists_eq_of_maskStream ?_ (exec_ports h).2⟩
  · exact exec_mask maskOut (fun _ => rfl) (fun _ => rfl) (bodyOf_maskOut hi) h
  · exact exec_mask maskStream (fun _ => rfl) (fun _ => rfl) (bodyOf_maskStream hi) h

end Sys2Proof.Machine
end

section
/-!
PROOFS. The marker, O30 and O45: WRITE_MAGIC and CHECK_MAGIC (R100, R103, R113).
-/

namespace Sys2Proof.Machine

/-- Settles O30: the 32 bits that are appended are the marker's four bytes, `magicBits_eq_bytes`. -/
theorem writeMagicAppends : Obligations.WriteMagicAppends := by
  intro s hr
  rw [← magicBits_eq_bytes]
  exact exec_of_ok .writeMagic hr rfl

/-- CHECK_MAGIC where 32 bits are left: it takes them, and LAST_MAGIC is their value (R103). -/
theorem checkMagicBody_of_word {s : State} {v : Word} {rest : Bits} (h : remaining s = spell Config.magicW v.toNat ++ rest) :
    checkMagicBody s =
      if v = Config.magic then .ok () { s with lastMagic := v, inPos := s.inPos + 32#64 }
      else raise (opcode .checkMagic) .badFormat 1#8 v.toNat { s with lastMagic := v, inPos := s.inPos + 32#64 } := by
  have hread : readBits Config.magicW { s with lastMagic := 0#32 } =
      some (v.toNat, advance Config.magicW { s with lastMagic := 0#32 }) := by
    rw [readBits_of_append (s := { s with lastMagic := 0#32 }) h (length_spell _ _), bitsValue_spell,
      Nat.mod_eq_of_lt (show v.toNat < 2 ^ Config.magicW from v.isLt)]
  rw [checkMagicBody, hread]
  simp only [ne_eq, BitVec.toNat_inj, ite_not, BitVec.ofNat_toNat, BitVec.setWidth_eq]
  rfl

/-- CHECK_MAGIC where fewer than 32 bits are left: it takes none (R113). -/
theorem checkMagicBody_of_short {s : State} (h : (remaining s).length < Config.magicW) :
    checkMagicBody s =
      raise (opcode .checkMagic) .badFormat 2#8 (remaining s).length { s with lastMagic := 0#32 } := by
  rw [length_remaining] at h ⊢
  have hread : readBits Config.magicW { s with lastMagic := 0#32 } = none := (readBits_eq_none_iff _ _ _).mpr h
  rw [checkMagicBody, hread]
  rfl

/-- Settles O45: `checkMagicBody_of_word` for the marker and for another word, and `checkMagicBody_of_short`. -/
theorem checkMagicComparesTheMarker : Obligations.CheckMagicComparesTheMarker := by
  intro s hr _
  refine ⟨fun rest h => ?_, fun v rest h hne => ?_, fun h => ?_⟩
  · rw [← magicBits_eq_bytes] at h
    exact exec_of_ok .checkMagic hr ((checkMagicBody_of_word (s := started s) h).trans (if_pos rfl))
  · exact exec_of_abort .checkMagic hr ((checkMagicBody_of_word (s := started s) h).trans (if_neg hne))
  · exact exec_of_abort .checkMagic hr (checkMagicBody_of_short (s := started s) h)

end Sys2Proof.Machine
end

section
/-!
PROOFS. The header of a tree, O44, O46 and O48: SERIALIZE writes it, DESERIALIZE reads it, and the one undoes the other
(R101 to R105, R110 to R112).
-/

namespace Sys2Proof.Machine

/-- SERIALIZE of a valid tree (R101, R102). -/
theorem exec_serialize_of_tree {s : State} {tree : CodeTree} (hr : Ready s) (hv : s.treeValid = true) (h : TreeIs s tree) :
    exec .serialize s = .next { completed s with outBits := s.outBits ++ tree.header } :=
  exec_of_ok .serialize hr (serializeBody_of_tree (s := started s) hv (h.congr rfl rfl rfl))

/-- Settles O44: `exec_serialize_of_tree`, the lengths of header and node list, and `header_inj`. -/
theorem serializeWritesTheHeader : Obligations.SerializeWritesTheHeader := by
  refine ⟨fun s tree hr hv h => exec_serialize_of_tree hr hv h, fun tree => ?_, fun t u x y ht hu h => header_inj ht hu h 0⟩
  have hheader := tree.length_header
  have hindices := tree.length_indices
  omega

/-- Settles O46: `deserializeBody_header` from the started state, and `preorder_node` for the single nodes. -/
theorem deserializeReadsTheHeader : Obligations.DeserializeReadsTheHeader := by
  intro s tree rest hr hp hin hs hn
  obtain ⟨u, N, hbody, hu, hst, htree⟩ := deserializeBody_header (s := started s) hp hin hs hn
  have hlen : 11 * tree.leaves.length - 1 = tree.header.length := by
    rw [← tree.length_header, Nat.add_sub_cancel]
  have hcap : 0 + tree.indices.length ≤ 1023 := by
    have hcap : tree.indices.length ≤ 513 := length_indices_le hn hs
    omega
  have ht : finished u = { completed s with
      nodes := u.nodes, nodeCount := BitVec.ofNat 10 tree.indices.length, root := 0#10, treeValid := true
      tableValid := false, inPos := s.inPos + BitVec.ofNat 64 (11 * tree.leaves.length - 1) } := by
    rw [hu, hlen]
    rfl
  have hst' : Stores (finished u) (fun _ => 0#32) (tree.preorder 0) := hst.congr fun _ _ => rfl
  refine ⟨finished u, exec_of_ok .deserialize hr hbody, ht, htree.congr rfl rfl rfl, hst', fun i hi => ?_, ?_⟩
  · exact preorder_node hst' hcap i (Nat.zero_le i) (by omega)
  · rw [← remaining_advance_append hp hin rfl, hu]
    rfl

/-- The state in which the host has loaded what it took from OUT: IN is the bits of OUT, with the cursor at their beginning
(R180). -/
def outLoaded (s : State) : State := { s with inBits := s.outBits, inPos := 0#64 }

/-- Settles O48: the header that `exec_serialize_of_tree` writes is read back by `deserializeReadsTheHeader`, with nothing
behind it. -/
theorem headerRoundTrip : Obligations.HeaderRoundTrip := by
  intro s tree hr hv htree hout
  have hser := exec_serialize_of_tree hr hv htree
  rw [hout, List.nil_append] at hser
  set t : State := { completed s with outBits := tree.header }
  have hport : PortOk (outLoaded t) := by
    have hlen := tree.length_header
    have hleaves : tree.leaves.length ≤ 257 := htree.length_leaves
    have hlimit : tree.header.length < 2 ^ 64 := by omega
    exact ⟨hlimit, Nat.zero_le _⟩
  have hin : remaining (outLoaded t) = tree.header ++ [] := (List.append_nil _).symm
  obtain ⟨-, -, hnodup, hsym⟩ := htree
  obtain ⟨u, hu, hueq, hutree, -, hnode, hrem⟩ :=
    deserializeReadsTheHeader (outLoaded t) tree [] ⟨rfl, hr.2⟩ hport hin hsym hnodup
  refine ⟨t, u, hser, hu, congrArg State.done hueq, congrArg State.treeValid hueq, hutree, tree.leaves_preorder 0,
    fun i hi => ?_, hrem⟩
  have hcount : u.nodeCount.toNat ≤ tree.indices.length := by
    rw [hueq]
    exact Nat.mod_le _ _
  obtain ⟨n, hn, hweight, -⟩ := hnode i (hi.trans_le hcount)
  rw [weightAt, hn]
  exact congrArg BitVec.toNat hweight

end Sys2Proof.Machine
end

section
/-!
PROOFS. O47: the four refusals of DESERIALIZE behind an open header (R106 to R109).
-/

namespace Sys2Proof.Machine

/-- Where `Des` refuses the node behind the break, DESERIALIZE ends with the nodes in front of it made and the bits taken that
`Des` took (R104, R162). -/
theorem exec_deserialize_malformed {s : State} {o : OpenHeader} {rest : Bits} {detail : BitVec 8} {info k : Nat}
    (hr : Ready s) (hp : PortOk s) (hc : o.nodes ≤ Config.nodeCap) (hs : ∀ x ∈ o.symbols, x ≤ Config.eofSym)
    (hn : o.symbols.Nodup) (hin : remaining s = o.bits ++ rest)
    (hdes : ∀ (d : Nat) (seen : List Nat) (u : State), (∀ x, x ∈ seen ↔ x ∈ o.symbols) → PortOk u → remaining u = rest →
      u.nodeCount.toNat = o.nodes → desNode (d + 1) seen u = malformed detail info (advance k u)) :
    ∃ t, exec .deserialize s = .next t ∧ OpenStores t 0 o ∧
      t = { aborted 0x05#8 detail 0x09#8 info s with
        nodes := t.nodes, nodeCount := BitVec.ofNat 10 o.nodes, root := 0#10, treeValid := false, tableValid := false
        inPos := s.inPos + BitVec.ofNat 64 (o.bits.length + k) } := by
  obtain ⟨d, seen, N, hseen, hst, hport, hrem, hcount, habort⟩ :=
    deserializeBody_open (s := started s) hp hin hc hs hn
  refine ⟨_, exec_of_abort .deserialize hr (habort _ (hdes d seen _ hseen hport hrem hcount)), hst.congr fun _ _ _ => rfl, ?_⟩
  simp [raised, atBreak, grown, dropTree, aborted, advance, errCodeOf, opcode, BitVec.ofNat_add, BitVec.add_assoc]

/-- Settles O47: each refusal is one that `Des` makes at the node behind the break, from `desNode_bad_leaf`, `desNode_full` or
`desNode_exhausted`. -/
theorem deserializeRefusals : Obligations.DeserializeRefusals := by
  refine ⟨fun tree hs hn => length_indices_le hn hs, fun s o hr hp hc hs hn => ⟨?_, ?_, ?_, ?_⟩⟩
  · intro v rest hin (hgt : v > Config.eofSym) hv9
    refine exec_deserialize_malformed hr hp hc hs hn hin fun d seen u _ hpu hru _ => ?_
    rw [desNode_bad_leaf hpu hv9 hru, if_pos hgt]
    rfl
  · intro v rest hin hv
    have hle : v ≤ Config.eofSym := hs v hv
    refine exec_deserialize_malformed hr hp hc hs hn hin fun d seen u hseen hpu hru _ => ?_
    rw [desNode_bad_leaf hpu (hle.trans_lt (by decide)) hru, if_neg hle.not_gt, if_pos ((hseen v).mpr hv)]
    rfl
  · intro b v rest hfull (hle : v ≤ Config.eofSym) hnew hin
    rw [show 513#10 = BitVec.ofNat 10 o.nodes by rw [hfull]]
    refine exec_deserialize_malformed hr hp hc hs hn hin fun d seen u hseen hpu hru hcount => ?_
    have hcap : u.nodeCount.toNat = Config.nodeCap := hcount.trans hfull
    cases b with
    | false =>
      rw [desNode_full hru hcap, hcap]
      rfl
    | true =>
      rw [desNode_bad_leaf hpu (hle.trans_lt (by decide)) hru, if_neg hle.not_gt,
        if_neg (fun h => hnew ((hseen v).mp h)), if_pos hcap, hcap]
      rfl
  · intro short hin hshort
    refine exec_deserialize_malformed hr hp hc hs hn hin fun d seen u _ hpu hru hcount => ?_
    rw [desNode_exhausted hpu hru hshort, hcount]

end Sys2Proof.Machine
end

section
/-!
PROOFS. The code table, O39 and O43: GEN_TABLE stores the paths of the tree, and no code is a prefix of another (R120 to R122,
R126).
-/

namespace Sys2Proof.Machine

/-- GEN_TABLE of a valid tree completes with the tree's code table in place of the old one (R120, R121). -/
theorem exec_genTable_of_tree {s : State} {tree : CodeTree} (hr : Ready s) (hv : s.treeValid = true) (h : TreeIs s tree) :
    exec .genTable s = .next { completed s with codes := tableOf tree, tableValid := true } :=
  exec_of_ok .genTable hr (genTableBody_closed (s := started s) hv (h.congr rfl rfl rfl))

/-- The code table entry of a symbol with a path (R121). -/
theorem codeOf_of_path {t : CodeTree} {sym : Nat} {p : Bits} (h : t.path sym = some p) :
    codeOf t sym = ⟨true, BitVec.ofNat 9 p.length, BitVec.ofNat 256 (bitsValue p)⟩ := by
  rw [codeOf, h]

/-- The code table entry of a symbol without a leaf (R121). -/
theorem codeOf_of_not_mem {t : CodeTree} {sym : Nat} (h : sym ∉ t.symbols) : codeOf t sym = Code.none := by
  rw [← path_isSome_iff, Option.not_isSome_iff_eq_none] at h
  rw [codeOf, h]

/-- Only the symbols of a tree's leaves have codes (R121). -/
theorem mem_symbols_of_codeOf_valid {t : CodeTree} {sym : Nat} (h : (codeOf t sym).valid = true) : sym ∈ t.symbols := by
  by_contra hmem
  rw [codeOf_of_not_mem hmem] at h
  cases h

/-- Settles O39: `exec_genTable_of_tree` for the command; a symbol's entry is its path's by `path_of_mem`, whose bits
`codeOf_bits` spells. -/
theorem genTableStoresThePaths : Obligations.GenTableStoresThePaths := by
  intro s tree hr hv htree
  have ⟨_, _, hnodup, _⟩ := htree
  have hpath : ∀ p ∈ tree.leaves, tree.path p.1 = some p.2 := fun p hp => path_of_mem hnodup hp
  refine ⟨exec_genTable_of_tree hr hv htree, fun p hp => ?_, fun sym hsym => codeOf_of_not_mem hsym, ?_⟩
  · have hlen : p.2.length ≤ 256 := htree.length_path hp
    exact ⟨CodeTree.length_path_lt hp, hlen, codeOf_of_path (hpath p hp), (codeOf_bits (hpath p hp) hlen).1⟩
  · rintro i sym rfl
    exact codeOf_of_path (hpath (sym, []) (List.mem_singleton.mpr rfl))

/-- Settles O43: the codes are the paths of two leaves by `TableIs.code`, and `leaves_prefixFree` says that no
path begins with another. -/
theorem codesArePrefixFree : Obligations.CodesArePrefixFree := by
  intro s t tree hr hv htree hexec a ha b hb hab hva hvb
  obtain rfl := Host.Outcome.next.inj ((exec_genTable_of_tree hr hv htree).symm.trans hexec)
  set t : State := { completed s with codes := tableOf tree, tableValid := true }
  have htree' : TreeIs t tree := htree.congr rfl rfl rfl
  have ⟨_, _, hnodup, _⟩ := htree
  have htable : TableIs t tree := codeAt_tableOf rfl
  rw [htable a ha] at hva
  rw [htable b hb] at hvb
  obtain ⟨p, hp, rfl⟩ := List.mem_map.mp (mem_symbols_of_codeOf_valid hva)
  obtain ⟨q, hq, rfl⟩ := List.mem_map.mp (mem_symbols_of_codeOf_valid hvb)
  rw [(htable.code htree' hp).2, (htable.code htree' hq).2]
  exact leaves_prefixFree hnodup p hp q hq hab

end Sys2Proof.Machine
end

section
/-!
PROOFS. The encoder, O41 and O42: ENCODE of whole bytes that have codes, and its errors (R123 to R125, R127).
-/

namespace Sys2Proof.Machine

@[simp] theorem Code.length_bits (c : Code) : c.bits.length = c.len.toNat := length_spell _ _

/-- The codes of bytes are together as long as their LENs say (R127). -/
theorem length_codesOf (s : State) (bs : List Byte) :
    (codesOf s bs).length = (bs.map fun b => (codeAt s b.toNat).len.toNat).sum := by
  simp only [codesOf, List.length_flatMap, Code.length_bits]

/-- Settles O41: `encodeBody_bytes` from the started state, and `length_codesOf` for the number of bits. -/
theorem encodeWritesTheCodes : Obligations.EncodeWritesTheCodes := by
  intro s bs hr hp hv hin hc he
  refine ⟨exec_of_ok .encode hr (encodeBody_bytes (s := started s) hv hp hin hc he), ?_⟩
  rw [List.length_append, Code.length_bits]
  exact congrArg (· + _) (length_codesOf s bs)

/-- Settles O42: `encodeBody_missing`, `encodeBody_missing_eof` and `encodeBody_partial` from the started state. -/
theorem encodeErrors_raised : Obligations.EncodeErrors := by
  intro s bs hr hp hv hc
  refine ⟨fun r rest hin hm => ?_, fun hin he => ?_, fun tail hin h0 h8 => ?_⟩
  · rw [bytesToBits_cons, bytesToBits_nil, List.append_nil] at hin
    exact exec_of_abort .encode hr (encodeBody_missing (s := started s) hv hp hin hc hm)
  · exact exec_of_abort .encode hr (encodeBody_missing_eof (s := started s) hv hp hin hc he)
  · exact exec_of_abort .encode hr (encodeBody_partial (s := started s) hv hp hin hc h0 h8)

end Sys2Proof.Machine
end

section
/-!
PROOFS. The decoder, O49 to O51: DECODE of a whole stream, of a root leaf, and of a stream that breaks off (R130 to R135).
-/

namespace Sys2Proof.Machine

/-- Settles O49: `decodeBody_reads` from the started state. -/
theorem decodeReadsTheStream : Obligations.DecodeReadsTheStream := by
  intro s tree bs e rest hr hp hv htree hb he hin
  exact exec_of_ok .decode hr (decodeBody_reads (s := started s) hv (htree.congr rfl rfl rfl) hb he hp hin)

/-- DECODE where the root is a leaf reads nothing: the symbol alone decides how it ends (R131). -/
theorem decodeBody_leaf {s : State} {i sym : Nat} (hv : s.treeValid = true) (h : TreeIs s (.leaf i sym)) :
    decodeBody s =
      if sym = Config.eofSym then .ok () s else raise (opcode .decode) .degenerateTree 0#8 sym s := by
  obtain ⟨n, hnode, hleaf, hsym⟩ := h.holds
  have hroot : i = s.root.toNat := h.index
  rw [hroot] at hnode
  rw [decodeBody, if_pos hv, hnode, ← hsym]
  exact if_pos hleaf

/-- Settles O50: the two branches of `decodeBody_leaf` from the started state. -/
theorem decodeOfARootLeaf : Obligations.DecodeOfARootLeaf := by
  intro s i sym hr hv htree
  have hbody := decodeBody_leaf (s := started s) hv (htree.congr rfl rfl rfl)
  refine ⟨fun heof => ?_, fun hbyte => ?_⟩
  · exact exec_of_ok .decode hr (hbody.trans (if_pos heof))
  · exact exec_of_abort .decode hr (hbody.trans (if_neg hbyte))

/-- Reading all the bits that are left brings IN_POS to the end of IN (R51). -/
theorem inPos_add_bitsLeft {s : State} (hp : PortOk s) :
    s.inPos + BitVec.ofNat 64 (bitsLeft s) = BitVec.ofNat 64 s.inBits.length := by
  obtain ⟨-, hpos⟩ := hp
  calc s.inPos + BitVec.ofNat 64 (bitsLeft s)
      = BitVec.ofNat 64 (s.inPos.toNat + bitsLeft s) := by rw [BitVec.ofNat_add, BitVec.ofNat_toNat, BitVec.setWidth_eq]
    _ = BitVec.ofNat 64 s.inBits.length := by rw [bitsLeft, Nat.add_sub_cancel' hpos]

/-- DECODE of the paths of bytes and then less than a path takes all of IN and is truncated (R132). -/
theorem exec_decode_truncated {s : State} {i : Nat} {l r : CodeTree} {bs : List Byte} {sym : Nat} {b q : Bits}
    (hr : Ready s) (hp : PortOk s) (hv : s.treeValid = true) (htree : TreeIs s (.node i l r))
    (hb : ∀ c ∈ bs, c.toNat ∈ (CodeTree.node i l r).symbols) (hm : (sym, b ++ q) ∈ (CodeTree.node i l r).leaves)
    (hq : q ≠ []) (hin : remaining s = pathsOf (.node i l r) bs ++ b) :
    exec .decode s = .next { aborted 0x03#8 0#8 0x0A#8 (bs.length % 2 ^ 32) s with
      inPos := BitVec.ofNat 64 s.inBits.length, outBits := s.outBits ++ bytesToBits bs } := by
  have hleft : (pathsOf (.node i l r) bs).length + b.length = bitsLeft s := by
    rw [← length_remaining, hin, List.length_append]
  have hbody := decodeBody_truncated (s := started s) hv (htree.congr rfl rfl rfl) hb hm hq hp hin
  rw [hleft] at hbody
  rw [← inPos_add_bitsLeft hp]
  exact exec_of_abort .decode hr hbody

/-- Settles O51: `exec_decode_truncated`; without an end-of-stream leaf `decode_parse` finds the paths of bytes and the
rest that breaks off, on every input. -/
theorem decodeTruncation : Obligations.DecodeTruncation := by
  refine ⟨fun _ _ _ _ _ _ _ _ => exec_decode_truncated, fun s i l r hr hp hv htree hnone => ?_⟩
  have ⟨_, _, hnodup, hsym⟩ := htree
  obtain ⟨bs, hb, ⟨e, rest, he, -⟩ | ⟨sym, b, q, hq, hm, hin⟩⟩ := decode_parse hsym hnodup (remaining s)
  · cases hnone.symm.trans he
  · exact ⟨bs, b, hb, hin, exec_decode_truncated hr hp hv htree hb hm hq hin⟩

end Sys2Proof.Machine
end

section
/-!
PROOFS. O56: COMPRESS and then DECOMPRESS gives back every byte file (R147).
-/

namespace Sys2Proof.Machine

/-! ## A host that loads a file, empties OUT, issues a command and takes OUT -/

/-- The state that the command starts from: IN is the file, with the cursor at its beginning, and OUT is empty (R180). -/
def fileGiven (bits : Bits) (rest : List HostAction) (s : State) : State :=
  { s with inBits := bits, inPos := 0#64, outBits := [], host := rest, reply := .nothing }

/-- The host's four actions around a command return what the command left in OUT (R180). -/
theorem runActions_of_file {s t : State} {bits : Bits} {i : Instr} {rest : List HostAction} (hb : s.busy = false)
    (hl : bits.length < Config.portLimit) (hh : s.host = .load bits :: .take :: issue i :: .take :: rest)
    (he : exec i (fileGiven bits (.take :: rest) s) = .next t) (ht : t.busy = false) :
    runActions 4 s = .next { popAction rest t with reply := .bits t.outBits, outBits := [] } := by
  let loaded : State := { popAction (.take :: issue i :: .take :: rest) s with inBits := bits, inPos := 0#64 }
  let emptied : State := { popAction (issue i :: .take :: rest) loaded with reply := .bits loaded.outBits, outBits := [] }
  have hload : step s = .next loaded := step_load hb hl hh
  have hempty : step loaded = .next emptied := step_take hb rfl
  have hissue : step emptied = .next t := (step_issue rfl).trans he
  have htake : step t = .next { popAction rest t with reply := .bits t.outBits, outBits := [] } :=
    step_take ht (exec_host he)
  rw [runActions_succ hload, runActions_succ hempty, runActions_succ hissue, runActions_succ htake, runActions]

/-! ## The compressed file fits the IN port -/

/-- The path of a symbol is at most as long as the deepest code, 256 bits, and empty where the symbol has no leaf (R121). -/
theorem TreeIs.length_path_getD {s : State} {t : CodeTree} (h : TreeIs s t) (sym : Nat) :
    ((t.path sym).getD []).length ≤ Config.maxCodeLen := by
  cases hp : t.path sym with
  | none => exact Nat.zero_le _
  | some p => exact h.length_path (path_mem hp)

/-- The code bits of a byte file (R79, R121). -/
theorem TreeIs.length_pathsOf {s : State} {t : CodeTree} (h : TreeIs s t) (bs : List Byte) :
    (pathsOf t bs).length ≤ bs.length * Config.maxCodeLen := by
  rw [pathsOf, List.length_flatMap]
  refine (List.sum_le_card_nsmul _ Config.maxCodeLen fun n hn => ?_).trans_eq (by rw [List.length_map, smul_eq_mul])
  obtain ⟨b, -, rfl⟩ := List.mem_map.mp hn
  exact h.length_path_getD b.toNat

/-- What COMPRESS makes of a file that COUNT accepts is short enough to be loaded (R51, R79). -/
theorem TreeIs.format_lt_portLimit {s : State} {t : CodeTree} (h : TreeIs s t) {bs : List Byte} {e pad : Bits}
    (hl : bs.length ≤ Config.countMax) (he : t.path Config.eofSym = some e) (hp : pad.length < 8) :
    (magicBits ++ (t.header ++ (pathsOf t bs ++ (e ++ pad)))).length < Config.portLimit := by
  have hheader := t.length_header
  have hleaves := h.length_leaves
  have hpaths := h.length_pathsOf bs
  have heof : e.length ≤ Config.maxCodeLen := h.length_path (path_mem he)
  simp only [List.length_append, magicBits, length_spell, Config.magicW, Config.nsym, Config.maxCodeLen, Config.countMax,
    Config.portLimit] at *
  omega

/-- Settles O56: COMPRESS writes the format by `compressWritesTheFormat`, whose whole bytes the host loads unchanged, and
DECOMPRESS reads it by `decompressReadsTheFormat`; the pad is what follows the end-of-stream code. -/
theorem roundTrip : Obligations.RoundTrip := by
  intro s bs rest hr hl hh
  have hin : (bytesToBits bs).length < Config.portLimit := by
    rw [length_bytesToBits, Config.portLimit]
    omega
  obtain ⟨t, tree, e, k, hcompress, htree, hbytes, he, hk, ht, haligned⟩ :=
    compressWritesTheFormat (fileGiven (bytesToBits bs) (.take :: rest) s) bs hr rfl hl
  have hbusy : t.busy = false := congrArg State.busy ht
  have herr : t.err = false := (congrArg State.err ht).trans hr.2
  refine ⟨_, t.outBits, runActions_of_file hr.1 hin hh hcompress hbusy, rfl, haligned, congrArg State.done ht, herr, rfl,
    fun more => ?_⟩
  have hload : loadBytes (bitsToBytes t.outBits) = .load t.outBits := by
    rw [loadBytes, bytesToBits_bitsToBytes haligned]
  have hout : t.outBits = bytesToBits [0xFA#8, 0xCE#8, 0x82#8, 0x01#8] ++
      (tree.header ++ (pathsOf tree bs ++ (e ++ List.replicate k false))) := congrArg State.outBits ht
  have hfits : t.outBits.length < Config.portLimit := by
    rw [hout, ← magicBits_eq_bytes]
    exact htree.format_lt_portLimit hl he (by rwa [List.length_replicate])
  obtain ⟨-, -, hnodup, hsym⟩ := htree
  obtain ⟨u, hdecompress, -, hu⟩ := decompressReadsTheFormat (fileGiven t.outBits (.take :: more) t) tree bs e
    (List.replicate k false) ⟨hbusy, herr⟩ hfits hout hsym hnodup hbytes he
  have hfile : u.outBits = bytesToBits bs := congrArg State.outBits hu
  rw [hload]
  refine ⟨_, runActions_of_file (t := u) hbusy hfits rfl hdecompress (congrArg State.busy hu), ?_, congrArg State.done hu,
    (congrArg State.err hu).trans herr⟩
  rw [← hfile]

end Sys2Proof.Machine
end

section
/-!
PROOFS. O25: what COMPRESS and DECOMPRESS leave unchanged (R144, R145).
-/

namespace Sys2Proof.Machine

/-! ## A state from its mask and the bits appended to OUT -/

theorem exists_eq_of_maskCompress {s t : State} (h : maskCompress t = maskCompress s) (happ : Appends s t) :
    ∃ b, t = { withStatusOf t s with
      freq := t.freq, countTotal := t.countTotal, inPos := t.inPos, nodes := t.nodes, nodeCount := t.nodeCount
      root := t.root, codes := t.codes, treeValid := t.treeValid, tableValid := t.tableValid
      outBits := s.outBits ++ b } := by
  obtain ⟨b, hb⟩ := happ
  refine ⟨b, ?_⟩
  rw [← hb]
  exact congrArg (fun m => { withStatusOf t m with
    freq := t.freq, countTotal := t.countTotal, inPos := t.inPos, nodes := t.nodes, nodeCount := t.nodeCount
    root := t.root, codes := t.codes, treeValid := t.treeValid, tableValid := t.tableValid, outBits := t.outBits }) h

theorem exists_eq_of_maskDecompress {s t : State} (h : maskDecompress t = maskDecompress s) (happ : Appends s t) :
    ∃ b, t = { withStatusOf t s with
      lastMagic := t.lastMagic, inPos := t.inPos, nodes := t.nodes, nodeCount := t.nodeCount, root := t.root
      treeValid := t.treeValid, tableValid := t.tableValid, outBits := s.outBits ++ b } := by
  obtain ⟨b, hb⟩ := happ
  refine ⟨b, ?_⟩
  rw [← hb]
  exact congrArg (fun m => { withStatusOf t m with
    lastMagic := t.lastMagic, inPos := t.inPos, nodes := t.nodes, nodeCount := t.nodeCount, root := t.root
    treeValid := t.treeValid, tableValid := t.tableValid, outBits := t.outBits }) h

/-- Settles O25: each command keeps its mask by `exec_mask`, and OUT is appended to by `exec_ports`. -/
theorem frameOfCompositeCommands : Obligations.FrameOfCompositeCommands := by
  intro s t
  refine ⟨fun h => exists_eq_of_maskCompress ?_ (exec_ports h).2, fun h => exists_eq_of_maskDecompress ?_ (exec_ports h).2⟩
  · exact exec_mask (i := .compress) maskCompress (fun _ => rfl) (fun _ => rfl)
      (fun u => (compressBody_mask u).mono fun _ hv => hv.1) h
  · exact exec_mask (i := .decompress) maskDecompress (fun _ => rfl) (fun _ => rfl)
      (fun u => (decompressBody_mask u).mono fun _ hv => hv.1) h

end Sys2Proof.Machine
end

section
/-!
PROOFS. O52: COMPRESS and DECOMPRESS are their steps, and stop at the first error (R146).
-/

namespace Sys2Proof.Machine

/-- A command whose pseudocode is that of other commands in sequence does what these do when issued one after the other
(R146). -/
theorem exec_eq_execSeq {i j : Instr} {is : List Instr} {s : State} (hr : Ready s) (hb : bodyOf i = runSeq (j :: is))
    (hp : ∀ k ∈ j :: is, isComposite k = false) : exec i s = execSeq (j :: is) s := by
  rw [exec_eq, hb, execSeq_eq hr hp]

/-- After an error DONE is 0, and STEP is that of an error of one of the commands in the sequence (R146, R162). -/
theorem errStep_of_runSeq {i : Instr} {is : List Instr} {s t : State} (hr : Ready s) (hb : bodyOf i = runSeq is)
    (hp : ∀ k ∈ is, isComposite k = false) (h : exec i s = .next t) (he : t.err = true) :
    t.done = false ∧ t.errStep ∈ (is.flatMap errorsOf).map fun x => x.2.2 := by
  have hends : EndsLike (started s) (is.flatMap errorsOf) (bodyOf i (started s)) := hb ▸ runSeq_status hp (started s)
  obtain ⟨u, hu, rfl⟩ | hu := exec_cases hr h
  · rw [hu] at hends
    cases he.symm.trans (ready_finished hr hends).2
  · rw [hu] at hends
    obtain ⟨-, hdone, -, hmem⟩ := hends
    exact ⟨hdone, List.mem_map_of_mem (f := fun x => x.2.2) hmem⟩

/-- Settles O52: the pseudocode of both is that of their steps in sequence, by `compressBody_eq` and `decompressBody_eq`. -/
theorem compositesAreTheirSteps : Obligations.CompositesAreTheirSteps := by
  intro s hr
  have hcompress : ∀ k ∈ compressSteps, isComposite k = false := by decide
  have hdecompress : ∀ k ∈ decompressSteps, isComposite k = false := by decide
  refine ⟨exec_eq_execSeq hr compressBody_eq hcompress, exec_eq_execSeq hr decompressBody_eq hdecompress,
    fun t h he => ?_, fun t h he => ?_⟩
  · obtain ⟨hdone, hstep⟩ := errStep_of_runSeq (i := .compress) hr compressBody_eq hcompress h he
    have hsub : ∀ x ∈ (compressSteps.flatMap errorsOf).map fun x => x.2.2,
        x ∈ [0x02#8, 0x03#8, 0x04#8, 0x06#8, 0x07#8] := by decide
    exact ⟨hdone, hsub _ hstep⟩
  · obtain ⟨hdone, hstep⟩ := errStep_of_runSeq (i := .decompress) hr decompressBody_eq hdecompress h he
    have hsub : ∀ x ∈ (decompressSteps.flatMap errorsOf).map fun x => x.2.2, x ∈ [0x08#8, 0x09#8, 0x0A#8] := by decide
    exact ⟨hdone, hsub _ hstep⟩

end Sys2Proof.Machine
end

section
/-!
PROOFS. O54: how many bits COMPRESS writes (R127, R148).
-/

namespace Sys2Proof.Machine

/-- The stored LEN of a symbol with a leaf is the length of its path (R43, R121). -/
theorem TableIs.len {s : State} {t : CodeTree} (ht : TreeIs s t) (h : TableIs s t) {p : Nat × Bits} (hp : p ∈ t.leaves) :
    (codeAt s p.1).len.toNat = p.2.length := by
  rw [← Code.length_bits, (h.code ht hp).2]

/-- Under R49 a symbol without a leaf has LEN 0 (R121). -/
theorem TableIs.len_of_not_mem {s : State} {t : CodeTree} (h : TableIs s t) {sym : Nat} (hs : sym < Config.nsym)
    (hm : sym ∉ t.symbols) : (codeAt s sym).len.toNat = 0 := by
  rw [h sym hs, codeOf_of_not_mem hm]
  rfl

/-- The LENs, weighted over all symbols, sum to the weighted path length of the tree (R127): only leaves have a LEN. -/
theorem TableIs.sum_len_eq_pathLength {s : State} {t : CodeTree} (ht : TreeIs s t) (h : TableIs s t) (w : Nat → Nat) :
    ((List.range Config.nsym).map fun sym => w sym * (codeAt s sym).len.toNat).sum = t.pathLength w := by
  have ⟨_, _, hnodup, _⟩ := ht
  have hleaves : t.leaves.map (fun p => w p.1 * (codeAt s p.1).len.toNat) = t.leaves.map fun p => w p.1 * p.2.length :=
    List.map_congr_left fun p hp => by rw [h.len ht hp]
  have hsub : t.symbols.toFinset ⊆ (List.range Config.nsym).toFinset := fun sym hsym => by
    obtain ⟨p, hp, rfl⟩ := List.mem_map.mp (List.mem_toFinset.mp hsym)
    exact List.mem_toFinset.mpr (List.mem_range.mpr (ht.symbol_lt hp))
  calc ((List.range Config.nsym).map fun sym => w sym * (codeAt s sym).len.toNat).sum
      = ∑ sym ∈ (List.range Config.nsym).toFinset, w sym * (codeAt s sym).len.toNat :=
        (List.sum_toFinset _ List.nodup_range).symm
    _ = ∑ sym ∈ t.symbols.toFinset, w sym * (codeAt s sym).len.toNat :=
        (Finset.sum_subset hsub fun sym hsym hm => by
          rw [h.len_of_not_mem (List.mem_range.mp (List.mem_toFinset.mp hsym)) fun hmem => hm (List.mem_toFinset.mpr hmem),
            Nat.mul_zero]).symm
    _ = (t.symbols.map fun sym => w sym * (codeAt s sym).len.toNat).sum := List.sum_toFinset _ hnodup
    _ = t.pathLength w := by rw [CodeTree.symbols, List.map_map, CodeTree.pathLength, ← hleaves]; rfl

/-- After a COUNT of the bytes listed, a sum over the bytes and the end-of-stream symbol is a sum over all symbols, weighted by
their counts (R40, R84). -/
theorem sum_bytes_add_eof {s : State} {bs : List Byte} (hf : s.freq = countsOf bs) (hl : bs.length ≤ Config.countMax)
    (f : Nat → Nat) : (bs.map fun b => f b.toNat).sum + f Config.eofSym =
      ((List.range Config.nsym).map fun sym => countOf s sym * f sym).sum := by
  have heof : countOf s Config.eofSym = 1 := congrArg BitVec.toNat (freqAt_eof s)
  have hbytes : ∀ sym ∈ List.range Config.eofSym, countOf s sym * f sym = bs.count (BitVec.ofNat 8 sym) * f sym :=
    fun sym hsym => by rw [countOf_of_countsOf hf hl (List.mem_range.mp hsym)]
  rw [show Config.nsym = Config.eofSym + 1 from rfl, List.range_succ, List.map_append, List.sum_append, List.map_singleton,
    List.sum_singleton, heof, Nat.one_mul, List.map_congr_left hbytes, sum_over_bytes f Config.eofSym rfl]

/-- Settles O54: the bits are those of the format, `compressWritesTheFormat`; the paths in it are the codes stored, so
`length_codesOf` counts them, and the sums are `sum_bytes_add_eof` and `TableIs.sum_len_eq_pathLength`. -/
theorem compressedSize : Obligations.CompressedSize := by
  intro s bs hr hin hl
  obtain ⟨t, tree, e, k, hexec, htree, hbytes, he, hk, ht, -⟩ := compressWritesTheFormat s bs hr hin hl
  have htable : TableIs t tree := codeAt_tableOf (by rw [ht])
  have hfreq : t.freq = countsOf bs := by rw [ht]
  refine ⟨t, tree, k, hexec, htree, hk, ?_, sum_bytes_add_eof hfreq hl fun sym => (codeAt t sym).len.toNat,
    htable.sum_len_eq_pathLength htree _⟩
  have hout := congrArg (fun u => u.outBits.length) ht
  have hmarker : (bytesToBits [0xFA#8, 0xCE#8, 0x82#8, 0x01#8]).length = 32 := length_bytesToBits _
  have hheader := tree.length_header
  have hcodes : (pathsOf tree bs).length = (bs.map fun b => (codeAt t b.toNat).len.toNat).sum := by
    rw [← codesOf_eq_pathsOf htree htable hbytes, length_codesOf]
  have heof : (codeAt t 256).len.toNat = e.length := htable.len htree (path_mem he)
  simp only [List.length_append, List.length_replicate, hmarker, hcodes, ← heof] at hout
  omega

end Sys2Proof.Machine
end

section
/-!
PROOFS. Housekeeping and port commands, O26 to O29: NOP, CLEAR, REWIND_IN and FLUSH_OUT (R140 to R143).
-/

namespace Sys2Proof.Machine

/-- Settles O26: NOP's pseudocode is empty, and `exec_ignored` refuses it while ERR = 1. -/
theorem nopCompletes : Obligations.NopCompletes := by
  refine fun s => ⟨fun hr => exec_of_ok .nop hr rfl, fun he => exec_ignored ?_ .nop⟩
  rw [ignoresCommands, he, Bool.or_true]

/-- With no node in use and no valid code table, every address of the node and code windows, and every one between them, reads
0 (R42, R44, R59). -/
theorem readAddr_window_of_empty {s : State} {a : Nat} (hn : s.nodeCount = 0#10) (ht : s.tableValid = false)
    (h1 : 0x1000 ≤ a) (h2 : a < 0x8040) : readAddr a s = 0#32 := by
  cases hr : regOf a with
  | none => exact readAddr_of_unmapped hr s
  | some r =>
    rw [readAddr_of_regOf hr]
    have hnode : ∀ i word, nodeWindow s i word = 0#32 := fun i => nodeWindow_of_ge (by rw [hn]; exact Nat.zero_le i)
    have haddr : 0x1000 ≤ regAddress r := by
      rw [← (regOf_address hr).1, wordAddress]
      omega
    cases r with
    | nodeA i => exact hnode i _
    | nodeW i => exact hnode i _
    | codeLen sym => rw [readReg_codeLen, codeWindow_of_invalid ht]
    | codeBits sym w => rw [readReg_codeBits, codeWindow_of_invalid ht]
    | freq sym =>
      have := (regOf_address hr).2 sym rfl
      simp only [regAddress] at haddr
      omega
    | _ => exact absurd haddr (by decide)

/-- Settles O27: CLEAR's pseudocode is one assignment; the windows are empty by `readAddr_window_of_empty`, and the BUILD that
follows is `buildOfNoBytes`. -/
theorem clearEmptiesTheTables : Obligations.ClearEmptiesTheTables := by
  intro s hr
  refine ⟨_, exec_of_ok .clear hr rfl, rfl, fun a h1 h2 => readAddr_window_of_empty rfl rfl h1 h2, ?_, ?_⟩
  · rw [readAddr_of_regOf regOf_freqEof]
    exact freqAt_eof _
  · refine buildOfNoBytes _ ⟨rfl, hr.2⟩ fun sym hsym => ?_
    rw [freqAt_of_lt hsym]
    exact Vector.getElem_replicate _

/-- Settles O28: REWIND_IN's pseudocode is one assignment. -/
theorem rewindInResetsTheCursor : Obligations.RewindInResetsTheCursor := fun _ hr => exec_of_ok .rewindIn hr rfl

/-- Settles O29: the pad bits are `padLength` many. -/
theorem flushOutPads : Obligations.FlushOutPads :=
  fun s hr => ⟨padLength s.outBits.length, padLength_lt _, padLength_aligns _, exec_of_ok .flushOut hr rfl⟩

end Sys2Proof.Machine
end

section
/-!
PROOFS. Errors, O57 and O40: how a command that starts can end, and the two missing preconditions (R161 to R164, R171).
-/

namespace Sys2Proof.Machine

/-- All the ends of a command that starts: it finishes with the status registers as its start left them, or it raises one of its
own errors (R161, R162). -/
theorem exec_ends_cases {i : Instr} {s t : State} (hr : Ready s) (hl : s.inBits.length < Config.portLimit)
    (h : exec i s = .next t) :
    (∃ u, t = finished u ∧ statusFields u = statusFields (started s)) ∨ AbortsWith (errorsOf i) t := by
  have hends : EndsLike (started s) (errorsOf i) (bodyOf i (started s)) := bodyOf_endsLike i hl
  obtain ⟨u, hu, rfl⟩ | hu := exec_cases hr h
  · rw [hu] at hends
    exact .inl ⟨u, rfl, hends⟩
  · rw [hu] at hends
    exact .inr hends

/-- Settles O57: by the ends of `exec_ends_cases`; a finished command has the error registers that its start cleared. -/
theorem errorsOfEachCommand : Obligations.ErrorsOfEachCommand := by
  intro i s t hr hp h
  obtain ⟨u, rfl, hu⟩ | ⟨-, hdone, herr, hmem⟩ := exec_ends_cases hr hp.1 h
  · have herr : (finished u).err = false := (ready_finished hr hu).2
    simp only [statusFields, started_errCode, started_errDetail, started_errStep, started_errInfo, Prod.mk.injEq] at hu
    obtain ⟨-, -, -, hcode, hdetail, hstep, hinfo⟩ := hu
    exact ⟨fun he => absurd (herr.symm.trans he) Bool.false_ne_true, fun _ => ⟨rfl, hcode, hdetail, hstep, hinfo⟩⟩
  · exact ⟨fun _ => ⟨hmem, hdone⟩, fun he => absurd (he.symm.trans herr) Bool.false_ne_true⟩

/-- A command whose pseudocode raises before it changes anything leaves what `aborted` says. -/
theorem exec_of_raise {i : Instr} {s : State} {step detail : BitVec 8} {e : Err} {info : Nat} (hr : Ready s)
    (hb : bodyOf i (started s) = raise step e detail info (started s)) :
    exec i s = .next (aborted (errCodeOf e) detail step info s) :=
  exec_of_abort i hr hb

/-- Settles O40: each pseudocode looks at its precondition first, and raises where it fails. -/
theorem preconditionErrors : Obligations.PreconditionErrors := by
  refine fun s hr => ⟨fun hv => ?_, fun hv => ?_⟩
  · have hno : ¬ s.treeValid = true := Bool.eq_false_iff.mp hv
    exact ⟨exec_of_raise (i := .genTable) hr (if_neg hno), exec_of_raise (i := .serialize) hr (if_neg hno),
      exec_of_raise (i := .decode) hr (if_neg hno)⟩
  · have hno : ¬ s.tableValid = true := Bool.eq_false_iff.mp hv
    exact exec_of_raise (i := .encode) hr (if_neg hno)

end Sys2Proof.Machine
end

section
/-!
PROOFS. O58: every command and every host program ends, and what a run succeeds by (R161, R162, R181, R203).
-/

namespace Sys2Proof.Machine

/-- From the invariant every command has a next state: its pseudocode ends (R203). -/
theorem exec_next {s : State} (h : Inv s) (i : Instr) : ∃ t, exec i s = .next t := by
  rw [exec_eq]
  exact runCommand_next_of_ends (bodyOf_ends i h.data.started)

/-- A command that starts ends with DONE or with ERR, and not with both. -/
theorem done_eq_not_err {i : Instr} {s t : State} (hr : Ready s) (hp : PortOk s) (h : exec i s = .next t) :
    t.done = !t.err := by
  obtain ⟨herr, hok⟩ := errorsOfEachCommand i s t hr hp h
  cases he : t.err with
  | false => exact (hok he).1
  | true => exact (herr he).2

theorem ignoresCommands_of_not_ready {s : State} (h : ¬ Ready s) : ignoresCommands s = true :=
  (Bool.not_eq_false _).mp fun hi => h (Bool.or_eq_false_iff.mp hi)

/-- From the invariant a step carries out any well-formed action, and the invariant holds again. -/
theorem step_next {s : State} {a : HostAction} {rest : List HostAction} (h : Inv s) (hh : s.host = a :: rest)
    (hw : a.wellFormed = true) : ∃ t, step s = .next t ∧ t.host = rest ∧ Inv t := by
  have hnext : ∃ t, step s = .next t ∧ t.host = rest := by
    cases hc : issuesCommand a with
    | true => exact step_of_command hh hc (exec_next (popAction_inv h rest))
    | false =>
      obtain ⟨t, hs, ht, -⟩ := step_of_not_command h.idle hh hc hw
      exact ⟨t, hs, ht⟩
  obtain ⟨t, hs, ht⟩ := hnext
  exact ⟨t, hs, ht, stepKeepsTheInvariant s t h hs⟩

/-- From the invariant the run of a host program of well-formed actions carries out all of them. -/
theorem runActions_host {as : List HostAction} {s : State} (h : Inv s) (hh : s.host = as)
    (hw : ∀ a ∈ as, a.wellFormed = true) : ∃ t, runActions as.length s = .next t ∧ t.host = [] ∧ Inv t := by
  induction as generalizing s with
  | nil => exact ⟨s, rfl, hh, h⟩
  | cons a as ih =>
    obtain ⟨ha, has⟩ := List.forall_mem_cons.mp hw
    obtain ⟨t, hs, ht, hinv⟩ := step_next h hh ha
    rw [List.length_cons, runActions_succ hs]
    exact ih hinv ht has

/-- Actions other than commands raise no error and leave the answer about the last command as it was (R181). -/
theorem runActions_no_command {as : List HostAction} {s : State} (h : Inv s) (hh : s.host = as)
    (hw : ∀ a ∈ as, a.wellFormed = true ∧ issuesCommand a = false) (last : Bool) :
    (∃ t, runActions as.length s = .next t ∧ (t.err = true → s.err = true)) ∧
      lastCommandSetDone as.length last s = last := by
  induction as generalizing s with
  | nil => exact ⟨⟨s, rfl, id⟩, rfl⟩
  | cons a as ih =>
    obtain ⟨⟨hwf, hc⟩, has⟩ := List.forall_mem_cons.mp hw
    obtain ⟨t, hs, ht, herr⟩ := step_of_not_command h.idle hh hc hwf
    obtain ⟨⟨u, hu, hue⟩, hlast⟩ := ih (stepKeepsTheInvariant s t h hs) ht has
    rw [List.length_cons, runActions_succ hs, lastCommandSetDone_succ hh hs, hc]
    exact ⟨⟨u, hu, fun he => herr (hue he)⟩, hlast⟩

/-- A run whose first action issues a command, and whose other actions issue none, succeeds exactly when the command set DONE
(R181): with DONE it left no error, and the other actions raise none. -/
theorem runSucceeds_of_command {s t : State} {i : Instr} {rest : List HostAction} (h : Inv s) (hr : Ready s)
    (hh : s.host = issue i :: rest) (hw : ∀ a ∈ rest, a.wellFormed = true ∧ issuesCommand a = false)
    (he : exec i (popAction rest s) = .next t) : runSucceeds s = t.done := by
  have hpop : Inv (popAction rest s) := popAction_inv h rest
  have hs : step s = .next t := (step_issue hh).trans he
  have hdone : t.done = !t.err := done_eq_not_err (s := popAction rest s) hr hpop.port he
  obtain ⟨⟨u, hu, herr⟩, hlast⟩ := runActions_no_command (exec_inv hpop he) (exec_host he) hw t.done
  have hrun : runProgram s = .next u := by
    rw [runProgram, hh, List.length_cons, runActions_succ hs]
    exact hu
  have hset : lastCommandSetDone s.host.length false s = t.done := by
    rw [hh, List.length_cons, lastCommandSetDone_succ hh hs, issuesCommand_issue, Ready.not_ignores hr]
    exact hlast
  rw [runSucceeds, hrun, hset]
  cases hte : t.err with
  | true => simp [hdone, hte]
  | false =>
    have hue : u.err = false := Bool.eq_false_iff.mpr fun hx => Bool.eq_false_iff.mp hte (herr hx)
    simp [hue]

/-- Settles O58: a command by `exec_next`, `exec_inv` and `done_eq_not_err`; a host program by induction over its actions, with
the invariant before each. -/
theorem everyCommandTerminates : Obligations.EveryCommandTerminates := by
  refine ⟨fun i s h => ⟨fun hr => ?_, fun hr => exec_ignored (ignoresCommands_of_not_ready hr) i⟩, fun s h hw => ?_,
    fun s t i rest h hr hh hw he => runSucceeds_of_command h hr hh hw he⟩
  · obtain ⟨t, ht⟩ := exec_next h i
    exact ⟨t, ht, (exec_inv h ht).idle, done_eq_not_err hr h.port ht⟩
  · obtain ⟨t, ht, hhost, hinv⟩ := runActions_host h rfl hw
    exact ⟨t, ht, hhost, hinv.idle⟩

end Sys2Proof.Machine
end

section
/-!
PROOFS. The host's actions, O18, O5 and O9: LOAD and TAKE, what the host can do while ERR = 1, and the acknowledgement
(R165, R166, R180, R197).
-/

namespace Sys2Proof.Machine

/-! ## LOAD and TAKE (R180) -/

theorem step_load_busy {s : State} {bits : Bits} {rest : List HostAction} (hb : s.busy = true)
    (h : s.host = .load bits :: rest) : step s = .fault .portActionWhileBusy :=
  (step_of_host h).trans (if_pos hb)

theorem step_take_busy {s : State} {rest : List HostAction} (hb : s.busy = true) (h : s.host = .take :: rest) :
    step s = .fault .portActionWhileBusy :=
  (step_of_host h).trans (if_pos hb)

/-- LOAD of 2^64 bits or more is refused (U12). -/
theorem step_load_too_long {s : State} {bits : Bits} {rest : List HostAction} (hb : s.busy = false)
    (hl : Config.portLimit ≤ bits.length) (h : s.host = .load bits :: rest) : step s = .refused .inputTooLong := by
  have hidle : ¬ (popAction rest s).busy = true := Bool.eq_false_iff.mp hb
  have hw : ¬ (HostAction.load bits).wellFormed = true := fun hw => Nat.not_lt.mpr hl (of_decide_eq_true hw)
  rw [step_of_host h, hostAction, loadIn, if_neg hidle, if_neg hw]

/-- Settles O18: the cases of BUSY and of the length, each with the lemma about that step. -/
theorem portActions : Obligations.PortActions :=
  fun _ _ => ⟨fun _ hh => ⟨fun hb => step_load_busy hb hh, fun hb hl => step_load hb hl hh,
    fun hb hl => step_load_too_long hb hl hh⟩, fun hh => ⟨fun hb => step_take_busy hb hh, fun hb => step_take hb hh⟩⟩

/-! ## Register writes and resets -/

/-- A STATUS write acknowledges (R26, R166). -/
theorem step_acknowledge {s : State} {v : Word} {rest : List HostAction} (hb : s.busy = false)
    (h : s.host = .memWrite 0x0008 v :: rest) : step s = .next (acknowledge v (popAction rest s)) :=
  step_memWrite_of_regOf hb h (r := .status) (by decide)

/-- A CTRL write with bit 0 = 1 is a soft reset, even while BUSY = 1 (R29, R190). -/
theorem step_softReset {s : State} {v : Word} {rest : List HostAction} (hv : v.getLsbD 0 = true)
    (h : s.host = .memWrite 0x0014 v :: rest) : step s = .next (resetBlock (popAction rest s)) := by
  rw [step_memWrite h, memWrite_ctrl, writeCtrl, if_pos hv]

/-! ## While ERR = 1 (R165) -/

/-- Settles O5: `memWrite_cmd_ignored` refuses the command; no other action looks at ERR, so each has its step lemma. -/
theorem stickyErrorRefusesCommands : Obligations.StickyErrorRefusesCommands := by
  intro s rest hb he
  refine ⟨fun a w ha hh => ?_, fun a hh => step_memRead hb hh,
    fun sym v hsym hh => step_memWrite_of_regOf hb hh (regOf_freq hsym),
    fun v hh => step_memWrite_of_regOf hb hh (r := .intEn) (by decide), fun v hh => ?_,
    fun v hv hh => ⟨_, step_softReset hv hh, rfl, rfl, rfl⟩, fun bits hl hh => step_load hb hl hh,
    fun hh => step_take hb hh⟩
  · have hignores : ignoresCommands (popAction rest s) = true := Bool.or_eq_true_iff.mpr (.inr he)
    rw [step_memWrite hh, memWrite_cmd_ignored ha hignores]
  · have herr : (s.err && !v.getLsbD 2) = !v.getLsbD 2 := by rw [he, Bool.true_and]
    rw [step_acknowledge hb hh, ← herr]
    rfl

/-! ## The error registers (R166) -/

/-- ERR_CODE and ERR_INFO are as before. -/
def KeepsErrorRegisters (s t : State) : Prop :=
  t.errCode = s.errCode ∧ t.errDetail = s.errDetail ∧ t.errStep = s.errStep ∧ t.errInfo = s.errInfo

theorem memRead_keepsErrorRegisters (a : Nat) (s : State) : KeepsErrorRegisters s (memRead a s) := by
  unfold memRead
  split <;> exact ⟨rfl, rfl, rfl, rfl⟩

/-- Of the register writes only those of CMD and CTRL write the error registers. -/
theorem writeReg_keepsErrorRegisters {r : Reg} {v : Word} {s t : State} (hcmd : r ≠ .cmd) (hctrl : r ≠ .ctrl)
    (h : writeReg r v s = .next t) : KeepsErrorRegisters s t := by
  cases r with
  | cmd => exact absurd rfl hcmd
  | ctrl => exact absurd rfl hctrl
  | _ => cases h; exact ⟨rfl, rfl, rfl, rfl⟩

theorem memWrite_keepsErrorRegisters {a : Nat} {v : Word} {s t : State} (hcmd : a % 65536 / 4 ≠ 1)
    (hctrl : a % 65536 / 4 ≠ 5) (h : memWrite a v s = .next t) : KeepsErrorRegisters s t := by
  cases hr : regOf a with
  | none =>
    rw [memWrite_of_unmapped hr] at h
    cases h
    exact ⟨rfl, rfl, rfl, rfl⟩
  | some r =>
    obtain ⟨haCmd, -, haCtrl, -⟩ := regOf_written hr
    cases hb : s.busy with
    | true =>
      rw [memWrite_of_busy hb hctrl] at h
      cases h
      exact ⟨rfl, rfl, rfl, rfl⟩
    | false =>
      rw [memWrite_of_regOf hb hr] at h
      exact writeReg_keepsErrorRegisters (fun e => hcmd (haCmd e)) (fun e => hctrl (haCtrl e)) h

/-- An action that is neither a write of CMD or CTRL nor a reset keeps the error registers. -/
theorem hostAction_keepsErrorRegisters {a : HostAction} {s t : State} (hreset : a ≠ .reset)
    (hw : ∀ addr v, a = .memWrite addr v → addr % 65536 / 4 ≠ 1 ∧ addr % 65536 / 4 ≠ 5)
    (h : hostAction a s = .next t) : KeepsErrorRegisters s t := by
  cases a with
  | memRead addr => cases h; exact memRead_keepsErrorRegisters addr s
  | memWrite addr v =>
    obtain ⟨hcmd, hctrl⟩ := hw addr v rfl
    exact memWrite_keepsErrorRegisters hcmd hctrl h
  | load bits =>
    obtain rfl := loadIn_eq_next h
    exact ⟨rfl, rfl, rfl, rfl⟩
  | take =>
    obtain rfl := takeOut_eq_next h
    exact ⟨rfl, rfl, rfl, rfl⟩
  | reset => exact absurd rfl hreset

/-- Settles O9: the STATUS write is `acknowledge`, the error registers are kept by `hostAction_keepsErrorRegisters`, and both
resets are `resetBlock`. -/
theorem statusWriteAcknowledges : Obligations.StatusWriteAcknowledges := by
  refine ⟨fun s v rest hb hh => step_acknowledge hb hh, fun s t a rest hh hreset hw hs => ?_, fun s rest hh => ?_⟩
  · rw [step_of_host hh] at hs
    exact hostAction_keepsErrorRegisters (s := popAction rest s) hreset hw hs
  · refine ⟨resetBlock (popAction rest s), ?_, resetBlock_err _⟩
    obtain hh | ⟨v, hv, hh⟩ := hh
    · exact step_of_host hh
    · exact step_softReset hv hh

end Sys2Proof.Machine
end

section
/-!
PROOFS. O8 and O59: the fields of STATUS and ERR_CODE (R26, R27, R169), and the state after reset (R171, R192).
-/

namespace Sys2Proof.Machine

/-- Settles O8: the fields are those of `statusWord_bits` and `errCodeWord_fields`. -/
theorem statusAndErrorWords : Obligations.StatusAndErrorWords := by
  intro s
  obtain ⟨hbusy, hdone, herr, htree, htable, hirq, hzero⟩ := statusWord_bits s
  exact ⟨rfl, hbusy, hdone, herr, htree, htable, hirq, hzero, errCodeWord_fields s⟩

/-- Settles O59: the power-on state is the reset of itself, which has an empty IN. -/
theorem resetMeetsTheInvariant : Obligations.ResetMeetsTheInvariant :=
  resetBlock_inv (s := State.reset) (Nat.two_pow_pos 64)

end Sys2Proof.Machine
end

section
/-!
PROOFS. Resets and hazards, O16, O17 and O6: what a reset does to the block, what the host reads after it, and the host's accesses
while BUSY = 1 (R29, R190 to R192, R195, R196).
-/

namespace Sys2Proof.Machine

/-! ## The resets (R29, R190, R191) -/

/-- The reset input and a CTRL write with bit 0 = 1 are the same reset of the block. -/
theorem step_reset {s : State} {rest : List HostAction}
    (h : s.host = .reset :: rest ∨ ∃ v : Word, v.getLsbD 0 = true ∧ s.host = .memWrite 0x0014 v :: rest) :
    step s = .next (resetBlock (popAction rest s)) := by
  obtain hh | ⟨v, hv, hh⟩ := h
  · exact step_of_host hh
  · exact step_softReset hv hh

/-- A CTRL write with bit 0 = 0 does nothing (R29). -/
theorem step_ctrl_without_reset {s : State} {v : Word} {rest : List HostAction} (hv : v.getLsbD 0 = false)
    (h : s.host = .memWrite 0x0014 v :: rest) : step s = .next (popAction rest s) := by
  rw [step_memWrite h, memWrite_ctrl, writeCtrl, if_neg (Bool.eq_false_iff.mp hv)]

/-- Settles O17: either reset is `resetBlock`, whose fields are the reset values and, for the ports, those of the state. -/
theorem resetSetsTheBlock : Obligations.ResetSetsTheBlock :=
  ⟨fun _ _ hh => ⟨_, _, step_reset hh⟩, fun _ _ _ hv hh => step_ctrl_without_reset hv hh, rfl, rfl⟩

/-! ## What the host reads after a reset (R192) -/

/-- An access reads at the address of its word (R58). -/
theorem readAddr_of_wordAddress {a w : Nat} (h : wordAddress a = w) (s : State) : readAddr a s = readAddr w s := by
  have hw : wordAddress w = w := by
    simp only [wordAddress] at h ⊢
    omega
  rw [readAddr, readAddr, regOf, regOf, h, hw]

theorem statusWord_resetBlock (s : State) : statusWord (resetBlock s) = 0#32 := by
  change statusWord State.reset = 0#32
  decide

theorem errCodeWord_resetBlock (s : State) : errCodeWord (resetBlock s) = 0#32 := by
  change errCodeWord State.reset = 0#32
  decide

theorem intEnWord_resetBlock (s : State) : intEnWord (resetBlock s) = 0#32 := by
  change intEnWord State.reset = 0#32
  decide

/-- The addresses at which the block does not read 0 after a reset: ID, the lengths of the ports, MAGIC and `FREQ[256]`. -/
def nonzeroAfterReset : List Nat := [0x0000, 0x0028, 0x002C, 0x0030, 0x0034, 0x0040, 0x0800]

/-- After a reset every other register reads 0: the stored ones are 0, and the windows on NODE and CODE show nothing. -/
theorem readAddr_resetBlock_eq_zero {a : Nat} (h : wordAddress a ∉ nonzeroAfterReset) (s : State) :
    readAddr a (resetBlock s) = 0#32 := by
  cases hr : regOf a with
  | none => exact readAddr_of_unmapped hr _
  | some r =>
    rw [readAddr_of_regOf hr]
    obtain ⟨haddr, hsym⟩ := regOf_address hr
    rw [haddr] at h
    cases r with
    | id | inLenLo | inLenHi | outLenLo | outLenHi | magic | freqEof => exact absurd h (by decide)
    | freq sym =>
      show freqAt (resetBlock s) sym = 0#32
      rw [freqAt_of_lt (hsym sym rfl)]
      exact Vector.getElem_replicate _
    | nodeA i | nodeW i => exact nodeWindow_of_ge (Nat.zero_le i) _
    | codeLen sym => rw [readReg_codeLen, codeWindow_of_invalid (resetBlock_tableValid s)]
    | codeBits sym w => rw [readReg_codeBits, codeWindow_of_invalid (resetBlock_tableValid s)]
    | status => exact statusWord_resetBlock s
    | errCode => exact errCodeWord_resetBlock s
    | intEn => exact intEnWord_resetBlock s
    | inPosHi => exact BitVec.extractLsb'_zero
    | _ => rfl

/-- Settles O16: ID, the lengths, MAGIC and `FREQ[256]` by their registers, every other address by
`readAddr_resetBlock_eq_zero`. -/
theorem resetReads : Obligations.ResetReads := by
  intro s hin hout
  refine ⟨rfl, rfl, fun a => ?_⟩
  have hword : a % 65536 / 4 * 4 = wordAddress a := rfl
  have hcontrol : ∀ {w : Nat} {r : Reg}, wordAddress a = w → (w, r) ∈ controlRegs →
      readAddr a (resetBlock s) = readReg (resetBlock s) r := fun ha hr =>
    (readAddr_of_wordAddress ha _).trans (readAddr_controlReg hr _)
  rw [hword]
  split_ifs with hid hinLo hinHi houtLo houtHi hmagic heof
  · exact hcontrol hid (r := .id) (by decide)
  · exact (hcontrol hinLo (r := .inLenLo) (by decide)).trans (portLength_halves hin).1
  · exact (hcontrol hinHi (r := .inLenHi) (by decide)).trans (portLength_halves hin).2
  · exact (hcontrol houtLo (r := .outLenLo) (by decide)).trans (portLength_halves hout).1
  · exact (hcontrol houtHi (r := .outLenHi) (by decide)).trans (portLength_halves hout).2
  · exact hcontrol hmagic (r := .magic) (by decide)
  · rw [readAddr_of_wordAddress heof, readAddr_of_regOf regOf_freqEof]
    exact freqAt_eof _
  · refine readAddr_resetBlock_eq_zero ?_ s
    simp only [nonzeroAfterReset, List.mem_cons, List.not_mem_nil, hid, hinLo, hinHi, houtLo, houtHi, hmagic, heof, or_false,
      not_false_eq_true]

/-! ## While BUSY = 1 (R195, R196) -/

/-- A write outside CTRL is ignored while BUSY = 1. -/
theorem step_memWrite_of_busy {s : State} {a : Nat} {w : Word} {rest : List HostAction} (hb : s.busy = true)
    (ha : a % 65536 / 4 ≠ 5) (h : s.host = .memWrite a w :: rest) : step s = .next (popAction rest s) :=
  (step_memWrite h).trans (memWrite_of_busy (s := popAction rest s) hb ha)

/-- A read of STATUS answers STATUS, whether BUSY is 0 or 1 (R195). -/
theorem step_memRead_status {s : State} {rest : List HostAction} (h : s.host = .memRead 0x0008 :: rest) :
    step s = .next { popAction rest s with reply := .word (statusWord s) } := by
  have hreg : regOf 0x0008 = some .status := by decide
  have hmap : ¬ ((popAction rest s).busy && regOf 0x0008 ≠ some .status) = true := by simp [hreg]
  rw [step_of_host h, hostAction, memRead, if_neg hmap, readAddr_popAction, readAddr_of_regOf hreg, readReg]

/-- Settles O6: the lemma about each access; a soft reset ends BUSY as `step_softReset` says. -/
theorem busyBlockIgnoresWrites : Obligations.BusyBlockIgnoresWrites :=
  fun _ _ hb => ⟨fun _ _ ha hh => step_memWrite_of_busy hb ha hh, fun _ hv hh => ⟨_, step_softReset hv hh, rfl⟩,
    fun hh => step_memRead_status hh, fun _ hh => step_memRead_cases hh⟩

end Sys2Proof.Machine
end
